-- ==== Sys2Proof/Word.lean ====
section
/-! DEFINITION. The machine's words (spec 00_scope.md section 5): `u8`, `u16`, `u32` as bit vectors, `bytes` as lists. -/

namespace Sys2Proof

/-- `u8`: an octet, the unit of the three buffers. -/
abbrev Byte := BitVec 8

/-- `u16`: every 16-bit wire field and operand register. -/
abbrev Half := BitVec 16

/-- `u32`: the TTL and the result register `VAL`. -/
abbrev Word := BitVec 32

/-- One label of a domain name: a byte string; on the wire 1 to 63 bytes of arbitrary octets (R24, R63). -/
abbrev Label := List Byte

end Sys2Proof
end

