-- ==== Sys2Proof/Config.lean ====
section
/-! DEFINITION. The parameters of the block (R5) and its two open ones: `HMAX` and `RECORD_COUNT_POLICY`. -/

namespace Sys2Proof

/-- `LABEL_MAX`: the largest label, in bytes. -/
def Config.labelMax : Nat := 63

/-- `NAME_MAX`: the largest encoded name, length octets and terminator included. -/
def Config.nameMax : Nat := 255

/-- `IBUF_MAX`: the capacity of the input buffer. -/
def Config.ibufMax : Nat := 65527

/-- `OBUF_MAX`: the capacity of the output buffer, 12 + 255 + 4. -/
def Config.obufMax : Nat := 271

/-- `NREC_BOUND`: the most records a successful DECMSG can return (R5, R156). -/
def Config.nrecBound : Nat := 5955

/-- `CLASS_IN` (R69). -/
def Config.classIn : Half := 1

/-- How far `HMAX` exceeds 253. The spec leaves HMAX open, at least 253 (R28, decision D14), so this has no body and no
proof can see its value: a claim holds for every HMAX. Log entry 7. -/
opaque Config.hmaxSlack : Nat

/-- `HMAX`: the capacity of the hostname buffer, open, at least 253 (R28). -/
def Config.hmax : Nat := 253 + Config.hmaxSlack

/-- R156, decision D5: how many records DECMSG parses. -/
inductive RecordCountPolicy where
  /-- ANCOUNT + NSCOUNT + ARCOUNT records -/
  | counts
  /-- the alternative on record: records until the cursor reaches ILEN -/
  | untilEnd
  deriving DecidableEq, Repr

/-- `RECORD_COUNT_POLICY`: R156 decides `counts`. Log entry 8. -/
def Config.recordCountPolicy : RecordCountPolicy := .counts

end Sys2Proof
end

