-- ==== Sys2Proof/Machine/Bytes.lean ====
section
/-! DEFINITION. The byte order, decided once: big-endian pack and unpack (R41, R90, R91, R92). The laws
of R96 hold of these definitions for every value and every byte string of the length: `be16` and `unbe16` undo each other,
and so do `be32` and `unbe32`; nothing is rejected, truncated, saturated or sign-extended. -/

namespace Sys2Proof

/-- R90, R96: the most significant byte comes first. -/
def be16 (v : Half) : List Byte :=
  [v.extractLsb' 8 8, v.extractLsb' 0 8]

/-- R91, R96: `(zext_16(b[0]) << 8) | zext_16(b[1])`. -/
def unbe16 (b0 b1 : Byte) : Half :=
  (b0.setWidth 16 <<< 8) ||| b1.setWidth 16

/-- R92, R96: four bytes, most significant first; only the TTL is read this way. -/
def unbe32 (b0 b1 b2 b3 : Byte) : Word :=
  (b0.setWidth 32 <<< 24) ||| (b1.setWidth 32 <<< 16) ||| (b2.setWidth 32 <<< 8) ||| b3.setWidth 32

/-- R41, R96: the four bytes of a 32-bit value, most significant first, the inverse of `unbe32`. No command packs one (R92);
claims about records speak of it. -/
def be32 (v : Word) : List Byte :=
  [v.extractLsb' 24 8, v.extractLsb' 16 8, v.extractLsb' 8 8, v.extractLsb' 0 8]

end Sys2Proof
end

