-- ==== Sys2Proof/Machine/Enums.lean ====
section
/-! DEFINITION. The enumerations of the wire format: record types (R68), response codes (R67) and the classes of a
length octet (R64). -/

namespace Sys2Proof

/-- R68: the eight members of RecordType. -/
inductive RecordType where
  | a | ns | cname | soa | wks | ptr | mx | txt
  deriving DecidableEq, Repr

/-- R68, R120: the code of a record type, the same number on encode and decode. -/
def recordTypeCode : RecordType → Half
  | .a => 1 | .ns => 2 | .cname => 5 | .soa => 6 | .wks => 11 | .ptr => 12 | .mx => 15 | .txt => 16

/-- R68: the member a 16-bit value names, if any; every other value, 0 included, is unrecognised. -/
def recordTypeOf (v : Half) : Option RecordType :=
  if v = 1 then some .a
  else if v = 2 then some .ns
  else if v = 5 then some .cname
  else if v = 6 then some .soa
  else if v = 11 then some .wks
  else if v = 12 then some .ptr
  else if v = 15 then some .mx
  else if v = 16 then some .txt
  else none

/-- R67: the six members of ResponseCode. -/
inductive ResponseCode where
  | noError | formatError | serverFailure | nameError | notImplemented | refused
  deriving DecidableEq, Repr

/-- R67: the number of a response code. -/
def responseCodeCode : ResponseCode → BitVec 4
  | .noError => 0 | .formatError => 1 | .serverFailure => 2 | .nameError => 3 | .notImplemented => 4 | .refused => 5

/-- R67, R116: the member a value names, if any. All 16 bits count: 16 and above are out of range like 6 to 15 (R117). -/
def responseCodeOf (v : Half) : Option ResponseCode :=
  if v = 0 then some .noError
  else if v = 1 then some .formatError
  else if v = 2 then some .serverFailure
  else if v = 3 then some .nameError
  else if v = 4 then some .notImplemented
  else if v = 5 then some .refused
  else none

/-- R64: the classes of a length octet, by its value. -/
inductive LenClass where
  /-- `00000000`: ends the name. -/
  | ending
  /-- `00nnnnnn`, n not 0: the next n bytes are one label. -/
  | label
  /-- `01xxxxxx`: reserved. -/
  | reserved01
  /-- `10xxxxxx`: reserved. -/
  | reserved10
  /-- `11xxxxxx`: a compression pointer, unsupported. -/
  | pointer
  deriving DecidableEq, Repr

/-- R64: the class of a length octet. -/
def lenClass (n : Byte) : LenClass :=
  if n = 0 then .ending
  else if n.extractLsb' 6 2 = 0b00#2 then .label
  else if n.extractLsb' 6 2 = 0b01#2 then .reserved01
  else if n.extractLsb' 6 2 = 0b10#2 then .reserved10
  else .pointer

end Sys2Proof
end

