-- ==== Sys2Proof/Machine/HeaderWord.lean ====
section
/-! DEFINITION. The layout of the 16-bit flag word (R20, R65, R110, R112): one shift-and-mask step each way. -/

namespace Sys2Proof

/-- R20, R112: the eight fields of a flag word. -/
structure FlagFields where
  qr : BitVec 1
  opcode : BitVec 4
  aa : BitVec 1
  tc : BitVec 1
  rd : BitVec 1
  ra : BitVec 1
  z : BitVec 3
  rcode : BitVec 4
  deriving DecidableEq, Repr

/-- R71: the word with every field in its place, the reserved bits 6..4 included. -/
def flagWord (f : FlagFields) : Half :=
  (f.qr.setWidth 16 <<< 15) ||| (f.opcode.setWidth 16 <<< 11) ||| (f.aa.setWidth 16 <<< 10) |||
    (f.tc.setWidth 16 <<< 9) ||| (f.rd.setWidth 16 <<< 8) ||| (f.ra.setWidth 16 <<< 7) |||
    (f.z.setWidth 16 <<< 4) ||| f.rcode.setWidth 16

/-- R110: `hdr_encode`; bits 6..4 of the result are always 0. -/
def hdrEncode (qr : BitVec 1) (opcode : BitVec 4) (aa tc rd ra : BitVec 1) (rcode : BitVec 4) : Half :=
  (qr.setWidth 16 <<< 15) ||| (opcode.setWidth 16 <<< 11) ||| (aa.setWidth 16 <<< 10) |||
    (tc.setWidth 16 <<< 9) ||| (rd.setWidth 16 <<< 8) ||| (ra.setWidth 16 <<< 7) ||| rcode.setWidth 16

/-- R112: `hdr_decode`, total on all 65536 words. -/
def hdrDecode (w : Half) : FlagFields where
  qr := w.extractLsb' 15 1
  opcode := w.extractLsb' 11 4
  aa := w.extractLsb' 10 1
  tc := w.extractLsb' 9 1
  rd := w.extractLsb' 8 1
  ra := w.extractLsb' 7 1
  z := w.extractLsb' 4 3
  rcode := w.extractLsb' 0 4

/-- R115: the flag word of an outgoing query. -/
def queryWord : Half := hdrEncode 0 0 0 0 1 0 0

end Sys2Proof
end

