-- ==== Sys2Proof/Syntax.lean ====
section
/-! DEFINITION. The rows of spec/opcode_table.json as one inductive: the command codes (format CMD, R80) and the wire
patterns the commands read and write (formats LEN8, FLAGS16, OPCODE4, RCODE4, RTYPE16, CLASS16; R64 to R69). -/

namespace Sys2Proof

/-- The seven formats of the table's rows: where a word of the row stands. -/
inductive Format where
  /-- a 4-bit command code in the register `CMD` (R80) -/
  | cmd
  /-- a length octet (R64) -/
  | len8
  /-- the flag word (R65) -/
  | flags16
  /-- the Opcode field of a flag word (R66) -/
  | opcode4
  /-- the RCODE field of a flag word (R67) -/
  | rcode4
  /-- a TYPE or QTYPE field (R68) -/
  | rtype16
  /-- a CLASS or QCLASS field (R69) -/
  | class16
  deriving DecidableEq, Repr

/-- One constructor per row of the table. Commands have no operand bits (R81); a wire pattern's operands are the bits its
row leaves open. -/
inductive Instr where
  -- format CMD, the thirteen commands and the three unassigned codes
  | pack16 | unpack16 | unpack32
  | nameenc | namedec
  | hdrenc | hdrdec | rcdec | rtdec
  | qparse | rrparse
  | encq | decmsg
  | cmdUnassigned0 | cmdUnassignedE | cmdUnassignedF
  -- format LEN8
  | lenEnd
  | lenLabel (n : BitVec 6)
  | lenRsv01 (x : BitVec 6)
  | lenRsv10 (x : BitVec 6)
  | lenPtr (x : BitVec 6)
  -- format FLAGS16
  | flags (q : BitVec 1) (o : BitVec 4) (a t d r : BitVec 1) (z : BitVec 3) (c : BitVec 4)
  | flagsQuery
  -- format OPCODE4
  | opcodeStandardQuery
  | opcodeUnnamed (o : BitVec 4)
  -- format RCODE4
  | rcodeNoError | rcodeFormatError | rcodeServerFailure | rcodeNameError | rcodeNotImplemented | rcodeRefused
  | rcodeUnknown (c : BitVec 4)
  -- format RTYPE16
  | rtypeA | rtypeNs | rtypeCname | rtypeSoa | rtypeWks | rtypePtr | rtypeMx | rtypeTxt
  | rtypeUnknown (t : Half)
  -- format CLASS16
  | classIn
  | classOther (c : Half)
  deriving DecidableEq, Repr

end Sys2Proof
end

