-- ==== Sys2Proof/WellFormed.lean ====
section
/-! DEFINITION. Which terms are rows of the table: the operand ranges the table's "range" and "n" notes give. Every other
constructor has no operand, or any operand is its row's. -/

namespace Sys2Proof

/-- The operand checks, one per row that leaves bits open and names a range for them. -/
def WellFormed : Instr → Bool
  | .pack16 | .unpack16 | .unpack32 | .nameenc | .namedec | .hdrenc | .hdrdec | .rcdec | .rtdec
  | .qparse | .rrparse | .encq | .decmsg | .cmdUnassigned0 | .cmdUnassignedE | .cmdUnassignedF => true
  | .lenEnd => true
  -- n = 0 is LEN.END, which takes precedence (R64)
  | .lenLabel n => n != 0
  | .lenRsv01 _ | .lenRsv10 _ | .lenPtr _ => true
  -- the word 0x0100 has its own row, FLAGS.QUERY (R115)
  | .flags q o a t d r z c => flagWord ⟨q, o, a, t, d, r, z, c⟩ != 0x0100
  | .flagsQuery | .opcodeStandardQuery => true
  -- 1..15 (R66)
  | .opcodeUnnamed o => o != 0
  | .rcodeNoError | .rcodeFormatError | .rcodeServerFailure | .rcodeNameError | .rcodeNotImplemented
  | .rcodeRefused => true
  -- 6..15 (R67)
  | .rcodeUnknown c => responseCodeOf (c.setWidth 16) == none
  | .rtypeA | .rtypeNs | .rtypeCname | .rtypeSoa | .rtypeWks | .rtypePtr | .rtypeMx | .rtypeTxt => true
  -- any of the 65528 other values (R68)
  | .rtypeUnknown t => recordTypeOf t == none
  | .classIn => true
  -- any value but 1 (R69)
  | .classOther c => c != 1

end Sys2Proof
end

