-- ==== Sys2Proof/Decode.lean ====
section
/-! DEFINITION. From bits to rows of the table, total on any bytes, and back. A word is read in the format of the place
it stands in: the table's formats overlap as numbers (the octet `01` is PACK16 in CMD, a one-byte label among length
octets), so the format is an argument. -/

namespace Sys2Proof

/-- Why bytes are no word of a format. -/
inductive DecodeError where
  /-- fewer bytes than the format's word has -/
  | tooShort
  /-- a 4-bit word laid out in a byte whose upper four bits are not 0 -/
  | notFourBits (b : Byte)
  deriving DecidableEq, Repr

/-- R80: the sixteen codes of `CMD`. -/
def decodeCmd (c : BitVec 4) : Instr :=
  if c = 0x1 then .pack16
  else if c = 0x2 then .unpack16
  else if c = 0x3 then .unpack32
  else if c = 0x4 then .nameenc
  else if c = 0x5 then .namedec
  else if c = 0x6 then .hdrenc
  else if c = 0x7 then .hdrdec
  else if c = 0x8 then .rcdec
  else if c = 0x9 then .rtdec
  else if c = 0xA then .qparse
  else if c = 0xB then .rrparse
  else if c = 0xC then .encq
  else if c = 0xD then .decmsg
  else if c = 0xE then .cmdUnassignedE
  else if c = 0xF then .cmdUnassignedF
  else .cmdUnassigned0

/-- R64: a length octet. -/
def decodeLen (n : Byte) : Instr :=
  match lenClass n with
  | .ending => .lenEnd
  | .label => .lenLabel (n.extractLsb' 0 6)
  | .reserved01 => .lenRsv01 (n.extractLsb' 0 6)
  | .reserved10 => .lenRsv10 (n.extractLsb' 0 6)
  | .pointer => .lenPtr (n.extractLsb' 0 6)

/-- R65, R115: a flag word. -/
def decodeFlags (w : Half) : Instr :=
  if w = 0x0100 then .flagsQuery
  else
    let f := hdrDecode w
    .flags f.qr f.opcode f.aa f.tc f.rd f.ra f.z f.rcode

/-- R66: the Opcode field. -/
def decodeOpcode (o : BitVec 4) : Instr :=
  if o = 0 then .opcodeStandardQuery else .opcodeUnnamed o

/-- R67: the RCODE field. -/
def decodeRcode (c : BitVec 4) : Instr :=
  match responseCodeOf (c.setWidth 16) with
  | some .noError => .rcodeNoError
  | some .formatError => .rcodeFormatError
  | some .serverFailure => .rcodeServerFailure
  | some .nameError => .rcodeNameError
  | some .notImplemented => .rcodeNotImplemented
  | some .refused => .rcodeRefused
  | none => .rcodeUnknown c

/-- R68: a TYPE field. -/
def decodeRtype (t : Half) : Instr :=
  match recordTypeOf t with
  | some .a => .rtypeA
  | some .ns => .rtypeNs
  | some .cname => .rtypeCname
  | some .soa => .rtypeSoa
  | some .wks => .rtypeWks
  | some .ptr => .rtypePtr
  | some .mx => .rtypeMx
  | some .txt => .rtypeTxt
  | none => .rtypeUnknown t

/-- R69: a CLASS field. -/
def decodeClass (c : Half) : Instr :=
  if c = 1 then .classIn else .classOther c

/-- A 4-bit word laid out in a byte: the upper four bits are 0. Log entry 11. -/
def nibbleOf (b : Byte) : Except DecodeError (BitVec 4) :=
  if b.extractLsb' 4 4 = 0 then .ok (b.extractLsb' 0 4) else .error (.notFourBits b)

/-- The row of the table that the bytes hold in the given format, and the bytes after it; 16-bit words are big-endian
(R41). -/
def decode (f : Format) (bytes : List Byte) : Except DecodeError (Instr × List Byte) :=
  match f, bytes with
  | .cmd, b :: rest => (nibbleOf b).map fun c => (decodeCmd c, rest)
  | .len8, b :: rest => .ok (decodeLen b, rest)
  | .flags16, b0 :: b1 :: rest => .ok (decodeFlags (unbe16 b0 b1), rest)
  | .opcode4, b :: rest => (nibbleOf b).map fun o => (decodeOpcode o, rest)
  | .rcode4, b :: rest => (nibbleOf b).map fun c => (decodeRcode c, rest)
  | .rtype16, b0 :: b1 :: rest => .ok (decodeRtype (unbe16 b0 b1), rest)
  | .class16, b0 :: b1 :: rest => .ok (decodeClass (unbe16 b0 b1), rest)
  | _, _ => .error .tooShort

/-- The format of a row. -/
def formatOf : Instr → Format
  | .pack16 | .unpack16 | .unpack32 | .nameenc | .namedec | .hdrenc | .hdrdec | .rcdec | .rtdec
  | .qparse | .rrparse | .encq | .decmsg | .cmdUnassigned0 | .cmdUnassignedE | .cmdUnassignedF => .cmd
  | .lenEnd | .lenLabel _ | .lenRsv01 _ | .lenRsv10 _ | .lenPtr _ => .len8
  | .flags .. | .flagsQuery => .flags16
  | .opcodeStandardQuery | .opcodeUnnamed _ => .opcode4
  | .rcodeNoError | .rcodeFormatError | .rcodeServerFailure | .rcodeNameError | .rcodeNotImplemented
  | .rcodeRefused | .rcodeUnknown _ => .rcode4
  | .rtypeA | .rtypeNs | .rtypeCname | .rtypeSoa | .rtypeWks | .rtypePtr | .rtypeMx | .rtypeTxt
  | .rtypeUnknown _ => .rtype16
  | .classIn | .classOther _ => .class16

/-- How many bytes a word of a format takes as `decode` reads it. -/
def formatBytes : Format → Nat
  | .cmd | .len8 | .opcode4 | .rcode4 => 1
  | .flags16 | .rtype16 | .class16 => 2

/-- The bytes of a row's word, from the table's encodings. -/
def encode : Instr → List Byte
  | .pack16 => [0x01]
  | .unpack16 => [0x02]
  | .unpack32 => [0x03]
  | .nameenc => [0x04]
  | .namedec => [0x05]
  | .hdrenc => [0x06]
  | .hdrdec => [0x07]
  | .rcdec => [0x08]
  | .rtdec => [0x09]
  | .qparse => [0x0A]
  | .rrparse => [0x0B]
  | .encq => [0x0C]
  | .decmsg => [0x0D]
  | .cmdUnassigned0 => [0x00]
  | .cmdUnassignedE => [0x0E]
  | .cmdUnassignedF => [0x0F]
  | .lenEnd => [0x00]
  | .lenLabel n => [0b00#2 ++ n]
  | .lenRsv01 x => [0b01#2 ++ x]
  | .lenRsv10 x => [0b10#2 ++ x]
  | .lenPtr x => [0b11#2 ++ x]
  | .flags q o a t d r z c => [q ++ o ++ a ++ t ++ d, r ++ z ++ c]
  | .flagsQuery => [0x01, 0x00]
  | .opcodeStandardQuery => [0x00]
  | .opcodeUnnamed o => [0x0#4 ++ o]
  | .rcodeNoError => [0x00]
  | .rcodeFormatError => [0x01]
  | .rcodeServerFailure => [0x02]
  | .rcodeNameError => [0x03]
  | .rcodeNotImplemented => [0x04]
  | .rcodeRefused => [0x05]
  | .rcodeUnknown c => [0x0#4 ++ c]
  | .rtypeA => [0x00, 0x01]
  | .rtypeNs => [0x00, 0x02]
  | .rtypeCname => [0x00, 0x05]
  | .rtypeSoa => [0x00, 0x06]
  | .rtypeWks => [0x00, 0x0B]
  | .rtypePtr => [0x00, 0x0C]
  | .rtypeMx => [0x00, 0x0F]
  | .rtypeTxt => [0x00, 0x10]
  | .rtypeUnknown t => be16 t
  | .classIn => [0x00, 0x01]
  | .classOther c => be16 c

/-- The bytes of a word of a format that is given as a number: 16-bit words are big-endian (R41). -/
def wordBytes (f : Format) (w : Half) : List Byte :=
  match formatBytes f with
  | 2 => be16 w
  | _ => [w.extractLsb' 0 8]

/-- The place a bare table word is taken to stand in, since its number alone does not say (log entry 4): an 8-bit word
below 16 is a command code, any other 8-bit word a length octet; a 16-bit word is a record type if it names one, and a
flag word otherwise. -/
def tableFormat (nbits w : Nat) : Option Format :=
  if nbits ≤ 8 then
    if w < 16 then some .cmd
    else if w < 256 then some .len8
    else none
  else if nbits = 16 then
    if w < 65536 then
      if (recordTypeOf (BitVec.ofNat 16 w)).isSome then some .rtype16
      else some .flags16
    else none
  else none

/-- What the decoder reads from a table word of `nbits` bits whose bits are `w`. -/
def decodeTableWord (nbits w : Nat) : Option Instr :=
  match tableFormat nbits w with
  | none => none
  | some f =>
    match decode f (wordBytes f (BitVec.ofNat 16 w)) with
    | .ok (i, _) => some i
    | .error _ => none

end Sys2Proof
end

