-- ==== Sys2Proof/Machine/State.lean ====
section
/-! DEFINITION. The whole state of the block (R10) as plain data, the reasons a step can stop, and the state after reset
(R31, R200). -/

namespace Sys2Proof.Machine

/-- R29: a location either holds a value or "holds no value". The condition is the spec's own: it is what R31 gives for
reset and what R180 leaves in the outputs of a failed command. Log entry 1. -/
abbrev Held (α : Type) := Option α

/-- A byte buffer: the addresses that hold a value, with their bytes, addresses strictly rising. An address that is not
listed holds no value (R29, R31). -/
abbrev Memory := List Host.Cell

/-- The three address spaces (R40). -/
inductive Space where
  | ibuf | obuf | hbuf
  deriving DecidableEq, Repr

/-- R170: the closed taxonomy of the seven errors, with the values three of them carry. -/
inductive CodecError where
  | unexpectedEndOfInput
  | labelTooLong
  | nameTooLong
  | invalidLabelLength
  | unknownRecordType (raw : Half)
  | unknownResponseCode (raw : Half)
  | transactionIdMismatch (expected actual : Half)
  deriving DecidableEq, Repr

/-- R16: the stages of DECMSG. -/
inductive Stage where
  | start | transactionIdCheck | header | question | records | done
  deriving DecidableEq, Repr

/-- R25, R132: the six fields of a resource record. -/
structure Record where
  name : List Label
  rtype : Half
  rclass : Half
  ttl : Word
  rdlength : Half
  rdata : List Byte
  deriving DecidableEq, Repr

/-- R23, R130: a question. -/
structure Question where
  name : List Label
  qtype : Half
  qclass : Half
  deriving DecidableEq, Repr

/-- R20: the header field group `HF`; the host may write each field on its own (R111). -/
structure HeaderRegs where
  qr : Held (BitVec 1)
  opcode : Held (BitVec 4)
  aa : Held (BitVec 1)
  tc : Held (BitVec 1)
  rd : Held (BitVec 1)
  ra : Held (BitVec 1)
  z : Held (BitVec 3)
  rcode : Held (BitVec 4)
  deriving DecidableEq, Repr

/-- R22: the message registers. -/
structure MessageRegs where
  id : Held Half
  flags : Held Half
  qdcount : Held Half
  ancount : Held Half
  nscount : Held Half
  arcount : Held Half
  deriving DecidableEq, Repr

/-- R23: the question registers. -/
structure QuestionRegs where
  name : Held (List Label)
  qtype : Held Half
  qclass : Held Half
  deriving DecidableEq, Repr

/-- What the host has asked of the block and the next step performs. The model's own field: `step` takes a state and
nothing else, so the input of the step stands in it (R18: "the code is an input of the step"). Log entry 2. -/
inductive Request where
  /-- nothing is asked: no command is in progress and none is started (R200) -/
  | idle
  /-- `CMD` has been written: the command whose code it holds is to be performed (R11, R18) -/
  | command
  /-- a wire pattern of the opcode table, presented by itself (log entry 3); no host of the hardware can do this -/
  | pattern (f : Format) (w : Half)
  /-- the host acted between the start of a command and its end: R206 and U9 give such a run no meaning (log entry 19) -/
  | broken
  deriving DecidableEq, Repr

/-- R10: the whole architectural state, and the model's own `req`. -/
structure State where
  /-- `CMD`, 4 bits (R18) -/
  cmd : BitVec 4
  /-- `ILEN`, 16 bits (R15) -/
  ilen : Half
  /-- `HLEN`, 16 bits (R15) -/
  hlen : Half
  /-- `CUR`, 16 bits (R14) -/
  cur : Held Half
  /-- `TXID`, 16 bits (R19) -/
  txid : Held Half
  /-- `ARG`, 16 bits (R19) -/
  arg : Held Half
  /-- `HF`, eight fields (R20) -/
  hf : HeaderRegs
  /-- `VAL`, 32 bits (R21) -/
  val : Held Word
  /-- `OLEN`, 16 bits (R15) -/
  olen : Held Half
  /-- `ERR`, 3 bits (R17) -/
  err : BitVec 3
  /-- `EINFO0`, 16 bits (R17) -/
  einfo0 : Held Half
  /-- `EINFO1`, 16 bits (R17) -/
  einfo1 : Held Half
  /-- `STAGE`, 3 bits (R16) -/
  stage : BitVec 3
  /-- `M.*` (R22) -/
  msg : MessageRegs
  /-- `Q.*` (R23) -/
  qst : QuestionRegs
  /-- `NAME` (R24) -/
  name : Held (List Label)
  /-- `NREC`, a `nat` (R25) -/
  nrec : Held Nat
  /-- the record store `REC[0..NREC)` (R25); `REC[i]` holds a value exactly when the list has an entry i. Log entry 9. -/
  recs : List Record
  /-- `IBUF` (R26) -/
  ibuf : Memory
  /-- `OBUF` (R27) -/
  obuf : Memory
  /-- `HBUF` (R28) -/
  hbuf : Memory
  /-- the model's own: what the next step performs -/
  req : Request
  deriving DecidableEq, Repr

/-- A location a command can read while it holds no value (R29). -/
inductive Loc where
  | cur | txid | arg
  | hfQr | hfOpcode | hfAa | hfTc | hfRd | hfRa | hfRcode
  | byteOf (space : Space) (addr : Nat)
  deriving DecidableEq, Repr

/-- The reasons the machine stops with a fault. No step of the block raises one: its seven errors are next states (R180)
and it never reads or writes outside a buffer (R51). -/
inductive Fault where
  /-- Raised by the host-side operations of Machine/HostPort.lean only: the host addresses a byte the buffer does not have
  (R40). Safe: the model stops where the spec gives no effect. -/
  | noSuchAddress (space : Space) (addr : Nat)
  deriving DecidableEq, Repr

/-- The reasons the model gives a step no meaning. -/
inductive Refusal where
  /-- An instruction that has no meaning yet; raised by no arm of `exec`. Safe. -/
  | notModelled (mnemonic : String)
  /-- R80: an unassigned command code was written to `CMD`. Raised by the three unassigned codes. Safe. -/
  | unassignedCommand (code : BitVec 4)
  /-- R29: the command reads a location that holds no value. Raised by every command that has inputs. Safe. -/
  | noValue (loc : Loc)
  /-- R15, decision D14: a command that reads `IBUF` while `ILEN` > 65527, or a host load of more bytes
  than `IBUF` has (log entry 16). Safe. -/
  | ilenTooLong
  /-- R15, decision D14: a command that reads `HBUF` while `HLEN` > `HMAX`, or a host load of more bytes
  than `HBUF` has or `HLEN` can count (log entry 16). Safe. -/
  | hlenTooLong
  /-- R206, U9: the host acted on the block while a command it had started was not complete. Raised by `step`. Safe. -/
  | hostActedDuringCommand
  /-- A pattern request whose word is no word of its format; no command request can raise it. Safe. -/
  | undecodable (e : DecodeError)
  deriving DecidableEq, Repr

/-- R31, R200: the state right after reset. `Option.none` is the spec's own "holds no value". -/
def State.reset : State where
  cmd := 0
  ilen := 0
  hlen := 0
  cur := some 0
  txid := none
  arg := none
  hf := ⟨none, none, none, none, none, none, none, none⟩
  val := none
  olen := some 0
  err := 0
  einfo0 := none
  einfo1 := none
  stage := 0
  msg := ⟨none, none, none, none, none, none⟩
  qst := ⟨none, none, none⟩
  name := none
  nrec := some 0
  recs := []
  ibuf := []
  obuf := []
  hbuf := []
  req := .idle

end Sys2Proof.Machine
end

