-- ==== Sys2Proof/Machine/Ops.lean ====
section
/-! DEFINITION. The named operations over the buffers and the registers: byte access, the bounds-checked reads (R46, R47),
the updates of the result registers, and how a command ends, in success or by taking an error (R180, R181). -/

namespace Sys2Proof.Machine

/-! ### The buffers -/

/-- The byte an address holds, if it holds one. -/
def Memory.read : Memory → Nat → Held Byte
  | [], _ => none
  | (b, v) :: m, a => if a = b then some v else Memory.read m a

/-- Store a byte, keeping the addresses strictly rising. -/
def Memory.write : Memory → Nat → Byte → Memory
  | [], a, v => [(a, v)]
  | (b, w) :: m, a, v =>
    if a < b then (a, v) :: (b, w) :: m
    else if a = b then (a, v) :: m
    else (b, w) :: Memory.write m a v

/-- `MemWrite`: store the bytes at `a`, `a + 1`, and so on; every other byte stays as it was (00_scope.md section 5). -/
def Memory.writeFrom (m : Memory) (a : Nat) : List Byte → Memory
  | [] => m
  | b :: bs => (m.write a b).writeFrom (a + 1) bs

/-- The buffer that holds exactly the given bytes at `a`, `a + 1`, and so on (R49). -/
def Memory.ofBytesAt (a : Nat) : List Byte → Memory
  | [] => []
  | b :: bs => (a, b) :: Memory.ofBytesAt (a + 1) bs

/-- The canonical form: addresses strictly rising. An unlisted address holds no value, so no entry repeats it. -/
abbrev Memory.wf (m : Memory) : Prop := List.Pairwise (fun x y : Host.Cell => x.1 < y.1) m

/-- The number of addresses of a buffer (R26, R27, R28). -/
def spaceSize : Space → Nat
  | .ibuf => Config.ibufMax
  | .obuf => Config.obufMax
  | .hbuf => Config.hmax

/-! ### How a function of the spec's pseudocode ends -/

/-- Why a function gives no value: it raises an error (R170), or the model gives the command no meaning (R29, R15). -/
inductive Halt where
  | raised (e : CodecError)
  | refused (r : Refusal)
  deriving DecidableEq, Repr

/-- A function of the pseudocode: a value, or the reason there is none. -/
abbrev Run (α : Type) := Except Halt α

/-- `raise E(info)` (00_scope.md section 5). -/
def raise {α : Type} (e : CodecError) : Run α := .error (.raised e)

/-- Read a register: refused while it holds no value (R29). -/
def readHeld {α : Type} (l : Loc) (r : Held α) : Run α :=
  match r with
  | some v => .ok v
  | none => .error (.refused (.noValue l))

/-! ### Bounds-checked reads of `IBUF` -/

/-- What a decoding function reads: the bytes of `IBUF` and `ILEN`. It reads no register (00_scope.md section 5). -/
structure Input where
  buf : Memory
  len : Nat
  deriving DecidableEq, Repr

/-- `MemRead` of one byte; a byte that holds no value is refused (R29). -/
def byteAt (space : Space) (m : Memory) (a : Nat) : Run Byte :=
  readHeld (.byteOf space a) (m.read a)

/-- `MemRead(space, addr, n)`: n bytes in ascending address order. -/
def bytesAt (space : Space) (m : Memory) : (a n : Nat) → Run (List Byte)
  | _, 0 => .ok []
  | a, n + 1 => do
    let b ← byteAt space m a
    let bs ← bytesAt space m (a + 1) n
    return b :: bs

/-- R46: the check is made before any byte of the field is read. The subtraction is formed only when `cur <= ILEN`. -/
def need (inp : Input) (cur n : Nat) : Run Unit :=
  if inp.len < cur ∨ inp.len - cur < n then raise .unexpectedEndOfInput else .ok ()

/-- R47: one byte. -/
def rd8 (inp : Input) (cur : Nat) : Run (Byte × Nat) := do
  need inp cur 1
  let b ← byteAt .ibuf inp.buf cur
  return (b, cur + 1)

/-- R47: a big-endian 16-bit field. -/
def rd16 (inp : Input) (cur : Nat) : Run (Half × Nat) := do
  need inp cur 2
  let b0 ← byteAt .ibuf inp.buf cur
  let b1 ← byteAt .ibuf inp.buf (cur + 1)
  return (unbe16 b0 b1, cur + 2)

/-- R47: a big-endian 32-bit field. -/
def rd32 (inp : Input) (cur : Nat) : Run (Word × Nat) := do
  need inp cur 4
  let b0 ← byteAt .ibuf inp.buf cur
  let b1 ← byteAt .ibuf inp.buf (cur + 1)
  let b2 ← byteAt .ibuf inp.buf (cur + 2)
  let b3 ← byteAt .ibuf inp.buf (cur + 3)
  return (unbe32 b0 b1 b2 b3, cur + 4)

/-- R47: n bytes. -/
def rdbytes (inp : Input) (cur n : Nat) : Run (List Byte × Nat) := do
  need inp cur n
  let bs ← bytesAt .ibuf inp.buf cur n
  return (bs, cur + n)

/-! ### Updates of the registers

Each writes a value or, with `none`, leaves the registers holding no value, as R180 has it after an error. -/

/-- A cursor as the 16 bits of `CUR`; it is at most ILEN, so nothing is lost (R14). -/
def toCur (c : Nat) : Half := BitVec.ofNat 16 c

/-- `VAL` (R21). -/
def State.putVal (v : Held Word) (s : State) : State := { s with val := v }

/-- `CUR` (R14). -/
def State.putCur (c : Held Nat) (s : State) : State := { s with cur := c.map toCur }

/-- `OBUF` and `OLEN` (R27): the whole result at address 0, no value at or beyond `OLEN`. -/
def State.putOutput (out : Held (List Byte)) (s : State) : State :=
  { s with
    obuf := Memory.ofBytesAt 0 (out.getD [])
    olen := out.map fun bs => BitVec.ofNat 16 bs.length }

/-- `NAME` (R24). -/
def State.putName (n : Held (List Label)) (s : State) : State := { s with name := n }

/-- `Q.*` (R23). -/
def State.putQuestion (q : Held Question) (s : State) : State :=
  { s with qst := ⟨q.map (·.name), q.map (·.qtype), q.map (·.qclass)⟩ }

/-- `Q.CLASS` (R23). -/
def State.putQclass (c : Held Half) (s : State) : State := { s with qst := { s.qst with qclass := c } }

/-- `NREC` and `REC[0..NREC)` (R25). -/
def State.putRecords (rs : Held (List Record)) (s : State) : State :=
  { s with nrec := rs.map (·.length), recs := rs.getD [] }

/-- All eight fields of `HF` (R20). -/
def State.putHeader (f : Held FlagFields) (s : State) : State :=
  { s with
    hf := ⟨f.map (·.qr), f.map (·.opcode), f.map (·.aa), f.map (·.tc), f.map (·.rd), f.map (·.ra), f.map (·.z),
      f.map (·.rcode)⟩ }

/-- `HF.OPCODE` (R20). -/
def State.putOpcode (o : Held (BitVec 4)) (s : State) : State := { s with hf := { s.hf with opcode := o } }

/-- R16: the numbers of the stages. -/
def stageCode : Stage → BitVec 3
  | .start => 0 | .transactionIdCheck => 1 | .header => 2 | .question => 3 | .records => 4 | .done => 5

/-- `STAGE` (R16). -/
def State.putStage (st : Stage) (s : State) : State := { s with stage := stageCode st }

/-- The values of the message registers (R22). -/
structure MessageHeader where
  id : Half
  flags : Half
  qdcount : Half
  ancount : Half
  nscount : Half
  arcount : Half
  deriving DecidableEq, Repr

/-- `M.*` (R22). -/
def State.putMessage (h : Held MessageHeader) (s : State) : State :=
  { s with
    msg := ⟨h.map (·.id), h.map (·.flags), h.map (·.qdcount), h.map (·.ancount), h.map (·.nscount),
      h.map (·.arcount)⟩ }

/-! ### Taking an error, and ending in success -/

/-- R170: the code of an error, its place in the source's sentence. -/
def errorCode : CodecError → BitVec 3
  | .unexpectedEndOfInput => 1
  | .labelTooLong => 2
  | .nameTooLong => 3
  | .invalidLabelLength => 4
  | .unknownRecordType _ => 5
  | .unknownResponseCode _ => 6
  | .transactionIdMismatch _ _ => 7

/-- R170: what an error leaves in `EINFO0`. -/
def errorInfo0 : CodecError → Held Half
  | .unknownRecordType raw => some raw
  | .unknownResponseCode raw => some raw
  | .transactionIdMismatch expected _ => some expected
  | _ => none

/-- R170: what an error leaves in `EINFO1`. -/
def errorInfo1 : CodecError → Held Half
  | .transactionIdMismatch _ actual => some actual
  | _ => none

/-- R180: the report of an error. Nothing is saved, no mode changes and control goes nowhere; there is no return (R181). -/
def State.takeError (e : CodecError) (s : State) : State :=
  { s with err := errorCode e, einfo0 := errorInfo0 e, einfo1 := errorInfo1 e }

/-- R17, R181: a successful command writes `ERR` afresh; `EINFO0` and `EINFO1` hold no value. -/
def State.succeed (s : State) : State :=
  { s with err := 0, einfo0 := none, einfo1 := none }

/-- How every command ends (R11, R180): with a value its outputs are written and it reports success; with an error its
outputs hold no value and the error is reported; refused, the step has no meaning. `put` writes the declared outputs other
than `ERR`, `EINFO0`, `EINFO1`. -/
def finish {α : Type} (r : Run α) (put : Held α → State → State) (s : State) :
    Host.Outcome State Fault Refusal :=
  match r with
  | .ok v => .next (put (some v) s).succeed
  | .error (.raised e) => .next ((put none s).takeError e)
  | .error (.refused why) => .refused why

end Sys2Proof.Machine
end

