-- ==== Sys2Proof/Machine/Operands.lean ====
section
/-! DEFINITION. The operands of the commands (R81, R30): registers and buffers the host has loaded, read once when the
command starts. -/

namespace Sys2Proof.Machine

/-- `IBUF` and `ILEN` as a decoding command reads them; refused while `ILEN` > 65527 (R15, decision D14). -/
def inputOf (s : State) : Run Input :=
  if Config.ibufMax < s.ilen.toNat then .error (.refused .ilenTooLong)
  else .ok ⟨s.ibuf, s.ilen.toNat⟩

/-- The cursor a cursor command starts from (R14). -/
def cursorOf (s : State) : Run Nat := do
  let c ← readHeld .cur s.cur
  return c.toNat

/-- `ARG` (R19). -/
def argOf (s : State) : Run Half := readHeld .arg s.arg

/-- `TXID` (R19). -/
def txidOf (s : State) : Run Half := readHeld .txid s.txid

/-- The hostname `HBUF[0..HLEN)` (R28); refused while `HLEN` > `HMAX` (R15, decision D14). HMAX is open but at least 253
(R28), so up to 253 bytes fit without asking what it is. -/
def hostnameOf (s : State) : Run (List Byte) :=
  if s.hlen.toNat ≤ 253 ∨ s.hlen.toNat ≤ Config.hmax then bytesAt .hbuf s.hbuf 0 s.hlen.toNat
  else .error (.refused .hlenTooLong)

/-- A cursor command (R81): read the operands, then run a decoding function from `CUR`. -/
def atCursor {α : Type} (f : Input → Nat → Run α) (s : State) : Run α := do
  let inp ← inputOf s
  let c ← cursorOf s
  f inp c

end Sys2Proof.Machine
end

