-- ==== Sys2Proof/Machine/Flags.lean ====
section
/-! DEFINITION. The flag computations: the word HDRENC builds from `HF` (R111) and the two strict enumeration checks
(R116, R118). The word's layout is Machine/HeaderWord.lean; the status flag `ERR` is written by Ops.lean's `finish`. -/

namespace Sys2Proof.Machine

/-- R111: the flag word of the seven fields HDRENC reads; `HF.Z` is not read. -/
def headerWordOf (s : State) : Run Half := do
  let qr ← readHeld .hfQr s.hf.qr
  let opcode ← readHeld .hfOpcode s.hf.opcode
  let aa ← readHeld .hfAa s.hf.aa
  let tc ← readHeld .hfTc s.hf.tc
  let rd ← readHeld .hfRd s.hf.rd
  let ra ← readHeld .hfRa s.hf.ra
  let rcode ← readHeld .hfRcode s.hf.rcode
  return hdrEncode qr opcode aa tc rd ra rcode

/-- R116: a response code is one of the six or `UnknownResponseCode(v)`. -/
def rcodeDecode (v : Half) : Run (BitVec 4) :=
  match responseCodeOf v with
  | some c => .ok (responseCodeCode c)
  | none => raise (.unknownResponseCode v)

/-- R118: a record type is one of the eight or `UnknownRecordType(v)`. -/
def rtypeDecode (v : Half) : Run Half :=
  match recordTypeOf v with
  | some t => .ok (recordTypeCode t)
  | none => raise (.unknownRecordType v)

end Sys2Proof.Machine
end

