-- ==== Sys2Proof/Machine/HeaderFlags.lean ====
section
/-! DEFINITION. HDRENC, HDRDEC, RCDEC, RTDEC (spec 42_header_flags.md). -/

namespace Sys2Proof.Machine

/-- R111. -/
def execHdrenc (s : State) : Host.Outcome State Fault Refusal :=
  finish (headerWordOf s) (fun (w : Held Half) s => s.putVal (w.map (·.setWidth 32))) s

/-- R113. -/
def execHdrdec (s : State) : Host.Outcome State Fault Refusal :=
  finish (do let w ← argOf s; return hdrDecode w) (fun f s => s.putHeader f) s

/-- R117. -/
def execRcdec (s : State) : Host.Outcome State Fault Refusal :=
  finish (do let v ← argOf s; rcodeDecode v) (fun (c : Held (BitVec 4)) s => s.putVal (c.map (·.setWidth 32))) s

/-- R119. -/
def execRtdec (s : State) : Host.Outcome State Fault Refusal :=
  finish (do let v ← argOf s; rtypeDecode v) (fun (t : Held Half) s => s.putVal (t.map (·.setWidth 32))) s

end Sys2Proof.Machine
end

