-- ==== Sys2Proof/Machine/IntegerPack.lean ====
section
/-! DEFINITION. PACK16, UNPACK16, UNPACK32 (spec 40_integer_pack.md). -/

namespace Sys2Proof.Machine

/-- R93. -/
def execPack16 (s : State) : Host.Outcome State Fault Refusal :=
  finish (do let v ← argOf s; return be16 v) (fun out s => s.putOutput out) s

/-- R94. -/
def execUnpack16 (s : State) : Host.Outcome State Fault Refusal :=
  finish (atCursor rd16 s)
    (fun (r : Held (Half × Nat)) s => (s.putVal (r.map fun p => p.1.setWidth 32)).putCur (r.map (·.2))) s

/-- R95. -/
def execUnpack32 (s : State) : Host.Outcome State Fault Refusal :=
  finish (atCursor rd32 s)
    (fun (r : Held (Word × Nat)) s => (s.putVal (r.map (·.1))).putCur (r.map (·.2))) s

end Sys2Proof.Machine
end

