-- ==== Sys2Proof/Machine/NameCodec.lean ====
section
/-! DEFINITION. The name codec: NAMEENC, NAMEDEC (spec 41_name_codec.md). -/

namespace Sys2Proof.Machine

/-- The separator `.`, the byte 0x2E (R100, general knowledge G1). -/
def dot : Byte := 0x2E

/-- R100: cut at every separator; k separators give k + 1 pieces, some perhaps empty. -/
def splitDots : List Byte → List Label
  | [] => [[]]
  | b :: h =>
    if b = dot then [] :: splitDots h
    else
      match splitDots h with
      | p :: ps => (b :: p) :: ps
      | [] => [[b]]

/-- R100: a length octet and the label's bytes. -/
def wireLabel (l : Label) : List Byte := BitVec.ofNat 8 l.length :: l

/-- R100: the loop over the pieces; empty pieces are skipped, and the first piece over 63 bytes ends it. -/
def encodePieces : List Label → Run (List Byte)
  | [] => .ok []
  | lab :: labs =>
    if lab.length = 0 then encodePieces labs
    else if Config.labelMax < lab.length then raise .labelTooLong
    else do
      let rest ← encodePieces labs
      return wireLabel lab ++ rest

/-- R100: `name_encode`; every label is checked before the total (decision D8). -/
def nameEncode (h : List Byte) : Run (List Byte) := do
  let labels ← encodePieces (splitDots h)
  let out := labels ++ [0x00]
  if Config.nameMax < out.length then raise .nameTooLong else return out

/-- R64, R103: what one length octet does once it has been read, the cursor being just past it: end the name, consume the
next n bytes as a label, or raise. The bits are examined before any label byte is looked at. -/
def lenTurn (inp : Input) (n : Byte) (cur : Nat) : Run (Option Label × Nat) :=
  match lenClass n with
  | .ending => .ok (none, cur)
  | .label => do
    let (lab, c) ← rdbytes inp cur n.toNat
    return (some lab, c)
  | .reserved01 => raise .invalidLabelLength
  | .reserved10 => raise .invalidLabelLength
  | .pointer => raise .invalidLabelLength

/-- R103: the loop of `name_decode`, with the number of turns it may still make. The bound of `nameDecode` is never used
up (R210), so the answer at 0 turns is never given. Log entry 10. -/
def nameLoop (inp : Input) : (turns cur : Nat) → Run (List Label × Nat)
  | 0, _ => raise .unexpectedEndOfInput
  | k + 1, cur => do
    let (n, c) ← rd8 inp cur
    let (lab, c) ← lenTurn inp n c
    match lab with
    | none => return ([], c)
    | some l =>
      let (labs, c) ← nameLoop inp k c
      return (l :: labs, c)

/-- R103: `name_decode`; at most `ILEN - cur + 1` turns (R210). -/
def nameDecode (inp : Input) (cur : Nat) : Run (List Label × Nat) :=
  nameLoop inp (inp.len - cur + 1) cur

/-- R101. -/
def execNameenc (s : State) : Host.Outcome State Fault Refusal :=
  finish (do let h ← hostnameOf s; nameEncode h) (fun out s => s.putOutput out) s

/-- R104. -/
def execNamedec (s : State) : Host.Outcome State Fault Refusal :=
  finish (atCursor nameDecode s)
    (fun (r : Held (List Label × Nat)) s => (s.putName (r.map (·.1))).putCur (r.map (·.2))) s

end Sys2Proof.Machine
end

