-- ==== Sys2Proof/Machine/RecordParser.lean ====
section
/-! DEFINITION. QPARSE, RRPARSE (spec 43_record_parser.md). -/

namespace Sys2Proof.Machine

/-- R130: each field is checked when it is read, before the next is touched; the class is stored raw. -/
def questionParse (inp : Input) (cur : Nat) : Run (Question × Nat) := do
  let (name, cur) ← nameDecode inp cur
  let (t, cur) ← rd16 inp cur
  let qtype ← rtypeDecode t
  let (qclass, cur) ← rd16 inp cur
  return (⟨name, qtype, qclass⟩, cur)

/-- R132: fields in wire order, each checked when it is read; RDATA is opaque. -/
def rrParse (inp : Input) (cur : Nat) : Run (Record × Nat) := do
  let (name, cur) ← nameDecode inp cur
  let (t, cur) ← rd16 inp cur
  let rtype ← rtypeDecode t
  let (rclass, cur) ← rd16 inp cur
  let (ttl, cur) ← rd32 inp cur
  let (rdlength, cur) ← rd16 inp cur
  let (rdata, cur) ← rdbytes inp cur rdlength.toNat
  return (⟨name, rtype, rclass, ttl, rdlength, rdata⟩, cur)

/-- R131. -/
def execQparse (s : State) : Host.Outcome State Fault Refusal :=
  finish (atCursor questionParse s)
    (fun (r : Held (Question × Nat)) s => (s.putQuestion (r.map (·.1))).putCur (r.map (·.2))) s

/-- R133. -/
def execRrparse (s : State) : Host.Outcome State Fault Refusal :=
  finish (atCursor rrParse s)
    (fun (r : Held (Record × Nat)) s => (s.putRecords (r.map fun p => [p.1])).putCur (r.map (·.2))) s

end Sys2Proof.Machine
end

