-- ==== Sys2Proof/Machine/MessageDecoder.lean ====
section
/-! DEFINITION. DECMSG and its stage machine (spec 45_message_decoder.md). -/

namespace Sys2Proof.Machine

/-- R150: a decoded message. -/
structure Message where
  header : MessageHeader
  fields : FlagFields
  question : Question
  records : List Record
  endCur : Nat
  deriving DecidableEq, Repr

/-- R158: an error or refusal inside a stage is remembered with that stage. -/
def inStage {α : Type} (st : Stage) (r : Run α) : Except (Stage × Halt) α :=
  match r with
  | .ok v => .ok v
  | .error h => .error (st, h)

/-- R155: n records, one after another. -/
def parseRecords (inp : Input) : (n cur : Nat) → Run (List Record × Nat)
  | 0, cur => .ok ([], cur)
  | n + 1, cur => do
    let (r, cur) ← rrParse inp cur
    let (rs, cur) ← parseRecords inp n cur
    return (r :: rs, cur)

/-- The alternative of decision D5: records until the cursor reaches ILEN, at most `turns` of them. -/
def parseToEnd (inp : Input) : (turns cur : Nat) → Run (List Record × Nat)
  | 0, cur => .ok ([], cur)
  | k + 1, cur =>
    if inp.len ≤ cur then .ok ([], cur)
    else do
      let (r, cur) ← rrParse inp cur
      let (rs, cur) ← parseToEnd inp k cur
      return (r :: rs, cur)

/-- R156: the records of a message under a policy; `counts` sums the three counts without wrap. -/
def parseSections (policy : RecordCountPolicy) (an ns ar : Half) (inp : Input) (cur : Nat) :
    Run (List Record × Nat) :=
  match policy with
  | .counts => parseRecords inp (an.toNat + ns.toNat + ar.toNat) cur
  | .untilEnd => parseToEnd inp (inp.len - cur) cur

/-- R152: the id must equal the expected one before any other field is read. -/
def checkId (expected id : Half) : Run Unit :=
  if id = expected then .ok () else raise (.transactionIdMismatch expected id)

/-- R150: `decode_message`, stage by stage (R159); always from offset 0. -/
def decodeMessage (policy : RecordCountPolicy) (expected : Half) (inp : Input) :
    Except (Stage × Halt) Message := do
  let (id, cur) ← inStage .transactionIdCheck (rd16 inp 0)
  inStage .transactionIdCheck (checkId expected id)
  let (w, cur) ← inStage .header (rd16 inp cur)
  let _ ← inStage .header (rcodeDecode ((hdrDecode w).rcode.setWidth 16))
  let (qd, cur) ← inStage .header (rd16 inp cur)
  let (an, cur) ← inStage .header (rd16 inp cur)
  let (ns, cur) ← inStage .header (rd16 inp cur)
  let (ar, cur) ← inStage .header (rd16 inp cur)
  let (q, cur) ← inStage .question (questionParse inp cur)
  let (rs, cur) ← inStage .records (parseSections policy an ns ar inp cur)
  return ⟨⟨id, w, qd, an, ns, ar⟩, hdrDecode w, q, rs, cur⟩

/-- R151: the outputs of DECMSG other than `STAGE`. -/
def State.putDecoded (m : Held Message) (s : State) : State :=
  (((((s.putMessage (m.map (·.header))).putHeader (m.map (·.fields))).putQuestion
    (m.map (·.question))).putRecords (m.map (·.records))).putCur (m.map (·.endCur)))

/-- The operands of DECMSG, then `decode_message`; a refused operand is refused in stage Start. -/
def decodeFrom (s : State) : Except (Stage × Halt) Message := do
  let inp ← inStage .start (inputOf s)
  let expected ← inStage .start (txidOf s)
  decodeMessage Config.recordCountPolicy expected inp

/-- R16, R158: the stage DECMSG ends in: Done, or the stage whose field failed. -/
def endStage (r : Except (Stage × Halt) Message) : Stage :=
  match r with
  | .ok _ => .done
  | .error (st, _) => st

/-- A result without its stage. -/
def dropStage (r : Except (Stage × Halt) Message) : Run Message :=
  match r with
  | .ok m => .ok m
  | .error (_, h) => .error h

/-- R151. -/
def execDecmsg (s : State) : Host.Outcome State Fault Refusal :=
  finish (dropStage (decodeFrom s))
    (fun m s' => (s'.putDecoded m).putStage (endStage (decodeFrom s))) s

end Sys2Proof.Machine
end

