-- ==== Sys2Proof/Machine/MessageEncoder.lean ====
section
/-! DEFINITION. ENCQ (spec 44_message_encoder.md). -/

namespace Sys2Proof.Machine

/-- R140: the name is checked before the type (decision D8), and both before any output. -/
def encodeQuery (h : List Byte) (t id : Half) : Run (List Byte) := do
  let name ← nameEncode h
  let type ← rtypeDecode t
  return be16 id ++ be16 queryWord ++ be16 1 ++ be16 0 ++ be16 0 ++ be16 0 ++ name ++ be16 type ++ be16 Config.classIn

/-- R141. -/
def execEncq (s : State) : Host.Outcome State Fault Refusal :=
  finish (do
      let h ← hostnameOf s
      let t ← argOf s
      let id ← txidOf s
      encodeQuery h t id)
    (fun out s => s.putOutput out) s

end Sys2Proof.Machine
end

