-- ==== Sys2Proof/Machine/Unassigned.lean ====
section
/-! DEFINITION. The unassigned command codes 0x0, 0xE, 0xF (R80): each starts nothing and is refused. -/

namespace Sys2Proof.Machine

/-- Code 0x0. -/
def execCmdUnassigned0 (_s : State) : Host.Outcome State Fault Refusal := .refused (.unassignedCommand 0x0)

/-- Code 0xE. -/
def execCmdUnassignedE (_s : State) : Host.Outcome State Fault Refusal := .refused (.unassignedCommand 0xE)

/-- Code 0xF. -/
def execCmdUnassignedF (_s : State) : Host.Outcome State Fault Refusal := .refused (.unassignedCommand 0xF)

end Sys2Proof.Machine
end

