-- ==== Sys2Proof/Machine/WirePatterns.lean ====
section
/-! DEFINITION. The rows of the opcode table that are no command codes: the wire patterns (R64 to R69). None of them can be
written to `CMD`; the commands meet them in their buffers and operands. Presented by itself (log entry 3) a pattern is put
through the one function of the spec that classifies it, and the result goes to the registers in which the command that
exposes that function leaves it: `lenTurn` to NAME and CUR, `hdr_decode` to HF, `rcode_decode` and `rtype_decode` to VAL,
the raw class to Q.CLASS. -/

namespace Sys2Proof.Machine

/-- R64, R103: a length octet that has just been read, CUR being just past it. NAME receives the label it delivers, none
for END; the reserved classes fail as NAMEDEC does. -/
def lengthOctet (n : Byte) (s : State) : Host.Outcome State Fault Refusal :=
  finish (atCursor (fun inp cur => lenTurn inp n cur) s)
    (fun (r : Held (Option Label × Nat)) s => (s.putName (r.map (·.1.toList))).putCur (r.map (·.2))) s

/-- R65, R112: a flag word, split into `HF`. -/
def flagPattern (f : FlagFields) (s : State) : Host.Outcome State Fault Refusal :=
  finish (.ok f) (fun f s => s.putHeader f) s

/-- R66: an Opcode field, returned raw in `HF.OPCODE` whatever its value. -/
def opcodePattern (o : BitVec 4) (s : State) : Host.Outcome State Fault Refusal :=
  finish (.ok o) (fun o s => s.putOpcode o) s

/-- R67, R116: an RCODE field, checked against the enumeration. -/
def rcodePattern (c : BitVec 4) (s : State) : Host.Outcome State Fault Refusal :=
  finish (rcodeDecode (c.setWidth 16)) (fun (c : Held (BitVec 4)) s => s.putVal (c.map (·.setWidth 32))) s

/-- R68, R118: a TYPE field, checked against the enumeration. -/
def rtypePattern (t : Half) (s : State) : Host.Outcome State Fault Refusal :=
  finish (rtypeDecode t) (fun (t : Held Half) s => s.putVal (t.map (·.setWidth 32))) s

/-- R69, R130: a CLASS field, stored raw. -/
def classPattern (c : Half) (s : State) : Host.Outcome State Fault Refusal :=
  finish (.ok c) (fun c s => s.putQclass c) s

/-- LEN.END (R64). -/
def execLenEnd (s : State) : Host.Outcome State Fault Refusal := lengthOctet 0x00 s

/-- LEN.LABEL (R64). -/
def execLenLabel (n : BitVec 6) (s : State) : Host.Outcome State Fault Refusal := lengthOctet (0b00#2 ++ n) s

/-- LEN.RSV01 (R64, decision D6). -/
def execLenRsv01 (x : BitVec 6) (s : State) : Host.Outcome State Fault Refusal := lengthOctet (0b01#2 ++ x) s

/-- LEN.RSV10 (R64, decision D6). -/
def execLenRsv10 (x : BitVec 6) (s : State) : Host.Outcome State Fault Refusal := lengthOctet (0b10#2 ++ x) s

/-- LEN.PTR (R64): never followed. -/
def execLenPtr (x : BitVec 6) (s : State) : Host.Outcome State Fault Refusal := lengthOctet (0b11#2 ++ x) s

/-- FLAGS (R65). -/
def execFlags (q : BitVec 1) (o : BitVec 4) (a t d r : BitVec 1) (z : BitVec 3) (c : BitVec 4) (s : State) :
    Host.Outcome State Fault Refusal := flagPattern ⟨q, o, a, t, d, r, z, c⟩ s

/-- FLAGS.QUERY (R115). -/
def execFlagsQuery (s : State) : Host.Outcome State Fault Refusal := flagPattern (hdrDecode queryWord) s

/-- OPCODE.STANDARD_QUERY (R66). -/
def execOpcodeStandardQuery (s : State) : Host.Outcome State Fault Refusal := opcodePattern 0 s

/-- OPCODE.UNNAMED (R66). -/
def execOpcodeUnnamed (o : BitVec 4) (s : State) : Host.Outcome State Fault Refusal := opcodePattern o s

/-- RCODE.NoError (R67). -/
def execRcodeNoError (s : State) : Host.Outcome State Fault Refusal := rcodePattern 0 s

/-- RCODE.FormatError (R67). -/
def execRcodeFormatError (s : State) : Host.Outcome State Fault Refusal := rcodePattern 1 s

/-- RCODE.ServerFailure (R67). -/
def execRcodeServerFailure (s : State) : Host.Outcome State Fault Refusal := rcodePattern 2 s

/-- RCODE.NameError (R67). -/
def execRcodeNameError (s : State) : Host.Outcome State Fault Refusal := rcodePattern 3 s

/-- RCODE.NotImplemented (R67). -/
def execRcodeNotImplemented (s : State) : Host.Outcome State Fault Refusal := rcodePattern 4 s

/-- RCODE.Refused (R67). -/
def execRcodeRefused (s : State) : Host.Outcome State Fault Refusal := rcodePattern 5 s

/-- RCODE.UNKNOWN (R67). -/
def execRcodeUnknown (c : BitVec 4) (s : State) : Host.Outcome State Fault Refusal := rcodePattern c s

/-- RTYPE.A (R68). -/
def execRtypeA (s : State) : Host.Outcome State Fault Refusal := rtypePattern 1 s

/-- RTYPE.NS (R68). -/
def execRtypeNs (s : State) : Host.Outcome State Fault Refusal := rtypePattern 2 s

/-- RTYPE.CNAME (R68). -/
def execRtypeCname (s : State) : Host.Outcome State Fault Refusal := rtypePattern 5 s

/-- RTYPE.SOA (R68). -/
def execRtypeSoa (s : State) : Host.Outcome State Fault Refusal := rtypePattern 6 s

/-- RTYPE.WKS (R68). -/
def execRtypeWks (s : State) : Host.Outcome State Fault Refusal := rtypePattern 11 s

/-- RTYPE.PTR (R68). -/
def execRtypePtr (s : State) : Host.Outcome State Fault Refusal := rtypePattern 12 s

/-- RTYPE.MX (R68). -/
def execRtypeMx (s : State) : Host.Outcome State Fault Refusal := rtypePattern 15 s

/-- RTYPE.TXT (R68). -/
def execRtypeTxt (s : State) : Host.Outcome State Fault Refusal := rtypePattern 16 s

/-- RTYPE.UNKNOWN (R68). -/
def execRtypeUnknown (t : Half) (s : State) : Host.Outcome State Fault Refusal := rtypePattern t s

/-- CLASS.IN (R69). -/
def execClassIn (s : State) : Host.Outcome State Fault Refusal := classPattern Config.classIn s

/-- CLASS.OTHER (R69). -/
def execClassOther (c : Half) (s : State) : Host.Outcome State Fault Refusal := classPattern c s

end Sys2Proof.Machine
end

