-- ==== Sys2Proof/Machine/Dispatch.lean ====
section
/-! DEFINITION. One arm per row of the opcode table. -/

namespace Sys2Proof.Machine

def exec (i : Instr) (s : State) : Host.Outcome State Fault Refusal :=
  match i with
  | .pack16 => Sys2Proof.Machine.execPack16 s
  | .unpack16 => Sys2Proof.Machine.execUnpack16 s
  | .unpack32 => Sys2Proof.Machine.execUnpack32 s
  | .nameenc => Sys2Proof.Machine.execNameenc s
  | .namedec => Sys2Proof.Machine.execNamedec s
  | .hdrenc => Sys2Proof.Machine.execHdrenc s
  | .hdrdec => Sys2Proof.Machine.execHdrdec s
  | .rcdec => Sys2Proof.Machine.execRcdec s
  | .rtdec => Sys2Proof.Machine.execRtdec s
  | .qparse => Sys2Proof.Machine.execQparse s
  | .rrparse => Sys2Proof.Machine.execRrparse s
  | .encq => Sys2Proof.Machine.execEncq s
  | .decmsg => Sys2Proof.Machine.execDecmsg s
  | .cmdUnassigned0 => Sys2Proof.Machine.execCmdUnassigned0 s
  | .cmdUnassignedE => Sys2Proof.Machine.execCmdUnassignedE s
  | .cmdUnassignedF => Sys2Proof.Machine.execCmdUnassignedF s
  -- the wire patterns
  | .lenEnd => Sys2Proof.Machine.execLenEnd s
  | .lenLabel n => Sys2Proof.Machine.execLenLabel n s
  | .lenRsv01 x => Sys2Proof.Machine.execLenRsv01 x s
  | .lenRsv10 x => Sys2Proof.Machine.execLenRsv10 x s
  | .lenPtr x => Sys2Proof.Machine.execLenPtr x s
  | .flags q o a t d r z c => Sys2Proof.Machine.execFlags q o a t d r z c s
  | .flagsQuery => Sys2Proof.Machine.execFlagsQuery s
  | .opcodeStandardQuery => Sys2Proof.Machine.execOpcodeStandardQuery s
  | .opcodeUnnamed o => Sys2Proof.Machine.execOpcodeUnnamed o s
  | .rcodeNoError => Sys2Proof.Machine.execRcodeNoError s
  | .rcodeFormatError => Sys2Proof.Machine.execRcodeFormatError s
  | .rcodeServerFailure => Sys2Proof.Machine.execRcodeServerFailure s
  | .rcodeNameError => Sys2Proof.Machine.execRcodeNameError s
  | .rcodeNotImplemented => Sys2Proof.Machine.execRcodeNotImplemented s
  | .rcodeRefused => Sys2Proof.Machine.execRcodeRefused s
  | .rcodeUnknown c => Sys2Proof.Machine.execRcodeUnknown c s
  | .rtypeA => Sys2Proof.Machine.execRtypeA s
  | .rtypeNs => Sys2Proof.Machine.execRtypeNs s
  | .rtypeCname => Sys2Proof.Machine.execRtypeCname s
  | .rtypeSoa => Sys2Proof.Machine.execRtypeSoa s
  | .rtypeWks => Sys2Proof.Machine.execRtypeWks s
  | .rtypePtr => Sys2Proof.Machine.execRtypePtr s
  | .rtypeMx => Sys2Proof.Machine.execRtypeMx s
  | .rtypeTxt => Sys2Proof.Machine.execRtypeTxt s
  | .rtypeUnknown t => Sys2Proof.Machine.execRtypeUnknown t s
  | .classIn => Sys2Proof.Machine.execClassIn s
  | .classOther c => Sys2Proof.Machine.execClassOther c s

end Sys2Proof.Machine
end

