-- ==== Sys2Proof/Machine/Fetch.lean ====
section
/-! DEFINITION. Where a step's instruction comes from: the host's write of `CMD` (R11, R18). There is no instruction fetch
(R55); a pattern request is the model's own (log entry 3). -/

namespace Sys2Proof.Machine

/-- The word the next step performs, with the format of the place it stands in; none while nothing is asked, and in a broken
run, which `step` refuses before it looks. -/
def fetch (s : State) : Option (Format × List Byte) :=
  match s.req with
  | .idle => none
  | .command => some (.cmd, wordBytes .cmd (s.cmd.setWidth 16))
  | .pattern f w => some (f, wordBytes f w)
  | .broken => none

/-- R11: once the command is taken up nothing more is asked; `CMD` keeps the last code written (R18). -/
def State.consume (s : State) : State := { s with req := .idle }

/-- The state in which the next step performs the table word of `nbits` bits whose bits are `w`. -/
def placeWord (s : State) (nbits w : Nat) : State :=
  match tableFormat nbits w with
  | none => s.consume
  | some .cmd => { s with cmd := BitVec.ofNat 4 w, req := .command }
  | some f => { s with req := .pattern f (BitVec.ofNat 16 w) }

end Sys2Proof.Machine
end

