-- ==== Sys2Proof/Machine/Step.lean ====
section
/-! DEFINITION. One step: the command the host has started, performed whole (R11). -/

namespace Sys2Proof.Machine

/-- R11: from the state before the command to the state after it in one transition. With nothing asked the block does
nothing (log entry 2); a run in which the host acted during a command has no meaning (R206, U9). -/
def step (s : State) : Host.Outcome State Fault Refusal :=
  match fetch s with
  | none => if s.req = .broken then .refused .hostActedDuringCommand else .next s
  | some (f, bytes) =>
    match decode f bytes with
    | .ok (i, _) => exec i s.consume
    | .error e => .refused (.undecodable e)

/-- The table word stored where `step` takes its next instruction: in `CMD` with the start the host's write gives, or, for a
wire pattern, in the model's own request slot. -/
def State.withFetchWord (s : State) (nbits w : Nat) : State := placeWord s nbits w

end Sys2Proof.Machine
end

