-- ==== Sys2Proof/Machine/HostPort.lean ====
section
/-! DEFINITION. What the host may do between commands (R54, R204; 00_scope.md section 9 item 8): write the operand registers
and the buffers it owns, start a command by writing `CMD`, reset the block. What it
reads is the field itself. A command is one step (R11), so the host never acts inside one; where it acts between the write of
`CMD` and that step, the run is marked broken and `step` refuses it (R206, U9; log entry 19). -/

namespace Sys2Proof.Machine

/-- R54, R206: an act of the host has its effect between commands. While a command the host has started is not complete the
act gives the run no meaning. -/
def State.hostAct (f : State → State) (s : State) : State :=
  match s.req with
  | .idle => f s
  | _ => { s with req := .broken }

/-- R18: writing `CMD` starts the command whose code is written. -/
def State.hostWriteCmd (code : BitVec 4) (s : State) : State :=
  s.hostAct fun s => { s with cmd := code, req := .command }

/-- R15. -/
def State.hostWriteIlen (n : Half) (s : State) : State :=
  s.hostAct fun s => { s with ilen := n }

/-- R15. -/
def State.hostWriteHlen (n : Half) (s : State) : State :=
  s.hostAct fun s => { s with hlen := n }

/-- R14: the host chooses where parsing starts. -/
def State.hostWriteCur (c : Half) (s : State) : State :=
  s.hostAct fun s => { s with cur := some c }

/-- R19. -/
def State.hostWriteTxid (v : Half) (s : State) : State :=
  s.hostAct fun s => { s with txid := some v }

/-- R19. -/
def State.hostWriteArg (v : Half) (s : State) : State :=
  s.hostAct fun s => { s with arg := some v }

/-- R20: the host writes the fields of `HF` as it likes, each on its own. -/
def State.hostWriteHeader (f : HeaderRegs → HeaderRegs) (s : State) : State :=
  s.hostAct fun s => { s with hf := f s.hf }

/-- R26: the host writes a byte of `IBUF`; an address the buffer does not have is a fault (log entry 16). -/
def State.hostWriteIbuf (a : Nat) (b : Byte) (s : State) : Host.Outcome State Fault Refusal :=
  if a < spaceSize .ibuf then .next (s.hostAct fun s => { s with ibuf := Memory.write s.ibuf a b })
  else .fault (.noSuchAddress .ibuf a)

/-- R28: the host writes a byte of `HBUF`; an address the buffer does not have is a fault (log entry 16). -/
def State.hostWriteHbuf (a : Nat) (b : Byte) (s : State) : Host.Outcome State Fault Refusal :=
  if a < spaceSize .hbuf then .next (s.hostAct fun s => { s with hbuf := Memory.write s.hbuf a b })
  else .fault (.noSuchAddress .hbuf a)

/-- The host loads a message: it writes the bytes to `IBUF` from address 0 and their number to `ILEN` (R204). Only the bytes
written change (R54). More bytes than `IBUF` has are refused, as D14 refuses an input that long (R26; log entry 16). -/
def State.hostLoadMessage (bytes : List Byte) (s : State) : Host.Outcome State Fault Refusal :=
  if bytes.length ≤ spaceSize .ibuf then
    .next (s.hostAct fun s => { s with ibuf := s.ibuf.writeFrom 0 bytes, ilen := BitVec.ofNat 16 bytes.length })
  else .refused .ilenTooLong

/-- The host loads a hostname: it writes the bytes to `HBUF` from address 0 and their number to `HLEN` (R204). Only the
bytes written change (R54). More bytes than `HBUF` has, or than the 16 bits of `HLEN` can count, are refused (R15, R28, D14;
log entry 16). -/
def State.hostLoadHostname (bytes : List Byte) (s : State) : Host.Outcome State Fault Refusal :=
  if bytes.length ≤ spaceSize .hbuf ∧ bytes.length < 65536 then
    .next (s.hostAct fun s => { s with hbuf := s.hbuf.writeFrom 0 bytes, hlen := BitVec.ofNat 16 bytes.length })
  else .refused .hlenTooLong

/-- R45, R206: a read of an output. Between commands it changes nothing. -/
def State.hostReadOutput (s : State) : State := s.hostAct id

/-- R200: the one reset. It may fall while a command waits: the command is abandoned, and the state is R31's table (log
entry 12). -/
def State.hostReset (_s : State) : State := State.reset

end Sys2Proof.Machine
end

