-- ==== Sys2Proof/Safety.lean ====
section
/-! DEFINITION. The terms in which claims are made: what bytes a buffer holds, the wire formats as byte strings, the
declared inputs and outputs of every command (R30), the error table (R170), and the invariant every step keeps. -/

namespace Sys2Proof.Machine

/-! ### Bytes in a buffer -/

/-- The buffer holds exactly these bytes at `a`, `a + 1`, and so on. -/
def Memory.holds (m : Memory) : Nat → List Byte → Prop
  | _, [] => True
  | a, b :: bs => m.read a = some b ∧ Memory.holds m (a + 1) bs

/-- Two buffers agree on the addresses below `n`. -/
def agreeBelow (n : Nat) (m m' : Memory) : Prop := ∀ a, a < n → m.read a = m'.read a

/-- Every address below `n` holds a value. -/
def filledBelow (n : Nat) (m : Memory) : Prop := ∀ a, a < n → ∃ b, m.read a = some b

/-- The bytes a buffer holds, in address order. -/
def Memory.bytes (m : Memory) : List Byte := m.map (·.2)

/-! ### Wire formats (R60 to R63) -/

/-- The labels of a name with their length octets, without the terminator. -/
def wireLabels (ls : List Label) : List Byte := ls.flatMap wireLabel

/-- R63: format NAME. -/
def wireName (ls : List Label) : List Byte := wireLabels ls ++ [0x00]

/-- R61: format QUESTION. -/
def wireQuestion (q : Question) : List Byte := wireName q.name ++ be16 q.qtype ++ be16 q.qclass

/-- R62: the four fields of a record that lie between its name and its data. -/
def wireRecordFixed (r : Record) : List Byte := be16 r.rtype ++ be16 r.rclass ++ be32 r.ttl ++ be16 r.rdlength

/-- R62: format RR. -/
def wireRecord (r : Record) : List Byte := wireName r.name ++ wireRecordFixed r ++ r.rdata

/-- R60: format HDR. -/
def wireHeader (h : MessageHeader) : List Byte :=
  be16 h.id ++ be16 h.flags ++ be16 h.qdcount ++ be16 h.ancount ++ be16 h.nscount ++ be16 h.arcount

/-- R73: a message, no padding and no gaps. -/
def wireMessage (h : MessageHeader) (q : Question) (rs : List Record) : List Byte :=
  wireHeader h ++ wireQuestion q ++ rs.flatMap wireRecord

/-! ### The fields a decoding function reads, in the order it reads them (R178) -/

/-- R63, R103: a length octet and a label for each label, then the terminator. -/
def nameFields (ls : List Label) : List (List Byte) := ls.flatMap (fun l => [[BitVec.ofNat 8 l.length], l]) ++ [[0x00]]

/-- R130. -/
def questionFields (q : Question) : List (List Byte) := nameFields q.name ++ [be16 q.qtype, be16 q.qclass]

/-- R132. -/
def recordFields (r : Record) : List (List Byte) :=
  nameFields r.name ++ [be16 r.rtype, be16 r.rclass, be32 r.ttl, be16 r.rdlength, r.rdata]

/-- R150. -/
def messageFields (h : MessageHeader) (q : Question) (rs : List Record) : List (List Byte) :=
  [be16 h.id, be16 h.flags, be16 h.qdcount, be16 h.ancount, be16 h.nscount, be16 h.arcount] ++
    (questionFields q ++ rs.flatMap recordFields)

/-- Of the `n` bytes at `c`, which lie below `len`, the one at `a` is the first that holds no value. -/
def stopsIn (m : Memory) (len a c n : Nat) : Prop :=
  c + n ≤ len ∧ c ≤ a ∧ a < c + n ∧ m.read a = none ∧ ∀ b, c ≤ b → b < a → m.read b ≠ none

/-- The fields lie from `c` one after another up to one that ends within `len` and whose first byte without a value is the
one at `a`. -/
def stopsAt (m : Memory) (len a : Nat) : Nat → List (List Byte) → Prop
  | _, [] => False
  | c, f :: fs => stopsIn m len a c f.length ∨ (m.holds c f ∧ stopsAt m len a (c + f.length) fs)

/-! ### What the parsers deliver -/

/-- R63: a label is 1 to 63 bytes long. -/
def legalLabel (l : Label) : Prop := 1 ≤ l.length ∧ l.length ≤ 63

/-- R63: every label of a name is legal. -/
def legalName (ls : List Label) : Prop := ∀ l ∈ ls, legalLabel l

/-- R68: the value names a record type. -/
def knownType (t : Half) : Prop := t ∈ [1, 2, 5, 6, 11, 12, 15, 16]

/-- R130: what a successful question parse delivers. -/
def legalQuestion (q : Question) : Prop := legalName q.name ∧ knownType q.qtype

/-- R132, R134: what a successful record parse delivers. -/
def legalRecord (r : Record) : Prop :=
  legalName r.name ∧ knownType r.rtype ∧ r.rdata.length = r.rdlength.toNat

/-- R156: the number of records the counts promise, in `nat`. -/
def promisedRecords (h : MessageHeader) : Nat := h.ancount.toNat + h.nscount.toNat + h.arcount.toNat

/-- The non-empty pieces of a hostname, in order: the labels its encoding carries (R100). -/
def hostLabels (h : List Byte) : List Label := (splitDots h).filter (fun l => l != [])

/-- Join labels with single separators (R106); done by the host. -/
def joinDots : List Label → List Byte
  | [] => []
  | [l] => l
  | l :: ls => l ++ dot :: joinDots ls

/-- R151: the state a successful DECMSG leaves. -/
def decodedState (s : State) (h : MessageHeader) (q : Question) (rs : List Record) : State :=
  { s with
    msg := ⟨some h.id, some h.flags, some h.qdcount, some h.ancount, some h.nscount, some h.arcount⟩
    hf :=
      ⟨some (hdrDecode h.flags).qr, some (hdrDecode h.flags).opcode, some (hdrDecode h.flags).aa,
        some (hdrDecode h.flags).tc, some (hdrDecode h.flags).rd, some (hdrDecode h.flags).ra,
        some (hdrDecode h.flags).z, some (hdrDecode h.flags).rcode⟩
    qst := ⟨some q.name, some q.qtype, some q.qclass⟩
    nrec := some rs.length
    recs := rs
    cur := some (toCur (wireMessage h q rs).length)
    stage := 5
    err := 0
    einfo0 := none
    einfo1 := none }

/-- The state a failed DECMSG leaves: the report, the stage, and no result (R180). -/
def undecodedState (s : State) (st : Stage) (e : CodecError) : State :=
  { s with
    msg := ⟨none, none, none, none, none, none⟩
    hf := ⟨none, none, none, none, none, none, none, none⟩
    qst := ⟨none, none, none⟩
    nrec := none
    recs := []
    cur := none
    stage := stageCode st
    err := errorCode e
    einfo0 := errorInfo0 e
    einfo1 := errorInfo1 e }

/-! ### Declared inputs and outputs (R30)

For the wire patterns, which R30 does not list, the registers of the function each goes through (log entry 3). -/

/-- The sets of declared inputs. -/
inductive InputGroup where
  /-- none -/
  | nothing
  /-- `ARG` -/
  | arg
  /-- `ILEN`, `CUR`, the bytes of `IBUF` below `ILEN` -/
  | field
  /-- `HLEN`, the bytes of `HBUF` below `HLEN` -/
  | hostname
  /-- `HF` without `Z` -/
  | header
  /-- the hostname, `ARG`, `TXID` -/
  | query
  /-- `ILEN`, the bytes of `IBUF` below `ILEN`, `TXID` -/
  | message
  deriving DecidableEq, Repr

/-- The declared inputs of an instruction. -/
def inputGroup : Instr → InputGroup
  | .pack16 | .hdrdec | .rcdec | .rtdec => .arg
  | .unpack16 | .unpack32 | .namedec | .qparse | .rrparse => .field
  | .nameenc => .hostname
  | .hdrenc => .header
  | .encq => .query
  | .decmsg => .message
  | .cmdUnassigned0 | .cmdUnassignedE | .cmdUnassignedF => .nothing
  | .lenEnd | .lenLabel _ | .lenRsv01 _ | .lenRsv10 _ | .lenPtr _ => .field
  | .flags .. | .flagsQuery | .opcodeStandardQuery | .opcodeUnnamed _ => .nothing
  | .rcodeNoError | .rcodeFormatError | .rcodeServerFailure | .rcodeNameError | .rcodeNotImplemented
  | .rcodeRefused | .rcodeUnknown _ => .nothing
  | .rtypeA | .rtypeNs | .rtypeCname | .rtypeSoa | .rtypeWks | .rtypePtr | .rtypeMx | .rtypeTxt
  | .rtypeUnknown _ => .nothing
  | .classIn | .classOther _ => .nothing

/-- The sets of declared outputs, the report `ERR`, `EINFO0`, `EINFO1` being one of every command. -/
inductive OutputGroup where
  /-- nothing, not even a report: the unassigned codes -/
  | nothing
  /-- `OBUF`, `OLEN` -/
  | output
  /-- `VAL` -/
  | value
  /-- `VAL`, `CUR` -/
  | field
  /-- `NAME`, `CUR` -/
  | name
  /-- `HF` -/
  | header
  /-- `HF.OPCODE` -/
  | opcode
  /-- `Q.*`, `CUR` -/
  | question
  /-- `Q.CLASS` -/
  | qclass
  /-- `REC[0]`, `NREC`, `CUR` -/
  | record
  /-- `M.*`, `HF`, `Q.*`, `REC[0..NREC)`, `NREC`, `CUR`, `STAGE` -/
  | message
  deriving DecidableEq, Repr

/-- The declared outputs of an instruction. -/
def outputGroup : Instr → OutputGroup
  | .pack16 | .nameenc | .encq => .output
  | .unpack16 | .unpack32 => .field
  | .namedec => .name
  | .hdrenc | .rcdec | .rtdec => .value
  | .hdrdec => .header
  | .qparse => .question
  | .rrparse => .record
  | .decmsg => .message
  | .cmdUnassigned0 | .cmdUnassignedE | .cmdUnassignedF => .nothing
  | .lenEnd | .lenLabel _ | .lenRsv01 _ | .lenRsv10 _ | .lenPtr _ => .name
  | .flags .. | .flagsQuery => .header
  | .opcodeStandardQuery | .opcodeUnnamed _ => .opcode
  | .rcodeNoError | .rcodeFormatError | .rcodeServerFailure | .rcodeNameError | .rcodeNotImplemented
  | .rcodeRefused | .rcodeUnknown _ => .value
  | .rtypeA | .rtypeNs | .rtypeCname | .rtypeSoa | .rtypeWks | .rtypePtr | .rtypeMx | .rtypeTxt
  | .rtypeUnknown _ => .value
  | .classIn | .classOther _ => .qclass

/-- The two states agree on every input of the group. -/
def inputsAgree (g : InputGroup) (s t : State) : Prop :=
  match g with
  | .nothing => True
  | .arg => s.arg = t.arg
  | .field => s.ilen = t.ilen ∧ s.cur = t.cur ∧ agreeBelow s.ilen.toNat s.ibuf t.ibuf
  | .hostname => s.hlen = t.hlen ∧ agreeBelow s.hlen.toNat s.hbuf t.hbuf
  | .header =>
    s.hf.qr = t.hf.qr ∧ s.hf.opcode = t.hf.opcode ∧ s.hf.aa = t.hf.aa ∧ s.hf.tc = t.hf.tc ∧ s.hf.rd = t.hf.rd ∧
      s.hf.ra = t.hf.ra ∧ s.hf.rcode = t.hf.rcode
  | .query => s.hlen = t.hlen ∧ agreeBelow s.hlen.toNat s.hbuf t.hbuf ∧ s.arg = t.arg ∧ s.txid = t.txid
  | .message => s.ilen = t.ilen ∧ agreeBelow s.ilen.toNat s.ibuf t.ibuf ∧ s.txid = t.txid

/-- The two states agree on every output of the group. -/
def outputsAgree (g : OutputGroup) (s t : State) : Prop :=
  match g with
  | .nothing => True
  | .output => s.obuf = t.obuf ∧ s.olen = t.olen
  | .value => s.val = t.val
  | .field => s.val = t.val ∧ s.cur = t.cur
  | .name => s.name = t.name ∧ s.cur = t.cur
  | .header => s.hf = t.hf
  | .opcode => s.hf.opcode = t.hf.opcode
  | .question => s.qst = t.qst ∧ s.cur = t.cur
  | .qclass => s.qst.qclass = t.qst.qclass
  | .record => s.recs = t.recs ∧ s.nrec = t.nrec ∧ s.cur = t.cur
  | .message =>
    s.msg = t.msg ∧ s.hf = t.hf ∧ s.qst = t.qst ∧ s.recs = t.recs ∧ s.nrec = t.nrec ∧ s.cur = t.cur ∧
      s.stage = t.stage

/-- Two outcomes agree on the outputs of the group and on the report, or are the same refusal. -/
def outcomesAgree (g : OutputGroup) (a b : Host.Outcome State Fault Refusal) : Prop :=
  match a, b with
  | .next s, .next t => outputsAgree g s t ∧ s.err = t.err ∧ s.einfo0 = t.einfo0 ∧ s.einfo1 = t.einfo1
  | .refused why, .refused why' => why = why'
  | _, _ => False

/-- `s` with the outputs of the group taken from `t`. -/
def takeOutputs (g : OutputGroup) (s t : State) : State :=
  match g with
  | .nothing => s
  | .output => { s with obuf := t.obuf, olen := t.olen }
  | .value => { s with val := t.val }
  | .field => { s with val := t.val, cur := t.cur }
  | .name => { s with name := t.name, cur := t.cur }
  | .header => { s with hf := t.hf }
  | .opcode => { s with hf := { s.hf with opcode := t.hf.opcode } }
  | .question => { s with qst := t.qst, cur := t.cur }
  | .qclass => { s with qst := { s.qst with qclass := t.qst.qclass } }
  | .record => { s with recs := t.recs, nrec := t.nrec, cur := t.cur }
  | .message =>
    { s with
      msg := t.msg, hf := t.hf, qst := t.qst, recs := t.recs, nrec := t.nrec, cur := t.cur, stage := t.stage }

/-- `s` with the report of `t`. -/
def takeReport (s t : State) : State := { s with err := t.err, einfo0 := t.einfo0, einfo1 := t.einfo1 }

/-- From `s` to `t` nothing changed but the outputs of the group and the report. -/
def onlyOutputsChanged (g : OutputGroup) (s t : State) : Prop := t = takeReport (takeOutputs g s t) t

/-- Every output of the group but `STAGE` holds no value (R180). -/
def outputsHoldNoValue (g : OutputGroup) (t : State) : Prop :=
  match g with
  | .nothing => True
  | .output => t.olen = none ∧ ∀ a, t.obuf.read a = none
  | .value => t.val = none
  | .field => t.val = none ∧ t.cur = none
  | .name => t.name = none ∧ t.cur = none
  | .header => t.hf = ⟨none, none, none, none, none, none, none, none⟩
  | .opcode => t.hf.opcode = none
  | .question => t.qst = ⟨none, none, none⟩ ∧ t.cur = none
  | .qclass => t.qst.qclass = none
  | .record => t.nrec = none ∧ t.recs = [] ∧ t.cur = none
  | .message =>
    t.msg = ⟨none, none, none, none, none, none⟩ ∧ t.hf = ⟨none, none, none, none, none, none, none, none⟩ ∧
      t.qst = ⟨none, none, none⟩ ∧ t.nrec = none ∧ t.recs = [] ∧ t.cur = none

/-- R204: the host has written every input of the group, within the buffers' capacities. -/
def inputsReady (g : InputGroup) (s : State) : Prop :=
  match g with
  | .nothing => True
  | .arg => s.arg ≠ none
  | .field => s.ilen.toNat ≤ 65527 ∧ s.cur ≠ none ∧ filledBelow s.ilen.toNat s.ibuf
  | .hostname => s.hlen.toNat ≤ Config.hmax ∧ filledBelow s.hlen.toNat s.hbuf
  | .header =>
    s.hf.qr ≠ none ∧ s.hf.opcode ≠ none ∧ s.hf.aa ≠ none ∧ s.hf.tc ≠ none ∧ s.hf.rd ≠ none ∧ s.hf.ra ≠ none ∧
      s.hf.rcode ≠ none
  | .query => s.hlen.toNat ≤ Config.hmax ∧ filledBelow s.hlen.toNat s.hbuf ∧ s.arg ≠ none ∧ s.txid ≠ none
  | .message => s.ilen.toNat ≤ 65527 ∧ filledBelow s.ilen.toNat s.ibuf ∧ s.txid ≠ none

/-! ### The report (R17, R170) -/

/-- The report is that of success, or of the error given. -/
def reports (t : State) (e : Option CodecError) : Prop :=
  match e with
  | none => t.err = 0 ∧ t.einfo0 = none ∧ t.einfo1 = none
  | some e => t.err = errorCode e ∧ t.einfo0 = errorInfo0 e ∧ t.einfo1 = errorInfo1 e

/-- The instruction fails from `s`, with the report `u` holds. -/
def failsAlike (i : Instr) (s u : State) : Prop :=
  ∃ t, exec i s = .next t ∧ t.err ≠ 0 ∧ t.err = u.err ∧ t.einfo0 = u.einfo0 ∧ t.einfo1 = u.einfo1

/-- R170: which instruction can raise which error. -/
def mayRaise (i : Instr) (e : CodecError) : Prop :=
  match e with
  | .unexpectedEndOfInput =>
    i ∈ [.unpack16, .unpack32, .namedec, .qparse, .rrparse, .decmsg] ∨ ∃ n, i = .lenLabel n
  | .labelTooLong => i ∈ [.nameenc, .encq]
  | .nameTooLong => i ∈ [.nameenc, .encq]
  | .invalidLabelLength =>
    i ∈ [.namedec, .qparse, .rrparse, .decmsg] ∨ ∃ x, i = .lenRsv01 x ∨ i = .lenRsv10 x ∨ i = .lenPtr x
  | .unknownRecordType _ => i ∈ [.rtdec, .qparse, .rrparse, .decmsg, .encq] ∨ ∃ t, i = .rtypeUnknown t
  | .unknownResponseCode _ => i ∈ [.rcdec, .decmsg] ∨ ∃ c, i = .rcodeUnknown c
  | .transactionIdMismatch _ _ => i = .decmsg

/-! ### The invariant every step keeps -/

/-- R26, R28, R40: `IBUF` ends at address 65526 and `HBUF` at `HMAX` - 1. -/
def buffersWithin (s : State) : Prop :=
  (∀ a, 65527 ≤ a → s.ibuf.read a = none) ∧ ∀ a, Config.hmax ≤ a → s.hbuf.read a = none

/-- What every step keeps, whatever the host loads between steps. -/
structure BlockInv (s : State) : Prop where
  /-- the buffers keep their canonical form (R26, R28) -/
  ibuf_wf : Memory.wf s.ibuf
  hbuf_wf : Memory.wf s.hbuf
  obuf_wf : Memory.wf s.obuf
  /-- R26, R28, R40: no byte stands beyond the buffers the host writes -/
  within : buffersWithin s
  /-- R15, R27: `OLEN` is at most 271 and `OBUF` holds a value exactly below it -/
  output : ∀ n, s.olen = some n → n.toNat ≤ 271 ∧ ∀ a, s.obuf.read a ≠ none ↔ a < n.toNat
  /-- R180: while `OLEN` holds no value neither does `OBUF` -/
  no_output : s.olen = none → ∀ a, s.obuf.read a = none
  /-- R14: the cursor is within the input -/
  cursor : ∀ c, s.cur = some c → c.toNat ≤ s.ilen.toNat
  /-- R25, R156: the store is `REC[0..NREC)`, of at most 5955 records -/
  store : ∀ n, s.nrec = some n → s.recs.length = n ∧ n ≤ 5955
  /-- R180: while `NREC` holds no value neither does the store -/
  no_store : s.nrec = none → s.recs = []
  /-- R25: every record delivered is legal -/
  records : ∀ r ∈ s.recs, legalRecord r
  /-- R24 -/
  name : ∀ ls, s.name = some ls → legalName ls
  /-- R23 -/
  question_name : ∀ ls, s.qst.name = some ls → legalName ls
  question_type : ∀ t, s.qst.qtype = some t → knownType t
  /-- R16: the values 6 and 7 never occur -/
  stage : s.stage.toNat ≤ 5
  /-- R17, R170: the report is that of success or of one of the seven errors -/
  report : ∃ e, reports s e
  /-- R22, R16: the message registers hold values exactly after a successful DECMSG -/
  message : (∃ h : MessageHeader,
      s.msg = ⟨some h.id, some h.flags, some h.qdcount, some h.ancount, some h.nscount, some h.arcount⟩ ∧
      s.stage = 5 ∧ (hdrDecode h.flags).rcode.toNat ≤ 5) ∨
    (s.msg = ⟨none, none, none, none, none, none⟩ ∧ s.stage ≠ 5)

end Sys2Proof.Machine
end

