-- ==== Sys2Proof/Certificates/Slice0/Obligations.lean ====
section
/-! DEFINITION. The statements for the provers: what the rules of the spec say the machine does. -/

open Sys2Proof Sys2Proof.Machine

/-- Words written out from the table's encodings, a 4-bit one in a byte of its own, decode to their rows. Rests on
30_encoding.md section 1, 30_encoding.md section 5. Log entry 11. -/
def Obligations.SpecWordsDecodeToTheirRows : Prop :=
  decode .cmd [0b00000001] = .ok (.pack16, []) ∧
  decode .cmd [0b00001101] = .ok (.decmsg, []) ∧
  decode .cmd [0b00001110] = .ok (.cmdUnassignedE, []) ∧
  decode .len8 [0b00000000] = .ok (.lenEnd, []) ∧
  decode .len8 [0b00000111, 0x65] = .ok (.lenLabel 7, [0x65]) ∧
  decode .len8 [0b01000001] = .ok (.lenRsv01 1, []) ∧
  decode .len8 [0b10000010] = .ok (.lenRsv10 2, []) ∧
  decode .len8 [0b11000000] = .ok (.lenPtr 0, []) ∧
  decode .flags16 [0b10000001, 0b10000011] = .ok (.flags 1 0 0 0 1 1 0 3, []) ∧
  decode .flags16 [0b00000001, 0b00000000] = .ok (.flagsQuery, []) ∧
  decode .opcode4 [0b00000010] = .ok (.opcodeUnnamed 2, []) ∧
  decode .rcode4 [0b00000011] = .ok (.rcodeNameError, []) ∧
  decode .rcode4 [0b00001001] = .ok (.rcodeUnknown 9, []) ∧
  decode .rtype16 [0b00000000, 0b00001111] = .ok (.rtypeMx, []) ∧
  decode .rtype16 [0b00000000, 0b01100011] = .ok (.rtypeUnknown 99, []) ∧
  decode .class16 [0b00000000, 0b00000001] = .ok (.classIn, []) ∧
  decode .class16 [0b00000000, 0b11111111] = .ok (.classOther 255, [])

/-- Decode of encode is the instruction, for every well-formed row. Rests on 30_encoding.md section 1, 30_encoding.md
section 5. Log entry 11. -/
def Obligations.DecodingAnEncodedInstructionGivesItBack : Prop :=
  ∀ (i : Instr) (rest : List Byte), WellFormed i = true → decode (formatOf i) (encode i ++ rest) = .ok (i, rest)

/-- What decodes is well formed and encodes to the bytes it was read from. Rests on 30_encoding.md section 1,
30_encoding.md section 5. Log entry 11. -/
def Obligations.EveryDecodedWordIsTheEncodingOfItsInstruction : Prop :=
  ∀ (f : Format) (bytes : List Byte) (i : Instr) (rest : List Byte), decode f bytes = .ok (i, rest) →
    WellFormed i = true ∧ formatOf i = f ∧ bytes = encode i ++ rest

/-- A step is exec of the instruction that is asked for; with nothing asked it changes nothing. Rests on 10_state.md
section 1, 30_encoding.md section 5. Log entry 11. Log entry 19. Log entry 2. Log entry 3. -/
def Obligations.StepRunsTheDecodedInstruction : Prop :=
  ∀ s : State,
    (s.req = .idle → step s = .next s) ∧
    (s.req = .broken → step s = .refused .hostActedDuringCommand) ∧
    (s.req = .command → fetch s = some (.cmd, [s.cmd.setWidth 8])) ∧
    (∀ (f : Format) (w : Half), s.req = .pattern f w → fetch s = some (f, wordBytes f w)) ∧
    ∀ (f : Format) (bytes : List Byte) (i : Instr) (rest : List Byte), fetch s = some (f, bytes) →
      decode f bytes = .ok (i, rest) → step s = exec i { s with req := .idle }

/-- Writing an assigned code to CMD starts that command; an unassigned code is refused. Rests on R80, R11,
30_encoding.md section 5. Log entry 19. Log entry 2. -/
def Obligations.WritingCmdStartsTheCommand : Prop :=
  (∀ (s : State) (i : Instr) (c : BitVec 4), s.req = .idle →
    (c, i) ∈ ([(0x1, .pack16), (0x2, .unpack16), (0x3, .unpack32), (0x4, .nameenc), (0x5, .namedec), (0x6, .hdrenc),
      (0x7, .hdrdec), (0x8, .rcdec), (0x9, .rtdec), (0xA, .qparse), (0xB, .rrparse), (0xC, .encq),
      (0xD, .decmsg)] : List (BitVec 4 × Instr)) →
    step (s.hostWriteCmd c) = exec i { s with cmd := c, req := .idle }) ∧
  (∀ (s : State) (c : BitVec 4), s.req = .idle → c ∈ ([0x0, 0xE, 0xF] : List (BitVec 4)) →
    step (s.hostWriteCmd c) = .refused (.unassignedCommand c) ∧
    s.hostWriteCmd c = { s with cmd := c, req := .command }) ∧
  ∀ s : State,
    exec .cmdUnassigned0 s = .refused (.unassignedCommand 0x0) ∧
    exec .cmdUnassignedE s = .refused (.unassignedCommand 0xE) ∧
    exec .cmdUnassignedF s = .refused (.unassignedCommand 0xF)

/-- The state after reset. Rests on R31, R200. Log entry 12. Log entry 2. -/
def Obligations.ResetHoldsTheSpecsValues : Prop :=
  State.reset.cmd = 0 ∧ State.reset.err = 0 ∧ State.reset.stage = 0 ∧ State.reset.ilen = 0 ∧ State.reset.hlen = 0 ∧
  State.reset.olen = some 0 ∧ State.reset.nrec = some 0 ∧ State.reset.cur = some 0 ∧
  State.reset.einfo0 = none ∧ State.reset.einfo1 = none ∧ State.reset.txid = none ∧ State.reset.arg = none ∧
  State.reset.hf = ⟨none, none, none, none, none, none, none, none⟩ ∧ State.reset.val = none ∧
  State.reset.msg = ⟨none, none, none, none, none, none⟩ ∧ State.reset.qst = ⟨none, none, none⟩ ∧
  State.reset.name = none ∧ State.reset.recs = [] ∧
  (∀ a, State.reset.ibuf.read a = none ∧ State.reset.obuf.read a = none ∧ State.reset.hbuf.read a = none) ∧
  (∀ s : State, s.hostReset = State.reset) ∧ step State.reset = .next State.reset

/-- The reset state meets the invariant every step keeps. Rests on R31, 10_state.md section 7. -/
def Obligations.ResetMeetsTheBlockInvariant : Prop :=
  BlockInv State.reset

/-- Every step keeps the block's invariant. Rests on R14, R15, R16, R17, R22, R23, R24, R25, R26, R27, R28, R156. -/
def Obligations.EveryStepKeepsTheBlockInvariant : Prop :=
  ∀ s t : State, BlockInv s → step s = .next t → BlockInv t

/-- What each command does on the reset state (R201). Rests on R201, R31, R29. Log entry 6. -/
def Obligations.CommandsOnTheResetState : Prop :=
  exec .nameenc State.reset = .next { State.reset with obuf := [(0, 0x00)], olen := some 1 } ∧
  (∀ i ∈ ([.unpack16, .unpack32, .namedec, .qparse, .rrparse] : List Instr),
    ∃ t, exec i State.reset = .next t ∧ reports t (some .unexpectedEndOfInput)) ∧
  (∀ i ∈ ([.pack16, .hdrdec, .rcdec, .rtdec, .encq] : List Instr),
    exec i State.reset = .refused (.noValue .arg)) ∧
  exec .hdrenc State.reset = .refused (.noValue .hfQr) ∧
  exec .decmsg State.reset = .refused (.noValue .txid)

/-- Memory frame: IBUF and HBUF never change, OBUF holds a command's whole result and nothing else. Rests on R45, R26,
R27, R28, R15, R18, R19. -/
def Obligations.InputBuffersAreNeverWrittenAndOutputIsWhole : Prop :=
  ∀ (i : Instr) (s t : State), exec i s = .next t →
    ((∀ a, t.ibuf.read a = s.ibuf.read a) ∧ (∀ a, t.hbuf.read a = s.hbuf.read a) ∧ t.ilen = s.ilen ∧ t.hlen = s.hlen ∧
      t.cmd = s.cmd ∧ t.txid = s.txid ∧ t.arg = s.arg ∧ t.req = s.req) ∧
    (i ∉ ([.pack16, .nameenc, .encq] : List Instr) → (∀ a, t.obuf.read a = s.obuf.read a) ∧ t.olen = s.olen) ∧
    (i ∈ ([.pack16, .nameenc, .encq] : List Instr) →
      (t.err = 0 → ∃ n : Half, t.olen = some n ∧ n.toNat ≤ 271 ∧ ∀ a, t.obuf.read a ≠ none ↔ a < n.toNat) ∧
      (t.err ≠ 0 → t.olen = none ∧ ∀ a, t.obuf.read a = none))

/-- Register frame: nothing but the declared outputs of rule R30 changes. Rests on R30, R17. Log entry 3. -/
def Obligations.OnlyDeclaredOutputsChange : Prop :=
  ∀ (i : Instr) (s t : State), exec i s = .next t → onlyOutputsChanged (outputGroup i) s t

/-- Two states that agree on a command's declared inputs give the same outcome (R12). Rests on R12, R13, R30. Log
entry 3. -/
def Obligations.OutcomesDependOnDeclaredInputsOnly : Prop :=
  ∀ (i : Instr) (s t : State), inputsAgree (inputGroup i) s t →
    outcomesAgree (outputGroup i) (exec i s) (exec i t)

/-- Repeating a command, CUR restored, gives the same state again (R13). Rests on R13. -/
def Obligations.RepeatingACommandGivesTheSameResult : Prop :=
  (∀ (i : Instr) (s t : State), exec i s = .next t → exec i { t with cur := s.cur } = .next t) ∧
  ∀ s t : State, exec .decmsg s = .next t → exec .decmsg t = .next t

/-- ERR, EINFO0 and EINFO1 after every instruction, and which instruction raises which error (R170). Rests on R170,
R17. Log entry 3. -/
def Obligations.ReportsFollowTheErrorTable : Prop :=
  (∀ (i : Instr) (s t : State), exec i s = .next t →
    reports t none ∨ ∃ e, reports t (some e) ∧ mayRaise i e) ∧
  (errorCode .unexpectedEndOfInput = 1 ∧ errorCode .labelTooLong = 2 ∧ errorCode .nameTooLong = 3 ∧
    errorCode .invalidLabelLength = 4) ∧
  (∀ v, errorCode (.unknownRecordType v) = 5 ∧ errorCode (.unknownResponseCode v) = 6 ∧
    errorInfo0 (.unknownRecordType v) = some v ∧ errorInfo0 (.unknownResponseCode v) = some v ∧
    errorInfo1 (.unknownRecordType v) = none ∧ errorInfo1 (.unknownResponseCode v) = none) ∧
  (∀ v w, errorCode (.transactionIdMismatch v w) = 7 ∧ errorInfo0 (.transactionIdMismatch v w) = some v ∧
    errorInfo1 (.transactionIdMismatch v w) = some w) ∧
  (∀ e ∈ ([.unexpectedEndOfInput, .labelTooLong, .nameTooLong, .invalidLabelLength] : List CodecError),
    errorInfo0 e = none ∧ errorInfo1 e = none)

/-- Taking an error: what it writes, what it clears, what it leaves (R180). Rests on R180, R170, R30. Log entry 3. -/
def Obligations.AFailedCommandLeavesNoResult : Prop :=
  ∀ (i : Instr) (s t : State), exec i s = .next t → t.err ≠ 0 →
    (∃ e, reports t (some e) ∧ mayRaise i e) ∧ outputsHoldNoValue (outputGroup i) t ∧
    onlyOutputsChanged (outputGroup i) s t ∧
    (i = .decmsg → t.stage ∈ ([1, 2, 3, 4] : List (BitVec 3)))

/-- With its inputs written, every instruction ends in success or in one of the seven errors (R210). Rests on R210,
R204, R207. Log entry 3. -/
def Obligations.ReadyInputsAlwaysReachAnEnd : Prop :=
  ∀ (i : Instr) (s : State), i ∉ ([.cmdUnassigned0, .cmdUnassignedE, .cmdUnassignedF] : List Instr) →
    inputsReady (inputGroup i) s →
    ∃ t, exec i s = .next t ∧ (reports t none ∨ ∃ e, reports t (some e) ∧ mayRaise i e)

/-- A command with an operand register, a hostname byte or an integer field without a value is refused (R29). Rests on
R29, R30. Log entry 5. Log entry 6. -/
def Obligations.InputsWithoutAValueAreRefused : Prop :=
  (∀ s : State, s.arg = none → ∀ i ∈ ([.pack16, .hdrdec, .rcdec, .rtdec] : List Instr),
    exec i s = .refused (.noValue .arg)) ∧
  (∀ s : State, s.cur = none → s.ilen.toNat ≤ 65527 →
    ∀ i ∈ ([.unpack16, .unpack32, .namedec, .qparse, .rrparse] : List Instr), exec i s = .refused (.noValue .cur)) ∧
  (∀ s : State, s.txid = none → s.ilen.toNat ≤ 65527 → exec .decmsg s = .refused (.noValue .txid)) ∧
  (∀ s : State, (s.hf.qr = none ∨ s.hf.opcode = none ∨ s.hf.aa = none ∨ s.hf.tc = none ∨ s.hf.rd = none ∨
      s.hf.ra = none ∨ s.hf.rcode = none) →
    ∃ l ∈ ([.hfQr, .hfOpcode, .hfAa, .hfTc, .hfRd, .hfRa, .hfRcode] : List Loc),
      exec .hdrenc s = .refused (.noValue l)) ∧
  (∀ (s : State) (h : List Byte), s.hlen.toNat ≤ Config.hmax → h.length = s.hlen.toNat → s.hbuf.holds 0 h →
    (s.arg = none → exec .encq s = .refused (.noValue .arg)) ∧
    (s.arg ≠ none → s.txid = none → exec .encq s = .refused (.noValue .txid))) ∧
  (∀ (s : State) (a : Nat), s.hlen.toNat ≤ Config.hmax → a < s.hlen.toNat → s.hbuf.read a = none →
    ∀ i ∈ ([.nameenc, .encq] : List Instr), ∃ b, exec i s = .refused (.noValue (.byteOf .hbuf b)) ∧ b ≤ a) ∧
  (∀ (s : State) (c : Half) (k : Nat), s.ilen.toNat ≤ 65527 → s.cur = some c → s.ibuf.read (c.toNat + k) = none →
    (k < 2 → c.toNat + 2 ≤ s.ilen.toNat → ∃ b, exec .unpack16 s = .refused (.noValue (.byteOf .ibuf b))) ∧
    (k < 4 → c.toNat + 4 ≤ s.ilen.toNat → ∃ b, exec .unpack32 s = .refused (.noValue (.byteOf .ibuf b))))

/-- ILEN above 65527 and HLEN above HMAX are refused. Rests on R15, R28, 92_eei_decisions.md D14. Log entry 6. -/
def Obligations.OversizeLengthsAreRefused : Prop :=
  (∀ s : State, 65527 < s.ilen.toNat →
    ∀ i ∈ ([.unpack16, .unpack32, .namedec, .qparse, .rrparse, .decmsg] : List Instr),
      exec i s = .refused .ilenTooLong) ∧
  (∀ s : State, Config.hmax < s.hlen.toNat →
    ∀ i ∈ ([.nameenc, .encq] : List Instr), exec i s = .refused .hlenTooLong) ∧
  253 ≤ Config.hmax

/-- 16-bit pack and unpack are inverse bijections, 32-bit unpack is a bijection (R96). Formalises R96. -/
def Obligations.IntegerPackAndUnpackAreInverse : Prop :=
  (∀ v : Half, ∃ b0 b1, be16 v = [b0, b1] ∧ unbe16 b0 b1 = v) ∧
  (∀ b0 b1 : Byte, be16 (unbe16 b0 b1) = [b0, b1]) ∧
  (∀ b0 b1 b2 b3 c0 c1 c2 c3 : Byte, unbe32 b0 b1 b2 b3 = unbe32 c0 c1 c2 c3 →
    b0 = c0 ∧ b1 = c1 ∧ b2 = c2 ∧ b3 = c3) ∧
  ∀ v : Word, ∃ b0 b1 b2 b3, unbe32 b0 b1 b2 b3 = v

/-- PACK16 writes ARG's bytes, most significant first (R93). Formalises R93. -/
def Obligations.Pack16WritesTheTwoBytes : Prop :=
  decodeCmd 0x1 = .pack16 ∧
  ∀ (s : State) (v : Half), s.arg = some v →
    exec .pack16 s = .next { s with
      obuf := [(0, v.extractLsb' 8 8), (1, v.extractLsb' 0 8)], olen := some 2, err := 0, einfo0 := none, einfo1 := none }

/-- UNPACK16: the value and the cursor, or UnexpectedEndOfInput (R94). Rests on R94, R91, R46, R47. Log entry 5. -/
def Obligations.Unpack16ReadsTheFieldAtTheCursor : Prop :=
  decodeCmd 0x2 = .unpack16 ∧
  ∀ (s : State) (c : Half), s.ilen.toNat ≤ 65527 → s.cur = some c →
    (∀ b0 b1, c.toNat + 2 ≤ s.ilen.toNat → s.ibuf.read c.toNat = some b0 → s.ibuf.read (c.toNat + 1) = some b1 →
      exec .unpack16 s = .next { s with
        val := some ((unbe16 b0 b1).setWidth 32), cur := some (c + 2), err := 0, einfo0 := none, einfo1 := none }) ∧
    (s.ilen.toNat < c.toNat + 2 →
      exec .unpack16 s = .next { s with val := none, cur := none, err := 1, einfo0 := none, einfo1 := none })

/-- UNPACK32: the value and the cursor, or UnexpectedEndOfInput (R95). Rests on R95, R92, R46, R47. Log entry 5. -/
def Obligations.Unpack32ReadsTheFieldAtTheCursor : Prop :=
  decodeCmd 0x3 = .unpack32 ∧
  ∀ (s : State) (c : Half), s.ilen.toNat ≤ 65527 → s.cur = some c →
    (∀ b0 b1 b2 b3, c.toNat + 4 ≤ s.ilen.toNat → s.ibuf.read c.toNat = some b0 →
      s.ibuf.read (c.toNat + 1) = some b1 → s.ibuf.read (c.toNat + 2) = some b2 →
      s.ibuf.read (c.toNat + 3) = some b3 →
      exec .unpack32 s = .next { s with val := some (unbe32 b0 b1 b2 b3), cur := some (c + 4), err := 0, einfo0 := none, einfo1 := none }) ∧
    (s.ilen.toNat < c.toNat + 4 →
      exec .unpack32 s = .next { s with val := none, cur := none, err := 1, einfo0 := none, einfo1 := none })

/-- NAMEENC: the encoded name, LabelTooLong, or NameTooLong (R101). Formalises R101. -/
def Obligations.NameencWritesTheWireName : Prop :=
  decodeCmd 0x4 = .nameenc ∧
  ∀ (s : State) (h : List Byte), s.hlen.toNat ≤ Config.hmax → h.length = s.hlen.toNat → s.hbuf.holds 0 h →
    ((∀ l ∈ hostLabels h, l.length ≤ 63) → (wireName (hostLabels h)).length ≤ 255 →
      exec .nameenc s = .next { s with
        obuf := Memory.ofBytesAt 0 (wireName (hostLabels h)),
        olen := some (BitVec.ofNat 16 (wireName (hostLabels h)).length), err := 0, einfo0 := none, einfo1 := none }) ∧
    ((∃ l ∈ hostLabels h, 63 < l.length) →
      exec .nameenc s = .next { s with obuf := [], olen := none, err := 2, einfo0 := none, einfo1 := none }) ∧
    ((∀ l ∈ hostLabels h, l.length ≤ 63) → 255 < (wireName (hostLabels h)).length →
      exec .nameenc s = .next { s with obuf := [], olen := none, err := 3, einfo0 := none, einfo1 := none })

/-- Consequences of the encoding rule: dots, terminator, length, acceptance (R102). Formalises R102. -/
def Obligations.EncodedNamesHaveTheirShape : Prop :=
  (∀ a b : List Byte, nameEncode (a ++ [dot, dot] ++ b) = nameEncode (a ++ [dot] ++ b) ∧
    nameEncode (dot :: b) = nameEncode b ∧ nameEncode (a ++ [dot]) = nameEncode a) ∧
  (∀ n, nameEncode (List.replicate n dot) = .ok [0x00]) ∧
  (∀ h out, nameEncode h = .ok out →
    out = wireName (hostLabels h) ∧ legalName (hostLabels h) ∧ out.getLast? = some 0x00 ∧
    out.length = 1 + ((hostLabels h).map fun l => 1 + l.length).sum ∧ 1 ≤ out.length ∧ out.length ≤ 255) ∧
  (∀ h : List Byte, h ≠ [] → [] ∉ splitDots h →
    (∀ out, nameEncode h = .ok out → out.length = h.length + 2) ∧
    ((∃ out, nameEncode h = .ok out) ↔ (∀ l ∈ splitDots h, l.length ≤ 63) ∧ h.length ≤ 253)) ∧
  nameEncode [0x65, 0x78, 0x61, 0x6D, 0x70, 0x6C, 0x65, 0x2E, 0x63, 0x6F, 0x6D] =
    .ok [0x07, 0x65, 0x78, 0x61, 0x6D, 0x70, 0x6C, 0x65, 0x03, 0x63, 0x6F, 0x6D, 0x00]

/-- NAMEDEC succeeds exactly on encoded names, of any total length. Rests on R103, R104, R105, R63. Log entry 5. -/
def Obligations.NamedecAcceptsExactlyTheWireNames : Prop :=
  decodeCmd 0x5 = .namedec ∧
  ∀ (s : State) (c : Half) (ls : List Label), s.ilen.toNat ≤ 65527 → s.cur = some c →
    (legalName ls → s.ibuf.holds c.toNat (wireName ls) → c.toNat + (wireName ls).length ≤ s.ilen.toNat →
      exec .namedec s = .next { s with
        name := some ls, cur := some (toCur (c.toNat + (wireName ls).length)), err := 0, einfo0 := none, einfo1 := none }) ∧
    (∀ t, exec .namedec s = .next t → t.err = 0 → t.name = some ls →
      legalName ls ∧ s.ibuf.holds c.toNat (wireName ls) ∧ c.toNat + (wireName ls).length ≤ s.ilen.toNat)

/-- NAMEDEC: where it raises UnexpectedEndOfInput and InvalidLabelLength. Rests on R103, R104, R64, R178. Log entry 5.
-/
def Obligations.NamedecRaisesAtTheFirstBadOctet : Prop :=
  ∀ (s : State) (c : Half), s.ilen.toNat ≤ 65527 → s.cur = some c →
    (s.ilen.toNat < c.toNat →
      exec .namedec s = .next { s with name := none, cur := none, err := 1, einfo0 := none, einfo1 := none }) ∧
    ∀ (ls : List Label) (p : Nat), legalName ls → s.ibuf.holds c.toNat (wireLabels ls) →
      p = c.toNat + (wireLabels ls).length →
      (p = s.ilen.toNat →
        exec .namedec s = .next { s with name := none, cur := none, err := 1, einfo0 := none, einfo1 := none }) ∧
      (∀ n : Byte, p < s.ilen.toNat → s.ibuf.read p = some n → 1 ≤ n.toNat → n.toNat ≤ 63 →
        s.ilen.toNat < p + 1 + n.toNat →
        exec .namedec s = .next { s with name := none, cur := none, err := 1, einfo0 := none, einfo1 := none }) ∧
      (∀ n : Byte, p < s.ilen.toNat → s.ibuf.read p = some n → 64 ≤ n.toNat →
        exec .namedec s = .next { s with name := none, cur := none, err := 4, einfo0 := none, einfo1 := none })

/-- Round trip of the name codec in both directions (R106). Rests on R106. Log entry 16. Log entry 19. -/
def Obligations.EncodedNamesDecodeBack : Prop :=
  (∀ (s t : State) (h : List Byte), s.req = .idle → s.hlen.toNat ≤ Config.hmax → h.length = s.hlen.toNat →
    s.hbuf.holds 0 h → exec .nameenc s = .next t → t.err = 0 →
    ∃ l v, t.hostLoadMessage t.obuf.bytes = .next l ∧ exec .namedec (l.hostWriteCur 0) = .next v ∧ v.err = 0 ∧
      v.name = some (hostLabels h) ∧ v.cur = some v.ilen ∧ v.ilen.toNat = t.obuf.bytes.length ∧
      ([] ∉ splitDots h → v.name = some (splitDots h) ∧ joinDots (splitDots h) = h) ∧ (h = [] → v.name = some [])) ∧
  ∀ (inp : Input) (ls : List Label), nameDecode inp 0 = .ok (ls, inp.len) → inp.len ≤ 255 → (∀ l ∈ ls, dot ∉ l) →
    ∃ w, nameEncode (joinDots ls) = .ok w ∧ w.length = inp.len ∧ inp.buf.holds 0 w

/-- HDRENC builds the flag word from seven fields, Z as 0 (R111). Formalises R111, R110. -/
def Obligations.HdrencPlacesTheFields : Prop :=
  decodeCmd 0x6 = .hdrenc ∧
  ∀ (s : State) (qr : BitVec 1) (opcode : BitVec 4) (aa tc rd ra : BitVec 1) (rcode : BitVec 4),
    s.hf.qr = some qr → s.hf.opcode = some opcode → s.hf.aa = some aa → s.hf.tc = some tc → s.hf.rd = some rd →
    s.hf.ra = some ra → s.hf.rcode = some rcode →
    exec .hdrenc s = .next { s with
      val := some (0#16 ++ qr ++ opcode ++ aa ++ tc ++ rd ++ ra ++ 0#3 ++ rcode), err := 0, einfo0 := none, einfo1 := none }

/-- HDRDEC splits every flag word into its eight fields (R113). Formalises R113, R112. -/
def Obligations.HdrdecSplitsTheWord : Prop :=
  decodeCmd 0x7 = .hdrdec ∧
  (∀ (s : State) (qr : BitVec 1) (opcode : BitVec 4) (aa tc rd ra : BitVec 1) (z : BitVec 3) (rcode : BitVec 4),
    s.arg = some (qr ++ opcode ++ aa ++ tc ++ rd ++ ra ++ z ++ rcode) →
    exec .hdrdec s = .next { s with
      hf := ⟨some qr, some opcode, some aa, some tc, some rd, some ra, some z, some rcode⟩, err := 0, einfo0 := none, einfo1 := none }) ∧
  ∀ w : Half, ∃ (qr : BitVec 1) (opcode : BitVec 4) (aa tc rd ra : BitVec 1) (z : BitVec 3) (rcode : BitVec 4),
    w = qr ++ opcode ++ aa ++ tc ++ rd ++ ra ++ z ++ rcode

/-- Laws of the flag word: encode after decode, decode after encode, the eight fields partition the word (R114).
Formalises R114. -/
def Obligations.HeaderWordsAndFieldsAreInverse : Prop :=
  (∀ w : Half,
    let f := hdrDecode w
    hdrEncode f.qr f.opcode f.aa f.tc f.rd f.ra f.rcode = w &&& 0xFF8F ∧
    (hdrEncode f.qr f.opcode f.aa f.tc f.rd f.ra f.rcode = w ↔ w.extractLsb' 4 3 = 0)) ∧
  (∀ qr opcode aa tc rd ra rcode,
    hdrDecode (hdrEncode qr opcode aa tc rd ra rcode) = ⟨qr, opcode, aa, tc, rd, ra, 0, rcode⟩) ∧
  (∀ w, flagWord (hdrDecode w) = w) ∧ ∀ f, hdrDecode (flagWord f) = f

/-- RCDEC accepts 0 to 5 and raises UnknownResponseCode(ARG) otherwise (R117). Formalises R117. -/
def Obligations.RcdecValidatesResponseCodes : Prop :=
  decodeCmd 0x8 = .rcdec ∧
  ∀ (s : State) (v : Half), s.arg = some v →
    (v.toNat ≤ 5 → exec .rcdec s = .next { s with val := some (v.setWidth 32), err := 0, einfo0 := none, einfo1 := none }) ∧
    (6 ≤ v.toNat → exec .rcdec s = .next { s with val := none, err := 6, einfo0 := some v, einfo1 := none })

/-- RTDEC accepts the eight record types and raises UnknownRecordType(ARG) otherwise (R119). Formalises R119. -/
def Obligations.RtdecValidatesRecordTypes : Prop :=
  decodeCmd 0x9 = .rtdec ∧
  ∀ (s : State) (v : Half), s.arg = some v →
    (v ∈ [1, 2, 5, 6, 11, 12, 15, 16] → exec .rtdec s = .next { s with val := some (v.setWidth 32), err := 0, einfo0 := none, einfo1 := none }) ∧
    (v ∉ [1, 2, 5, 6, 11, 12, 15, 16] → exec .rtdec s = .next { s with val := none, err := 5, einfo0 := some v, einfo1 := none })

/-- QPARSE succeeds exactly on questions of a known type, whatever the class. Rests on R130, R131, R61. Log entry 5.
-/
def Obligations.QparseAcceptsExactlyTheWireQuestions : Prop :=
  decodeCmd 0xA = .qparse ∧
  ∀ (s : State) (c : Half) (q : Question), s.ilen.toNat ≤ 65527 → s.cur = some c →
    (legalQuestion q → s.ibuf.holds c.toNat (wireQuestion q) → c.toNat + (wireQuestion q).length ≤ s.ilen.toNat →
      exec .qparse s = .next { s with
        qst := ⟨some q.name, some q.qtype, some q.qclass⟩,
        cur := some (toCur (c.toNat + (wireQuestion q).length)), err := 0, einfo0 := none, einfo1 := none }) ∧
    (∀ t, exec .qparse s = .next t → t.err = 0 → t.qst = ⟨some q.name, some q.qtype, some q.qclass⟩ →
      legalQuestion q ∧ s.ibuf.holds c.toNat (wireQuestion q) ∧ c.toNat + (wireQuestion q).length ≤ s.ilen.toNat)

/-- QPARSE raises the first error in wire order: name, QTYPE, its value, QCLASS. Rests on R130, R131, R178. Log entry
5. -/
def Obligations.QparseRaisesInWireOrder : Prop :=
  ∀ (s : State) (c : Half), s.ilen.toNat ≤ 65527 → s.cur = some c →
    (∀ t, exec .namedec s = .next t → t.err ≠ 0 →
      exec .qparse s = .next { s with qst := ⟨none, none, none⟩, cur := none, err := t.err, einfo0 := t.einfo0, einfo1 := t.einfo1 }) ∧
    ∀ (ls : List Label) (p : Nat), legalName ls → s.ibuf.holds c.toNat (wireName ls) →
      p = c.toNat + (wireName ls).length → p ≤ s.ilen.toNat →
      (s.ilen.toNat < p + 2 → exec .qparse s = .next { s with qst := ⟨none, none, none⟩, cur := none, err := 1, einfo0 := none, einfo1 := none }) ∧
      ∀ v : Half, p + 2 ≤ s.ilen.toNat → s.ibuf.holds p (be16 v) →
        (¬ knownType v → exec .qparse s = .next { s with qst := ⟨none, none, none⟩, cur := none, err := 5, einfo0 := some v, einfo1 := none }) ∧
        (knownType v → s.ilen.toNat < p + 4 → exec .qparse s = .next { s with qst := ⟨none, none, none⟩, cur := none, err := 1, einfo0 := none, einfo1 := none })

/-- RRPARSE succeeds exactly on records of a known type whose RDATA is whole (R134). Rests on R132, R133, R134, R62.
Log entry 5. -/
def Obligations.RrparseAcceptsExactlyTheWireRecords : Prop :=
  decodeCmd 0xB = .rrparse ∧
  ∀ (s : State) (c : Half), s.ilen.toNat ≤ 65527 → s.cur = some c →
    (∀ r : Record, legalRecord r → s.ibuf.holds c.toNat (wireRecord r) →
      c.toNat + (wireRecord r).length ≤ s.ilen.toNat →
      exec .rrparse s = .next { s with
        recs := [r], nrec := some 1,
        cur := some (toCur (c.toNat + (wireName r.name).length + 10 + r.rdlength.toNat)), err := 0, einfo0 := none, einfo1 := none } ∧
      11 ≤ (wireName r.name).length + 10 + r.rdlength.toNat) ∧
    (∀ t, exec .rrparse s = .next t → t.err = 0 →
      ∃ r, t.recs = [r] ∧ legalRecord r ∧ s.ibuf.holds c.toNat (wireRecord r) ∧
        c.toNat + (wireRecord r).length ≤ s.ilen.toNat)

/-- RRPARSE raises the first error in wire order, and never delivers part of a record. Rests on R132, R133, R134,
R178. Log entry 5. -/
def Obligations.RrparseRaisesInWireOrder : Prop :=
  ∀ (s : State) (c : Half), s.ilen.toNat ≤ 65527 → s.cur = some c →
    (∀ t, exec .namedec s = .next t → t.err ≠ 0 →
      exec .rrparse s = .next { s with recs := [], nrec := none, cur := none, err := t.err, einfo0 := t.einfo0, einfo1 := t.einfo1 }) ∧
    ∀ (ls : List Label) (p : Nat), legalName ls → s.ibuf.holds c.toNat (wireName ls) →
      p = c.toNat + (wireName ls).length → p ≤ s.ilen.toNat →
      (s.ilen.toNat < p + 2 → exec .rrparse s = .next { s with recs := [], nrec := none, cur := none, err := 1, einfo0 := none, einfo1 := none }) ∧
      ∀ v : Half, p + 2 ≤ s.ilen.toNat → s.ibuf.holds p (be16 v) →
        (¬ knownType v → exec .rrparse s = .next { s with recs := [], nrec := none, cur := none, err := 5, einfo0 := some v, einfo1 := none }) ∧
        (knownType v → filledBelow s.ilen.toNat s.ibuf → s.ilen.toNat < p + 10 →
          exec .rrparse s = .next { s with recs := [], nrec := none, cur := none, err := 1, einfo0 := none, einfo1 := none }) ∧
        (knownType v → filledBelow s.ilen.toNat s.ibuf → p + 10 ≤ s.ilen.toNat → ∀ n : Half,
          s.ibuf.holds (p + 8) (be16 n) → s.ilen.toNat < p + 10 + n.toNat →
          exec .rrparse s = .next { s with recs := [], nrec := none, cur := none, err := 1, einfo0 := none, einfo1 := none })

/-- ENCQ: the query's bytes, or the hostname's error before the type's (R141). Formalises R141, R140. -/
def Obligations.EncqBuildsTheQuery : Prop :=
  decodeCmd 0xC = .encq ∧
  ∀ (s : State) (h : List Byte) (v id : Half), s.hlen.toNat ≤ Config.hmax → h.length = s.hlen.toNat →
    s.hbuf.holds 0 h → s.arg = some v → s.txid = some id →
    ((∀ l ∈ hostLabels h, l.length ≤ 63) → (wireName (hostLabels h)).length ≤ 255 → knownType v →
      exec .encq s = .next { s with
        obuf := Memory.ofBytesAt 0 (be16 id ++ [0x01, 0x00, 0x00, 0x01, 0x00, 0x00, 0x00, 0x00, 0x00, 0x00] ++
          wireName (hostLabels h) ++ be16 v ++ [0x00, 0x01]),
        olen := some (BitVec.ofNat 16 (12 + (wireName (hostLabels h)).length + 4)), err := 0, einfo0 := none, einfo1 := none }) ∧
    ((∃ l ∈ hostLabels h, 63 < l.length) →
      exec .encq s = .next { s with obuf := [], olen := none, err := 2, einfo0 := none, einfo1 := none }) ∧
    ((∀ l ∈ hostLabels h, l.length ≤ 63) → 255 < (wireName (hostLabels h)).length →
      exec .encq s = .next { s with obuf := [], olen := none, err := 3, einfo0 := none, einfo1 := none }) ∧
    ((∀ l ∈ hostLabels h, l.length ≤ 63) → (wireName (hostLabels h)).length ≤ 255 → ¬ knownType v →
      exec .encq s = .next { s with obuf := [], olen := none, err := 5, einfo0 := some v, einfo1 := none })

/-- Properties of a query: its length, its fixed bytes, and what each part depends on. Rests on R142, R140. -/
def Obligations.QueryBytesDependOnTheirOperands : Prop :=
  ∀ (h out : List Byte) (v id : Half), encodeQuery h v id = .ok out →
    (∃ name, nameEncode h = .ok name ∧ out.length = 12 + name.length + 4) ∧
    17 ≤ out.length ∧ out.length ≤ 271 ∧
    (out.drop 2).take 10 = [0x01, 0x00, 0x00, 0x01, 0x00, 0x00, 0x00, 0x00, 0x00, 0x00] ∧
    out.drop (out.length - 2) = [0x00, 0x01] ∧
    (∀ id', encodeQuery h v id' = .ok (be16 id' ++ out.drop 2)) ∧
    (∀ v', knownType v' → encodeQuery h v' id = .ok (out.take (out.length - 4) ++ be16 v' ++ [0x00, 0x01]))

/-- DECMSG succeeds exactly on the messages the wire format allows, and delivers them whole. Rests on R150, R151,
R154, R155, R156, R73. Log entry 5. Log entry 8. -/
def Obligations.DecmsgAcceptsExactlyTheWireMessages : Prop :=
  decodeCmd 0xD = .decmsg ∧
  ∀ (s : State) (x : Half), s.ilen.toNat ≤ 65527 → s.txid = some x →
    (∀ (h : MessageHeader) (q : Question) (rs : List Record), h.id = x → (h.flags.extractLsb' 0 4).toNat ≤ 5 →
      rs.length = h.ancount.toNat + h.nscount.toNat + h.arcount.toNat → legalQuestion q →
      (∀ r ∈ rs, legalRecord r) → s.ibuf.holds 0 (wireMessage h q rs) →
      (wireMessage h q rs).length ≤ s.ilen.toNat → exec .decmsg s = .next (decodedState s h q rs)) ∧
    (∀ t, exec .decmsg s = .next t → t.err = 0 → ∃ (h : MessageHeader) (q : Question) (rs : List Record),
      t = decodedState s h q rs ∧ h.id = x ∧ (h.flags.extractLsb' 0 4).toNat ≤ 5 ∧
      rs.length = h.ancount.toNat + h.nscount.toNat + h.arcount.toNat ∧ legalQuestion q ∧
      (∀ r ∈ rs, legalRecord r) ∧ s.ibuf.holds 0 (wireMessage h q rs) ∧
      (wireMessage h q rs).length ≤ s.ilen.toNat)

/-- Stage TransactionIdCheck: end of input, then mismatch, before any other field (R152). Rests on R152, R158, R171,
R177. Log entry 5. -/
def Obligations.DecmsgChecksTheTransactionIdFirst : Prop :=
  ∀ (s : State) (x : Half), s.ilen.toNat ≤ 65527 → s.txid = some x →
    (s.ilen.toNat < 2 →
      exec .decmsg s = .next (undecodedState s .transactionIdCheck .unexpectedEndOfInput)) ∧
    (∀ id : Half, 2 ≤ s.ilen.toNat → s.ibuf.holds 0 (be16 id) → id ≠ x →
      exec .decmsg s = .next (undecodedState s .transactionIdCheck (.transactionIdMismatch x id)))

/-- Stage Header: flag word, response code, then the counts. Rests on R153, R158, R179. Log entry 5. -/
def Obligations.DecmsgChecksTheResponseCodeBeforeTheCounts : Prop :=
  ∀ (s : State) (x : Half), s.ilen.toNat ≤ 65527 → s.txid = some x → 2 ≤ s.ilen.toNat → s.ibuf.holds 0 (be16 x) →
    (s.ilen.toNat < 4 → exec .decmsg s = .next (undecodedState s .header .unexpectedEndOfInput)) ∧
    ∀ w : Half, 4 ≤ s.ilen.toNat → s.ibuf.holds 2 (be16 w) →
      (6 ≤ (w.extractLsb' 0 4).toNat →
        exec .decmsg s =
          .next (undecodedState s .header (.unknownResponseCode ((w.extractLsb' 0 4).setWidth 16)))) ∧
      ((w.extractLsb' 0 4).toNat ≤ 5 → s.ilen.toNat < 12 → filledBelow s.ilen.toNat s.ibuf →
        exec .decmsg s = .next (undecodedState s .header .unexpectedEndOfInput))

/-- STAGE after DECMSG: Done, or the stage whose error was raised (R158). Rests on R158, R16, R154, R155, R156. Log
entry 5. Log entry 8. -/
def Obligations.StageNamesTheStageThatFailed : Prop :=
  (stageCode .start = 0 ∧ stageCode .transactionIdCheck = 1 ∧ stageCode .header = 2 ∧ stageCode .question = 3 ∧
    stageCode .records = 4 ∧ stageCode .done = 5) ∧
  (∀ s t : State, exec .decmsg s = .next t →
    (t.err = 0 ∧ t.stage = 5) ∨
    (t.stage = 1 ∧ (t.err = 1 ∨ t.err = 7)) ∨
    (t.stage = 2 ∧ (t.err = 1 ∨ t.err = 6)) ∨
    ((t.stage = 3 ∨ t.stage = 4) ∧ (t.err = 1 ∨ t.err = 4 ∨ t.err = 5))) ∧
  (∀ (s : State) (h : MessageHeader), s.ilen.toNat ≤ 65527 → s.txid = some h.id →
    (h.flags.extractLsb' 0 4).toNat ≤ 5 → s.ibuf.holds 0 (wireHeader h) → 12 ≤ s.ilen.toNat →
    (∀ e : CodecError, questionParse ⟨s.ibuf, s.ilen.toNat⟩ 12 = .error (.raised e) →
      exec .decmsg s = .next (undecodedState s .question e) ∧ (undecodedState s .question e).stage = 3) ∧
    (∀ (q : Question) (rs : List Record) (e : CodecError), legalQuestion q → (∀ r ∈ rs, legalRecord r) →
      s.ibuf.holds 0 (wireMessage h q rs) → (wireMessage h q rs).length ≤ s.ilen.toNat →
      rs.length < h.ancount.toNat + h.nscount.toNat + h.arcount.toNat →
      rrParse ⟨s.ibuf, s.ilen.toNat⟩ (wireMessage h q rs).length = .error (.raised e) →
      exec .decmsg s = .next (undecodedState s .records e) ∧ (undecodedState s .records e).stage = 4)) ∧
  ∀ (i : Instr) (s t : State), i ≠ .decmsg → exec i s = .next t → t.stage = s.stage

/-- Properties of a successful DECMSG (R160 a to g). Rests on R160, R5. -/
def Obligations.DecodedMessagesHaveTheirProperties : Prop :=
  ∀ s t : State, exec .decmsg s = .next t → t.err = 0 →
    ∃ (w an ns ar ty c : Half) (ls : List Label),
      t.msg.id = s.txid ∧ t.msg.flags = some w ∧
      (t.hf.qr = some (w.extractLsb' 15 1) ∧ t.hf.opcode = some (w.extractLsb' 11 4) ∧
        t.hf.aa = some (w.extractLsb' 10 1) ∧ t.hf.tc = some (w.extractLsb' 9 1) ∧
        t.hf.rd = some (w.extractLsb' 8 1) ∧ t.hf.ra = some (w.extractLsb' 7 1) ∧
        t.hf.z = some (w.extractLsb' 4 3) ∧ t.hf.rcode = some (w.extractLsb' 0 4)) ∧
      (w.extractLsb' 0 4).toNat ≤ 5 ∧
      t.qst.qtype = some ty ∧ knownType ty ∧ (∀ r ∈ t.recs, knownType r.rtype) ∧
      t.msg.ancount = some an ∧ t.msg.nscount = some ns ∧ t.msg.arcount = some ar ∧
      t.nrec = some (an.toNat + ns.toNat + ar.toNat) ∧ t.recs.length = an.toNat + ns.toNat + ar.toNat ∧
      t.cur = some c ∧ 17 + 11 * t.recs.length ≤ c.toNat ∧ c.toNat ≤ s.ilen.toNat ∧
      t.qst.name = some ls ∧ legalName ls ∧ (∀ r ∈ t.recs, legalName r.name) ∧
      (∀ r ∈ t.recs, r.rdata.length = r.rdlength.toNat) ∧ t.recs.length ≤ 5955

/-- DECMSG ignores every byte at or behind its final cursor, and ILEN beyond it. Rests on R157, R160. Log entry 5. -/
def Obligations.BytesBehindTheMessageDoNotMatter : Prop :=
  ∀ (s t : State) (c n : Half) (m : Memory), exec .decmsg s = .next t → t.err = 0 → t.cur = some c →
    agreeBelow c.toNat s.ibuf m → c.toNat ≤ n.toNat → n.toNat ≤ 65527 →
    exec .decmsg { s with ibuf := m, ilen := n } = .next { t with ibuf := m, ilen := n }

/-- Every packet ENCQ emits decodes with the same TXID to the question that was asked. Rests on R142, R140, R150. Log
entry 16. Log entry 19. -/
def Obligations.QueriesLoopBack : Prop :=
  ∀ (s t : State) (h : List Byte) (v id : Half), s.req = .idle → s.hlen.toNat ≤ Config.hmax → h.length = s.hlen.toNat →
    s.hbuf.holds 0 h → s.arg = some v → s.txid = some id → exec .encq s = .next t → t.err = 0 →
    ∃ l u, t.hostLoadMessage t.obuf.bytes = .next l ∧ exec .decmsg l = .next u ∧ u.err = 0 ∧ u.stage = 5 ∧
      u.msg = ⟨some id, some 0x0100, some 1, some 0, some 0, some 0⟩ ∧
      u.qst = ⟨some (hostLabels h), some v, some 1⟩ ∧ u.nrec = some 0 ∧ u.recs = [] ∧ u.cur = some u.ilen ∧
      u.ilen.toNat = t.obuf.bytes.length

/-- What a successful QPARSE or RRPARSE gives, its leaf commands give one by one. Rests on R83, R130, R132. Log entry
19. Log entry 5. -/
def Obligations.SuccessfulParsersRunTheirLeafCommands : Prop :=
  (∀ s t : State, s.req = .idle → exec .qparse s = .next t → t.err = 0 →
    ∃ (s1 s2 s3 s4 : State) (v w : Half),
      exec .namedec s = .next s1 ∧ s1.err = 0 ∧ s1.name = t.qst.name ∧
      exec .unpack16 s1 = .next s2 ∧ s2.err = 0 ∧ s2.val = some (v.setWidth 32) ∧ t.qst.qtype = some v ∧
      exec .rtdec (s2.hostWriteArg v) = .next s3 ∧ s3.err = 0 ∧ s3.val = some (v.setWidth 32) ∧
      exec .unpack16 s3 = .next s4 ∧ s4.err = 0 ∧ s4.val = some (w.setWidth 32) ∧ t.qst.qclass = some w ∧
      s4.cur = t.cur) ∧
  ∀ s t : State, s.req = .idle → exec .rrparse s = .next t → t.err = 0 →
    ∃ (r : Record) (s1 s2 s3 s4 s5 s6 : State) (p : Half),
      t.recs = [r] ∧
      exec .namedec s = .next s1 ∧ s1.err = 0 ∧ s1.name = some r.name ∧
      exec .unpack16 s1 = .next s2 ∧ s2.err = 0 ∧ s2.val = some (r.rtype.setWidth 32) ∧
      exec .rtdec (s2.hostWriteArg r.rtype) = .next s3 ∧ s3.err = 0 ∧
      exec .unpack16 s3 = .next s4 ∧ s4.err = 0 ∧ s4.val = some (r.rclass.setWidth 32) ∧
      exec .unpack32 s4 = .next s5 ∧ s5.err = 0 ∧ s5.val = some r.ttl ∧
      exec .unpack16 s5 = .next s6 ∧ s6.err = 0 ∧ s6.val = some (r.rdlength.setWidth 32) ∧
      s6.cur = some p ∧ s.ibuf.holds p.toNat r.rdata ∧ t.cur = some (toCur (p.toNat + r.rdata.length))

/-- A successful command leaves CUR at or beyond where it started and within ILEN. Rests on R14, R103, R47. -/
def Obligations.TheCursorOnlyMovesForward : Prop :=
  (∀ (i : Instr) (s t : State) (c : Half), i ∈ ([.unpack16, .unpack32, .namedec, .qparse, .rrparse] : List Instr) →
    exec i s = .next t → t.err = 0 → s.cur = some c →
    ∃ c', t.cur = some c' ∧ c.toNat < c'.toNat ∧ c'.toNat ≤ s.ilen.toNat) ∧
  ∀ s t : State, exec .decmsg s = .next t → t.err = 0 →
    ∃ c', t.cur = some c' ∧ 17 ≤ c'.toNat ∧ c'.toNat ≤ s.ilen.toNat

/-- LEN.END and LEN.LABEL presented by themselves. Rests on 30_encoding.md section 1 (rule R64), 41_name_codec.md
section 2. Log entry 3. Log entry 5. -/
def Obligations.LengthOctetsEndOrConsumeALabel : Prop :=
  ∀ (s : State) (c : Half), s.ilen.toNat ≤ 65527 → s.cur = some c →
    exec .lenEnd s = .next { s with name := some [], err := 0, einfo0 := none, einfo1 := none } ∧
    ∀ n : BitVec 6, n ≠ 0 →
      (∀ l : Label, l.length = n.toNat → s.ibuf.holds c.toNat l → c.toNat + n.toNat ≤ s.ilen.toNat →
        exec (.lenLabel n) s = .next { s with name := some [l], cur := some (c + n.setWidth 16), err := 0, einfo0 := none, einfo1 := none }) ∧
      (s.ilen.toNat < c.toNat + n.toNat →
        exec (.lenLabel n) s = .next { s with name := none, cur := none, err := 1, einfo0 := none, einfo1 := none })

/-- LEN.RSV01, LEN.RSV10 and LEN.PTR presented by themselves. Rests on 30_encoding.md section 1 (rule R64),
41_name_codec.md section 2. Log entry 3. -/
def Obligations.ReservedLengthOctetsRaise : Prop :=
  ∀ (s : State) (x : BitVec 6), s.ilen.toNat ≤ 65527 → s.cur ≠ none →
    ∀ i ∈ ([.lenRsv01 x, .lenRsv10 x, .lenPtr x] : List Instr),
      exec i s = .next { s with name := none, cur := none, err := 4, einfo0 := none, einfo1 := none }

/-- FLAGS and FLAGS.QUERY presented by themselves. Rests on 30_encoding.md section 1 (rule R65), 42_header_flags.md
section 1 (rule R115). Log entry 3. -/
def Obligations.FlagWordsSplitIntoTheHeaderFields : Prop :=
  (∀ (s : State) (q : BitVec 1) (o : BitVec 4) (a t d r : BitVec 1) (z : BitVec 3) (c : BitVec 4),
    exec (.flags q o a t d r z c) s = .next { s with
      hf := ⟨some q, some o, some a, some t, some d, some r, some z, some c⟩, err := 0, einfo0 := none, einfo1 := none }) ∧
  (∀ s : State, exec .flagsQuery s = .next { s with
    hf := ⟨some 0, some 0, some 0, some 0, some 1, some 0, some 0, some 0⟩, err := 0, einfo0 := none, einfo1 := none }) ∧
  encode .flagsQuery = be16 0x0100 ∧ queryWord = 0x0100

/-- OPCODE.STANDARD_QUERY and OPCODE.UNNAMED presented by themselves. Rests on 30_encoding.md section 1 (rule R66).
Log entry 3. -/
def Obligations.OpcodesAreReturnedRaw : Prop :=
  ∀ s : State,
    exec .opcodeStandardQuery s = .next { s with hf := { s.hf with opcode := some 0 }, err := 0, einfo0 := none, einfo1 := none } ∧
    ∀ o : BitVec 4,
      exec (.opcodeUnnamed o) s = .next { s with hf := { s.hf with opcode := some o }, err := 0, einfo0 := none, einfo1 := none }

/-- The seven RCODE rows presented by themselves. Rests on 30_encoding.md section 1 (rule R67), 42_header_flags.md
section 2. Log entry 3. -/
def Obligations.ResponseCodeRowsAreValidated : Prop :=
  ∀ s : State,
    (∀ p ∈ ([(.rcodeNoError, 0), (.rcodeFormatError, 1), (.rcodeServerFailure, 2), (.rcodeNameError, 3),
        (.rcodeNotImplemented, 4), (.rcodeRefused, 5)] : List (Instr × Word)),
      exec p.1 s = .next { s with val := some p.2, err := 0, einfo0 := none, einfo1 := none }) ∧
    ∀ c : BitVec 4, 6 ≤ c.toNat →
      exec (.rcodeUnknown c) s = .next { s with val := none, err := 6, einfo0 := some (c.setWidth 16), einfo1 := none }

/-- The nine RTYPE rows presented by themselves. Rests on 30_encoding.md section 1 (rule R68), 42_header_flags.md
section 3. Log entry 3. -/
def Obligations.RecordTypeRowsAreValidated : Prop :=
  ∀ s : State,
    (∀ p ∈ ([(.rtypeA, 1), (.rtypeNs, 2), (.rtypeCname, 5), (.rtypeSoa, 6), (.rtypeWks, 11), (.rtypePtr, 12),
        (.rtypeMx, 15), (.rtypeTxt, 16)] : List (Instr × Word)),
      exec p.1 s = .next { s with val := some p.2, err := 0, einfo0 := none, einfo1 := none }) ∧
    ∀ v : Half, v ∉ [1, 2, 5, 6, 11, 12, 15, 16] →
      exec (.rtypeUnknown v) s = .next { s with val := none, err := 5, einfo0 := some v, einfo1 := none }

/-- CLASS.IN and CLASS.OTHER presented by themselves. Rests on 30_encoding.md section 1 (rule R69). Log entry 3. -/
def Obligations.ClassesAreStoredRaw : Prop :=
  ∀ s : State,
    exec .classIn s = .next { s with qst := { s.qst with qclass := some 1 }, err := 0, einfo0 := none, einfo1 := none } ∧
    ∀ c : Half, exec (.classOther c) s = .next { s with qst := { s.qst with qclass := some c }, err := 0, einfo0 := none, einfo1 := none }

/-- NAMEDEC is the length octets it meets, run one by one. Rests on 41_name_codec.md section 2 (rule R103),
30_encoding.md section 1 (rule R64). Log entry 3. Log entry 5. -/
def Obligations.NamedecIsItsLengthOctetsOneByOne : Prop :=
  ∀ (s t : State) (c : Half) (n : Byte), s.ilen.toNat ≤ 65527 → s.cur = some c → c.toNat < s.ilen.toNat →
    s.ibuf.read c.toNat = some n → exec (decodeLen n) { s with cur := some (c + 1) } = .next t →
    (t.err ≠ 0 → exec .namedec s = .next t) ∧
    (decodeLen n = .lenEnd → exec .namedec s = .next t) ∧
    (∀ (k : BitVec 6) (l : Label) (u : State), decodeLen n = .lenLabel k → t.err = 0 → t.name = some [l] →
      exec .namedec t = .next u → exec .namedec s = .next { u with name := u.name.map (l :: ·) })

/-- The FLAGS, RCODE and RTYPE rows act as HDRDEC, RCDEC and RTDEC on their word. Rests on 42_header_flags.md section
1, 42_header_flags.md section 2, 42_header_flags.md section 3. Log entry 3. -/
def Obligations.PatternRowsActAsTheirCommands : Prop :=
  (∀ (s t : State) (w : Half), exec .hdrdec { s with arg := some w } = .next t →
    exec (decodeFlags w) s = .next { t with arg := s.arg }) ∧
  (∀ (s t : State) (c : BitVec 4), exec .rcdec { s with arg := some (c.setWidth 16) } = .next t →
    exec (decodeRcode c) s = .next { t with arg := s.arg }) ∧
  ∀ (s t : State) (v : Half), exec .rtdec { s with arg := some v } = .next t →
    exec (decodeRtype v) s = .next { t with arg := s.arg }

/-- A decoding command that reaches a byte of IBUF without a value is refused, naming it (R29). Rests on R29, R103,
R130, R132, R150, R178. Log entry 5. Log entry 8. -/
def Obligations.BytesReachedWithoutAValueAreRefused : Prop :=
  ∀ (s : State) (a : Nat), s.ilen.toNat ≤ 65527 →
    (∀ c : Half, s.cur = some c →
      (∀ ls : List Label, legalName ls → stopsAt s.ibuf s.ilen.toNat a c.toNat (nameFields ls) →
        exec .namedec s = .refused (.noValue (.byteOf .ibuf a))) ∧
      (∀ q : Question, legalQuestion q → stopsAt s.ibuf s.ilen.toNat a c.toNat (questionFields q) →
        exec .qparse s = .refused (.noValue (.byteOf .ibuf a))) ∧
      (∀ r : Record, legalRecord r → stopsAt s.ibuf s.ilen.toNat a c.toNat (recordFields r) →
        exec .rrparse s = .refused (.noValue (.byteOf .ibuf a)))) ∧
    (∀ (h : MessageHeader) (q : Question) (rs : List Record), s.txid = some h.id →
      (h.flags.extractLsb' 0 4).toNat ≤ 5 → legalQuestion q → (∀ r ∈ rs, legalRecord r) →
      rs.length ≤ h.ancount.toNat + h.nscount.toNat + h.arcount.toNat →
      stopsAt s.ibuf s.ilen.toNat a 0 (messageFields h q rs) →
      exec .decmsg s = .refused (.noValue (.byteOf .ibuf a)))

/-- QPARSE and RRPARSE fail with the first leaf command that fails, and succeed when all do. Rests on R83, R130, R132,
R180. Log entry 19. Log entry 5. -/
def Obligations.LeafCommandsMakeUpTheirParsers : Prop :=
  ∀ s s1 : State, s.req = .idle → exec .namedec s = .next s1 →
    (s1.err ≠ 0 → failsAlike .qparse s s1 ∧ failsAlike .rrparse s s1) ∧
    ∀ s2 : State, s1.err = 0 → exec .unpack16 s1 = .next s2 →
    (s2.err ≠ 0 → failsAlike .qparse s s2 ∧ failsAlike .rrparse s s2) ∧
    ∀ (ty : Half) (s3 : State), s2.val = some (ty.setWidth 32) → exec .rtdec (s2.hostWriteArg ty) = .next s3 →
    (s3.err ≠ 0 → failsAlike .qparse s s3 ∧ failsAlike .rrparse s s3) ∧
    ∀ s4 : State, s3.err = 0 → exec .unpack16 s3 = .next s4 →
    (s4.err ≠ 0 → failsAlike .qparse s s4 ∧ failsAlike .rrparse s s4) ∧
    ∀ cl : Half, s4.val = some (cl.setWidth 32) →
    exec .qparse s = .next { s with qst := ⟨s1.name, some ty, some cl⟩, cur := s4.cur, err := 0, einfo0 := none, einfo1 := none } ∧
    ∀ s5 : State, exec .unpack32 s4 = .next s5 →
    (s5.err ≠ 0 → failsAlike .rrparse s s5) ∧
    ∀ (ttl : Word) (s6 : State), s5.val = some ttl → exec .unpack16 s5 = .next s6 →
    (s6.err ≠ 0 → failsAlike .rrparse s s6) ∧
    ∀ (n p : Half) (ls : List Label), s6.val = some (n.setWidth 32) → s6.cur = some p → s1.name = some ls →
      (∀ rdata : List Byte, rdata.length = n.toNat → p.toNat + n.toNat ≤ s.ilen.toNat → s.ibuf.holds p.toNat rdata →
        exec .rrparse s = .next { s with
          recs := [⟨ls, ty, cl, ttl, n, rdata⟩], nrec := some 1, cur := some (p + n), err := 0, einfo0 := none, einfo1 := none }) ∧
      (s.ilen.toNat < p.toNat + n.toNat →
        exec .rrparse s = .next { s with
          recs := [], nrec := none, cur := none, err := 1, einfo0 := none, einfo1 := none })

/-- What the host writes between commands, and that an act while a command waits has no meaning (R54, R206). Rests on
R54, R204, R206, R200, 93_implementation_defined.md U9. Log entry 12. Log entry 16. Log entry 19. -/
def Obligations.HostActsDuringACommandHaveNoMeaning : Prop :=
  ∀ (s : State) (v : Half) (c : BitVec 4) (b : Byte) (a : Nat) (g : HeaderRegs → HeaderRegs) (bytes : List Byte),
    s.hostReset = State.reset ∧
    (s.req = .idle →
      s.hostReadOutput = s ∧ s.hostWriteCmd c = { s with cmd := c, req := .command } ∧
      s.hostWriteIlen v = { s with ilen := v } ∧ s.hostWriteHlen v = { s with hlen := v } ∧
      s.hostWriteCur v = { s with cur := some v } ∧ s.hostWriteTxid v = { s with txid := some v } ∧
      s.hostWriteArg v = { s with arg := some v } ∧ s.hostWriteHeader g = { s with hf := g s.hf } ∧
      (a < 65527 → ∃ m, s.hostWriteIbuf a b = .next { s with ibuf := m } ∧
        ∀ d, m.read d = if d = a then some b else s.ibuf.read d) ∧
      (a < Config.hmax → ∃ m, s.hostWriteHbuf a b = .next { s with hbuf := m } ∧
        ∀ d, m.read d = if d = a then some b else s.hbuf.read d) ∧
      (bytes.length ≤ 65527 → ∃ m n, s.hostLoadMessage bytes = .next { s with ibuf := m, ilen := n } ∧
        n.toNat = bytes.length ∧
        ∀ d, m.read d = if d < bytes.length then bytes[d]? else s.ibuf.read d) ∧
      (bytes.length ≤ Config.hmax → bytes.length < 65536 →
        ∃ m n, s.hostLoadHostname bytes = .next { s with hbuf := m, hlen := n } ∧ n.toNat = bytes.length ∧
        ∀ d, m.read d = if d < bytes.length then bytes[d]? else s.hbuf.read d)) ∧
    (s.req ≠ .idle →
      (∀ t ∈ [s.hostWriteCmd c, s.hostWriteIlen v, s.hostWriteHlen v, s.hostWriteCur v, s.hostWriteTxid v,
          s.hostWriteArg v, s.hostWriteHeader g, s.hostReadOutput],
        step t = .refused .hostActedDuringCommand) ∧
      (a < 65527 → ∃ t, s.hostWriteIbuf a b = .next t ∧ step t = .refused .hostActedDuringCommand) ∧
      (a < Config.hmax → ∃ t, s.hostWriteHbuf a b = .next t ∧ step t = .refused .hostActedDuringCommand) ∧
      (bytes.length ≤ 65527 → ∃ t, s.hostLoadMessage bytes = .next t ∧ step t = .refused .hostActedDuringCommand) ∧
      (bytes.length ≤ Config.hmax → bytes.length < 65536 →
        ∃ t, s.hostLoadHostname bytes = .next t ∧ step t = .refused .hostActedDuringCommand))

/-- A host write or load beyond IBUF or HBUF stops, and what lands keeps the buffers' form. Rests on R26, R28, R40,
R15, 92_eei_decisions.md D14. Log entry 16. -/
def Obligations.TheHostStaysWithinTheBuffers : Prop :=
  ∀ (s : State) (a : Nat) (b : Byte) (bytes : List Byte),
    (65527 ≤ a → s.hostWriteIbuf a b = .fault (.noSuchAddress .ibuf a)) ∧
    (Config.hmax ≤ a → s.hostWriteHbuf a b = .fault (.noSuchAddress .hbuf a)) ∧
    (65527 < bytes.length → s.hostLoadMessage bytes = .refused .ilenTooLong) ∧
    (Config.hmax < bytes.length ∨ 65536 ≤ bytes.length → s.hostLoadHostname bytes = .refused .hlenTooLong) ∧
    (Memory.wf s.ibuf → Memory.wf s.hbuf → buffersWithin s →
      ∀ o ∈ [s.hostWriteIbuf a b, s.hostWriteHbuf a b, s.hostLoadMessage bytes, s.hostLoadHostname bytes],
        ∀ t, o = .next t → Memory.wf t.ibuf ∧ Memory.wf t.hbuf ∧ buffersWithin t)
end

