-- ==== Sys2Proof/Laws/Bytes.lean ====
section
/-! SUPPORT. Big-endian pack and unpack are inverse to each other (R96), and the flag word and its fields (R114). -/

namespace Sys2Proof

theorem be16_length (v : Half) : (be16 v).length = 2 := rfl

theorem unbe16_be16 (v : Half) : unbe16 (v.extractLsb' 8 8) (v.extractLsb' 0 8) = v := by
  ext i hi
  simp [unbe16]
  by_cases h : i < 8
  · simp [h, hi]
  · have : i - 8 < 8 := by omega
    simp [h, hi, this, show 8 + (i - 8) = i by omega]

/-- A byte has no bit at or above 8. -/
theorem byte_high_bit (b : Byte) (j : Nat) (h : 8 ≤ j) : b.getLsbD j = false := BitVec.getLsbD_of_ge b j h

theorem be16_unbe16 (b0 b1 : Byte) : be16 (unbe16 b0 b1) = [b0, b1] := by
  simp only [be16, unbe16, List.cons.injEq, and_true]
  constructor <;> ext i hi
  · simp [show 8 + i < 16 by omega, hi]
  · simp [hi, show i < 16 by omega]

theorem be16_eq_iff (v : Half) (b0 b1 : Byte) : be16 v = [b0, b1] ↔ unbe16 b0 b1 = v := by
  constructor
  · intro h
    simp only [be16, List.cons.injEq, and_true] at h
    rw [← h.1, ← h.2, unbe16_be16]
  · rintro rfl
    exact be16_unbe16 b0 b1

namespace Machine

theorem be32_length (v : Word) : (be32 v).length = 4 := rfl

theorem unbe32_be32 (v : Word) :
    unbe32 (v.extractLsb' 24 8) (v.extractLsb' 16 8) (v.extractLsb' 8 8) (v.extractLsb' 0 8) = v := by
  ext i hi
  simp [unbe32]
  rcases (by omega : i < 8 ∨ (8 ≤ i ∧ i < 16) ∨ (16 ≤ i ∧ i < 24) ∨ 24 ≤ i) with h | h | h | h
  · simp [hi, h, show i < 16 by omega, show i < 24 by omega]
  · simp [hi, h.2, show ¬ i < 8 by omega, show i < 24 by omega, show i - 8 < 8 by omega, show 8 + (i - 8) = i by omega]
  · simp [hi, h.2, show ¬ i < 8 by omega, show ¬ i < 16 by omega, show ¬ (i - 8 < 8) by omega,
      show i - 16 < 8 by omega, show 16 + (i - 16) = i by omega]
  · simp [hi, show ¬ i < 8 by omega, show ¬ i < 16 by omega, show ¬ i < 24 by omega, show ¬ (i - 8 < 8) by omega,
      show ¬ (i - 16 < 8) by omega, show i - 24 < 8 by omega, show 24 + (i - 24) = i by omega]

theorem be32_unbe32 (b0 b1 b2 b3 : Byte) : be32 (unbe32 b0 b1 b2 b3) = [b0, b1, b2, b3] := by
  simp only [be32, unbe32, List.cons.injEq, and_true]
  refine ⟨?_, ?_, ?_, ?_⟩ <;> ext i hi
  · simp [show 24 + i < 32 by omega, byte_high_bit b1 (24 + i - 16) (by omega),
      byte_high_bit b2 (24 + i - 8) (by omega), byte_high_bit b3 (24 + i) (by omega), hi]
  · simp [show 16 + i < 32 by omega, show 16 + i < 24 by omega, byte_high_bit b2 (16 + i - 8) (by omega),
      byte_high_bit b3 (16 + i) (by omega), hi]
  · simp [show 8 + i < 32 by omega, show 8 + i < 24 by omega, show 8 + i < 16 by omega, hi]
  · simp [hi, show i < 32 by omega, show i < 24 by omega, show i < 16 by omega]

end Machine

end Sys2Proof
end

