-- ==== Sys2Proof/Laws/Runs.lean ====
section
/-! SUPPORT. Peeling a pseudocode function apart: its binds, and how `finish` ends a command. -/

namespace Sys2Proof.Machine

variable {α β ε : Type}

/-- A sequence succeeds exactly when both parts do. -/
theorem bind_eq_ok {x : Except ε α} {f : α → Except ε β} {b : β} :
    (x >>= f) = .ok b ↔ ∃ a, x = .ok a ∧ f a = .ok b := by
  cases x <;> simp [bind, Except.bind]

/-- A sequence fails exactly when its first part fails, or the first succeeds and the second fails. -/
theorem bind_eq_error {x : Except ε α} {f : α → Except ε β} {e : ε} :
    (x >>= f) = .error e ↔ x = .error e ∨ ∃ a, x = .ok a ∧ f a = .error e := by
  cases x <;> simp [bind, Except.bind]

@[simp] theorem ok_bind (a : α) (f : α → Except ε β) : (Except.ok a >>= f) = f a := rfl

@[simp] theorem error_bind (e : ε) (f : α → Except ε β) : (Except.error e >>= f) = .error e := rfl

@[simp] theorem pure_eq_ok (a : α) : (pure a : Except ε α) = .ok a := rfl

@[simp] theorem raise_ne_ok (e : CodecError) (v : α) : (raise e : Run α) ≠ .ok v := by simp [raise]

@[simp] theorem raise_eq_error (e : CodecError) (h : Halt) :
    (raise e : Run α) = .error h ↔ h = .raised e := by
  simp [raise, eq_comm]

@[simp] theorem readHeld_some (l : Loc) (v : α) : readHeld l (some v) = .ok v := rfl

@[simp] theorem readHeld_none (l : Loc) : readHeld (α := α) l none = .error (.refused (.noValue l)) := rfl

theorem readHeld_eq_ok {l : Loc} {r : Held α} {v : α} : readHeld l r = .ok v ↔ r = some v := by
  cases r <;> simp

theorem readHeld_eq_error {l : Loc} {r : Held α} {h : Halt} :
    readHeld l r = .error h ↔ r = none ∧ h = .refused (.noValue l) := by
  cases r <;> simp [eq_comm]

/-! ### How a command ends -/

variable {r : Run α} {put : Held α → State → State} {s t : State}

@[simp] theorem finish_ok (v : α) : finish (.ok v) put s = .next (put (some v) s).succeed := rfl

@[simp] theorem finish_raised (e : CodecError) :
    finish (.error (.raised e)) put s = .next ((put none s).takeError e) := rfl

@[simp] theorem finish_raise (e : CodecError) :
    finish (raise e) put s = .next ((put none s).takeError e) := rfl

@[simp] theorem finish_refused (why : Refusal) :
    finish (.error (.refused why)) put s = .refused why := rfl

/-- Everything a command that reaches a next state can have done. -/
theorem finish_next :
    finish r put s = .next t ↔
      (∃ v, r = .ok v ∧ t = (put (some v) s).succeed) ∨
      (∃ e, r = .error (.raised e) ∧ t = (put none s).takeError e) := by
  rcases r with (e | why) | v <;> simp [finish, eq_comm]

/-- A command is refused exactly when its function is. -/
theorem finish_eq_refused {why : Refusal} :
    finish r put s = .refused why ↔ r = .error (.refused why) := by
  rcases r with (e | why') | v <;> simp [finish]

/-- No command ends in a fault. -/
theorem finish_ne_fault {f : Fault} : finish r put s ≠ .fault f := by
  rcases r with (e | why) | v <;> simp [finish]

theorem errorCode_ne_zero (e : CodecError) : errorCode e ≠ 0 := by
  cases e <;> simp [errorCode]

end Sys2Proof.Machine
end

