-- ==== Sys2Proof/Laws/Enums.lean ====
section
/-! SUPPORT. The enumeration checks (R116, R118) and the classes of a length octet (R64). -/

namespace Sys2Proof

theorem recordTypeOf_code (t : RecordType) : recordTypeOf (recordTypeCode t) = some t := by
  cases t <;> decide

theorem recordTypeCode_of {v : Half} {t : RecordType} (h : recordTypeOf v = some t) : recordTypeCode t = v := by
  unfold recordTypeOf at h
  repeat' (split at h)
  all_goals simp_all
  all_goals subst h; simp [recordTypeCode]

theorem responseCodeOf_code (c : ResponseCode) : responseCodeOf ((responseCodeCode c).setWidth 16) = some c := by
  cases c <;> decide

theorem responseCodeCode_of {v : Half} {c : ResponseCode} (h : responseCodeOf v = some c) :
    (responseCodeCode c).setWidth 16 = v := by
  unfold responseCodeOf at h
  repeat' (split at h)
  all_goals simp_all
  all_goals subst h; decide

theorem responseCodeOf_isSome (v : Half) : (responseCodeOf v).isSome ↔ v.toNat ≤ 5 := by
  constructor
  · intro h
    obtain ⟨c, hc⟩ := Option.isSome_iff_exists.mp h
    rw [← responseCodeCode_of hc]
    cases c <;> decide
  · intro h
    have : v ∈ [0, 1, 2, 3, 4, 5] := by
      have hv : v = BitVec.ofNat 16 v.toNat := by simp
      rw [hv]
      generalize v.toNat = n at h
      interval_cases n <;> decide
    simp at this
    rcases this with rfl | rfl | rfl | rfl | rfl | rfl <;> decide

namespace Machine

theorem recordTypeOf_isSome (v : Half) : (recordTypeOf v).isSome ↔ knownType v := by
  constructor
  · intro h
    obtain ⟨t, ht⟩ := Option.isSome_iff_exists.mp h
    rw [← recordTypeCode_of ht]
    cases t <;> simp [knownType, recordTypeCode]
  · intro h
    simp [knownType] at h
    rcases h with rfl | rfl | rfl | rfl | rfl | rfl | rfl | rfl <;> decide

theorem recordTypeOf_eq_none (v : Half) : recordTypeOf v = none ↔ ¬ knownType v := by
  rw [← recordTypeOf_isSome]
  cases recordTypeOf v <;> simp

theorem rtypeDecode_ok {v t : Half} : rtypeDecode v = .ok t ↔ t = v ∧ knownType v := by
  unfold rtypeDecode
  split
  · rename_i x hx
    rw [recordTypeCode_of hx, ← recordTypeOf_isSome, hx]
    simp [eq_comm]
  · rename_i hx
    rw [← recordTypeOf_isSome, hx]
    simp

theorem rtypeDecode_error {v : Half} {h : Halt} :
    rtypeDecode v = .error h ↔ h = .raised (.unknownRecordType v) ∧ ¬ knownType v := by
  unfold rtypeDecode
  split
  · rename_i x hx
    rw [← recordTypeOf_isSome, hx]
    simp
  · rename_i hx
    rw [← recordTypeOf_isSome, hx]
    simp

theorem rcodeDecode_ok {v : Half} {c : BitVec 4} :
    rcodeDecode v = .ok c ↔ c.setWidth 16 = v ∧ v.toNat ≤ 5 := by
  unfold rcodeDecode
  split
  · rename_i x hx
    rw [← responseCodeOf_isSome, hx, ← responseCodeCode_of hx]
    simp only [Except.ok.injEq, Option.isSome_some, and_true]
    constructor
    · rintro rfl
      rfl
    · intro h
      have := congrArg BitVec.toNat h
      simp at this
      exact BitVec.eq_of_toNat_eq (by omega)
  · rename_i hx
    rw [← responseCodeOf_isSome, hx]
    simp

theorem rcodeDecode_error {v : Half} {h : Halt} :
    rcodeDecode v = .error h ↔ h = .raised (.unknownResponseCode v) ∧ 5 < v.toNat := by
  unfold rcodeDecode
  split
  · rename_i x hx
    have := (responseCodeOf_isSome v).mp (by simp [hx])
    simp
    omega
  · rename_i hx
    have : ¬ v.toNat ≤ 5 := fun h => by
      have := (responseCodeOf_isSome v).mpr h
      simp [hx] at this
    simp
    omega

theorem lenClass_ending (n : Byte) : lenClass n = .ending ↔ n = 0 := by
  unfold lenClass
  repeat' split
  all_goals simp_all

/-- R64: a label octet is 1 to 63. -/
theorem lenClass_label (n : Byte) : lenClass n = .label ↔ 1 ≤ n.toNat ∧ n.toNat ≤ 63 := by
  revert n
  decide +kernel

/-- R64, decision D6: every other octet than these is rejected. -/
theorem lenTurn_invalid (inp : Input) (n : Byte) (cur : Nat) (h : 64 ≤ n.toNat) :
    lenTurn inp n cur = raise .invalidLabelLength := by
  have h1 : lenClass n ≠ .ending := fun he => by simp [(lenClass_ending n).mp he] at h
  have h2 : lenClass n ≠ .label := fun he => by have := (lenClass_label n).mp he; omega
  unfold lenTurn
  split <;> simp_all

end Machine

end Sys2Proof
end

