-- ==== Sys2Proof/Laws/Memory.lean ====
section
/-! SUPPORT. The laws of the byte buffers: read after write, the canonical form, and the bytes a buffer holds. -/

namespace Sys2Proof.Machine

variable {m : Memory} {a b n : Nat} {v : Byte} {bs cs : List Byte}

@[simp] theorem Memory.read_nil (a : Nat) : Memory.read [] a = none := rfl

theorem Memory.read_cons (x : Host.Cell) (m : Memory) (a : Nat) :
    Memory.read (x :: m) a = if a = x.1 then some x.2 else Memory.read m a := rfl

/-- A read of the address written gives the byte written. -/
@[simp] theorem Memory.read_write_same : (Memory.write m a v).read a = some v := by
  induction m with
  | nil => simp [Memory.write, Memory.read]
  | cons x m ih =>
    simp only [Memory.write]
    split
    · simp [Memory.read]
    · split
      · simp [Memory.read]
      · simp [Memory.read, *]

/-- A write leaves every other address alone. -/
theorem Memory.read_write_other (h : b ≠ a) : (Memory.write m a v).read b = m.read b := by
  induction m with
  | nil => simp [Memory.write, Memory.read, h]
  | cons x m ih =>
    simp only [Memory.write]
    split
    · simp [Memory.read, h]
    · split
      · rename_i hx
        simp [Memory.read, h, ← hx]
      · simp [Memory.read, ih]

/-- A write adds at most the cell it writes. -/
theorem Memory.mem_write {x : Host.Cell} (h : x ∈ Memory.write m a v) : x = (a, v) ∨ x ∈ m := by
  induction m with
  | nil => simp_all [Memory.write]
  | cons y m ih =>
    simp only [Memory.write] at h
    split at h
    · simpa using h
    · split at h
      · simp at h
        tauto
      · simp at h
        rcases h with rfl | h
        · simp
        · rcases ih h with h | h <;> simp [h]

/-- Every write keeps the canonical form. -/
theorem Memory.write_wf (h : Memory.wf m) : Memory.wf (Memory.write m a v) := by
  induction m with
  | nil => simp [Memory.write]
  | cons x m ih =>
    have hx := List.pairwise_cons.mp h
    simp only [Memory.write]
    split
    · rename_i hlt
      refine List.pairwise_cons.mpr ⟨?_, h⟩
      intro y hy
      rcases List.mem_cons.mp hy with rfl | hy
      · exact hlt
      · exact lt_trans hlt (hx.1 y hy)
    · split
      · rename_i heq
        exact List.pairwise_cons.mpr ⟨fun y hy => heq ▸ hx.1 y hy, hx.2⟩
      · refine List.pairwise_cons.mpr ⟨?_, ih hx.2⟩
        intro y hy
        rcases Memory.mem_write hy with rfl | hy
        · simp only
          omega
        · exact hx.1 y hy

/-- What a buffer holds after a run of writes: the bytes written at their addresses, the rest as before. -/
theorem Memory.read_writeFrom (m : Memory) (a : Nat) (bs : List Byte) (b : Nat) :
    (m.writeFrom a bs).read b = if a ≤ b ∧ b < a + bs.length then bs[b - a]? else m.read b := by
  induction bs generalizing m a with
  | nil => simp [Memory.writeFrom]
  | cons c bs ih =>
    simp only [Memory.writeFrom, ih, List.length_cons]
    rcases Nat.lt_trichotomy a b with h | h | h
    · rw [Memory.read_write_other (by omega)]
      rw [show b - a = b - (a + 1) + 1 by omega, List.getElem?_cons_succ]
      split <;> split <;> first | rfl | omega
    · subst h
      simp
    · rw [if_neg (by omega), if_neg (by omega), Memory.read_write_other (by omega)]

/-- A run of writes keeps the canonical form. -/
theorem Memory.writeFrom_wf {m : Memory} (a : Nat) (bs : List Byte) (h : Memory.wf m) :
    Memory.wf (m.writeFrom a bs) := by
  induction bs generalizing m a with
  | nil => exact h
  | cons b bs ih => exact ih (a + 1) (Memory.write_wf h)

theorem Memory.le_of_mem_ofBytesAt {x : Host.Cell} (h : x ∈ Memory.ofBytesAt a bs) : a ≤ x.1 := by
  induction bs generalizing a with
  | nil => simp [Memory.ofBytesAt] at h
  | cons b bs ih =>
    rcases List.mem_cons.mp h with rfl | h
    · exact Nat.le_refl _
    · exact Nat.le_of_succ_le (ih h)

/-- A buffer loaded from a byte string is canonical. -/
theorem Memory.ofBytesAt_wf (a : Nat) (bs : List Byte) : Memory.wf (Memory.ofBytesAt a bs) := by
  induction bs generalizing a with
  | nil => simp [Memory.ofBytesAt]
  | cons b bs ih =>
    exact List.pairwise_cons.mpr ⟨fun x hx => Memory.le_of_mem_ofBytesAt hx, ih (a + 1)⟩

/-- What a buffer loaded from a byte string holds at each address. -/
theorem Memory.read_ofBytesAt (a : Nat) (bs : List Byte) (b : Nat) :
    (Memory.ofBytesAt a bs).read b = if a ≤ b then bs[b - a]? else none := by
  induction bs generalizing a with
  | nil => simp [Memory.ofBytesAt]
  | cons c bs ih =>
    simp only [Memory.ofBytesAt, Memory.read, ih]
    rcases Nat.lt_trichotomy a b with h | h | h
    · rw [if_neg (by omega), if_pos (by omega), if_pos (by omega), show b - a = b - (a + 1) + 1 by omega]
      rfl
    · subst h
      simp
    · rw [if_neg (by omega), if_neg (by omega), if_neg (by omega)]

@[simp] theorem Memory.bytes_ofBytesAt (a : Nat) (bs : List Byte) : (Memory.ofBytesAt a bs).bytes = bs := by
  induction bs generalizing a with
  | nil => rfl
  | cons b bs ih => simpa [Memory.ofBytesAt, Memory.bytes] using ih (a + 1)

/-! ### The bytes a buffer holds -/

@[simp] theorem Memory.holds_nil : m.holds a [] := trivial

theorem Memory.holds_cons : m.holds a (v :: bs) ↔ m.read a = some v ∧ m.holds (a + 1) bs := Iff.rfl

theorem Memory.holds_append : m.holds a (bs ++ cs) ↔ m.holds a bs ∧ m.holds (a + bs.length) cs := by
  induction bs generalizing a with
  | nil => simp
  | cons b bs ih =>
    simp [Memory.holds, ih, and_assoc, Nat.add_assoc, Nat.add_comm]

theorem Memory.holds_iff : m.holds a bs ↔ ∀ i, ∀ b, bs[i]? = some b → m.read (a + i) = some b := by
  induction bs generalizing a with
  | nil => simp
  | cons c bs ih =>
    rw [Memory.holds_cons, ih]
    constructor
    · rintro ⟨h0, h⟩ i b hb
      cases i with
      | zero => simpa using hb ▸ h0
      | succ i =>
        have := h i b (by simpa using hb)
        rwa [show a + (i + 1) = a + 1 + i by omega]
    · intro h
      refine ⟨by simpa using h 0 c, fun i b hb => ?_⟩
      have := h (i + 1) b (by simpa using hb)
      rwa [show a + 1 + i = a + (i + 1) by omega]

/-- Two byte strings of one length that a buffer holds at one place are equal. -/
theorem Memory.holds_unique (hb : m.holds a bs) (hc : m.holds a cs) (hl : bs.length = cs.length) : bs = cs := by
  induction bs generalizing a cs with
  | nil => exact (List.length_eq_zero_iff.mp hl.symm).symm
  | cons b bs ih =>
    cases cs with
    | nil => simp at hl
    | cons c cs =>
      have h1 : some b = some c := hb.1.symm.trans hc.1
      rw [Option.some.inj h1, ih hb.2 hc.2 (by simpa using hl)]

theorem Memory.holds_ofBytesAt (a : Nat) (bs : List Byte) : (Memory.ofBytesAt a bs).holds a bs := by
  rw [Memory.holds_iff]
  intro i b hb
  simp [Memory.read_ofBytesAt, hb]

/-- A run of writes leaves the bytes written where they were written. -/
theorem Memory.holds_writeFrom (m : Memory) (a : Nat) (bs : List Byte) : (m.writeFrom a bs).holds a bs := by
  rw [Memory.holds_iff]
  intro i b hb
  have hi := (List.getElem?_eq_some_iff.mp hb).1
  rw [Memory.read_writeFrom, if_pos (by omega), Nat.add_sub_cancel_left, hb]

/-- A buffer loaded from a byte string holds a value at each of its addresses. -/
theorem Memory.filledBelow_ofBytesAt (bs : List Byte) : filledBelow bs.length (Memory.ofBytesAt 0 bs) := by
  intro a ha
  exact ⟨bs[a], by simp [Memory.read_ofBytesAt, ha]⟩

/-- What a buffer holds below a bound depends only on its bytes below the bound. -/
theorem Memory.holds_of_agreeBelow {m' : Memory} (h : agreeBelow n m m') (hle : a + bs.length ≤ n)
    (hb : m.holds a bs) : m'.holds a bs := by
  rw [Memory.holds_iff] at hb ⊢
  intro i b hi
  have := hb i b hi
  have hlt : i < bs.length := by
    by_contra hge
    simp [List.getElem?_eq_none (Nat.le_of_not_lt hge)] at hi
  rw [← h (a + i) (by omega)]
  exact this

theorem agreeBelow_symm {m' : Memory} (h : agreeBelow n m m') : agreeBelow n m' m :=
  fun a ha => (h a ha).symm

end Sys2Proof.Machine
end

