-- ==== Sys2Proof/Laws/Reads.lean ====
section
/-! SUPPORT. The spec lemma of each bounds-checked read (R46, R47): when it succeeds and with what, when it raises, that a
filled buffer never refuses it, and that it depends on the bytes below `ILEN` only. -/

namespace Sys2Proof.Machine

variable {inp : Input} {cur n c : Nat} {e : CodecError} {m m' : Memory} {bs : List Byte} {h : Halt}

/-! ### Success -/

theorem need_ok {u : Unit} : need inp cur n = .ok u ↔ cur + n ≤ inp.len := by
  simp only [need]
  split <;> simp <;> omega

theorem need_error : need inp cur n = .error h ↔ h = .raised .unexpectedEndOfInput ∧ inp.len < cur + n := by
  simp only [need]
  split
  · simp
    intro _
    omega
  · simp
    intro _
    omega

theorem byteAt_ok {sp : Space} {a : Nat} {b : Byte} : byteAt sp m a = .ok b ↔ m.read a = some b := readHeld_eq_ok

theorem byteAt_error {sp : Space} {a : Nat} :
    byteAt sp m a = .error h ↔ m.read a = none ∧ h = .refused (.noValue (.byteOf sp a)) := readHeld_eq_error

theorem bytesAt_ok {sp : Space} {a : Nat} : bytesAt sp m a n = .ok bs ↔ bs.length = n ∧ m.holds a bs := by
  induction n generalizing a bs with
  | zero =>
    simp only [bytesAt, Except.ok.injEq, List.length_eq_zero_iff]
    constructor
    · rintro rfl
      simp
    · rintro ⟨rfl, -⟩
      rfl
  | succ n ih =>
    simp only [bytesAt, bind_eq_ok, byteAt_ok, ih, pure_eq_ok, Except.ok.injEq]
    constructor
    · rintro ⟨b, hb, bs, ⟨rfl, h⟩, rfl⟩
      exact ⟨rfl, hb, h⟩
    · rintro ⟨hl, hb⟩
      cases bs with
      | nil => simp at hl
      | cons b bs => exact ⟨b, hb.1, bs, ⟨by simpa using hl, hb.2⟩, rfl⟩

theorem rd8_ok {b : Byte} :
    rd8 inp cur = .ok (b, c) ↔ cur + 1 ≤ inp.len ∧ inp.buf.read cur = some b ∧ c = cur + 1 := by
  simp only [rd8, bind_eq_ok, need_ok, byteAt_ok, pure_eq_ok, Except.ok.injEq, Prod.mk.injEq]
  constructor
  · rintro ⟨-, h, b, hb, rfl, rfl⟩
    exact ⟨h, hb, rfl⟩
  · rintro ⟨h, hb, rfl⟩
    exact ⟨(), h, b, hb, rfl, rfl⟩

theorem rd16_ok {v : Half} :
    rd16 inp cur = .ok (v, c) ↔ cur + 2 ≤ inp.len ∧ inp.buf.holds cur (be16 v) ∧ c = cur + 2 := by
  simp only [rd16, bind_eq_ok, need_ok, byteAt_ok, pure_eq_ok, Except.ok.injEq, Prod.mk.injEq]
  constructor
  · rintro ⟨-, h, b0, h0, b1, h1, rfl, rfl⟩
    rw [be16_unbe16]
    exact ⟨h, ⟨h0, h1, trivial⟩, rfl⟩
  · rintro ⟨h, hb, rfl⟩
    exact ⟨(), h, _, hb.1, _, hb.2.1, unbe16_be16 v, rfl⟩

theorem rd32_ok {v : Word} :
    rd32 inp cur = .ok (v, c) ↔ cur + 4 ≤ inp.len ∧ inp.buf.holds cur (be32 v) ∧ c = cur + 4 := by
  simp only [rd32, bind_eq_ok, need_ok, byteAt_ok, pure_eq_ok, Except.ok.injEq, Prod.mk.injEq]
  constructor
  · rintro ⟨-, h, b0, h0, b1, h1, b2, h2, b3, h3, rfl, rfl⟩
    rw [be32_unbe32]
    exact ⟨h, ⟨h0, h1, h2, h3, trivial⟩, rfl⟩
  · rintro ⟨h, hb, rfl⟩
    exact ⟨(), h, _, hb.1, _, hb.2.1, _, hb.2.2.1, _, hb.2.2.2.1, unbe32_be32 v, rfl⟩

theorem rdbytes_ok :
    rdbytes inp cur n = .ok (bs, c) ↔ cur + n ≤ inp.len ∧ bs.length = n ∧ inp.buf.holds cur bs ∧ c = cur + n := by
  simp only [rdbytes, bind_eq_ok, need_ok, bytesAt_ok, pure_eq_ok, Except.ok.injEq, Prod.mk.injEq]
  constructor
  · rintro ⟨-, h, bs, ⟨hl, hb⟩, rfl, rfl⟩
    exact ⟨h, hl, hb, rfl⟩
  · rintro ⟨h, hl, hb, rfl⟩
    exact ⟨(), h, bs, ⟨hl, hb⟩, rfl, rfl⟩

/-! ### Raising (R171): before any byte of the field is read -/

theorem byteAt_not_raised {sp : Space} {a : Nat} : byteAt sp m a ≠ .error (.raised e) := by
  simp [byteAt_error]

theorem bytesAt_not_raised {sp : Space} {a : Nat} : bytesAt sp m a n ≠ .error (.raised e) := by
  induction n generalizing a with
  | zero => simp [bytesAt]
  | succ n ih => simp [bytesAt, bind_eq_error, byteAt_error, ih]

theorem rd8_raised :
    rd8 inp cur = .error (.raised e) ↔ e = .unexpectedEndOfInput ∧ inp.len < cur + 1 := by
  simp [rd8, bind_eq_error, need_error, byteAt_error]

theorem rd16_raised :
    rd16 inp cur = .error (.raised e) ↔ e = .unexpectedEndOfInput ∧ inp.len < cur + 2 := by
  simp [rd16, bind_eq_error, need_error, byteAt_error]

theorem rd32_raised :
    rd32 inp cur = .error (.raised e) ↔ e = .unexpectedEndOfInput ∧ inp.len < cur + 4 := by
  simp [rd32, bind_eq_error, need_error, byteAt_error]

theorem rdbytes_raised :
    rdbytes inp cur n = .error (.raised e) ↔ e = .unexpectedEndOfInput ∧ inp.len < cur + n := by
  simp [rdbytes, bind_eq_error, need_error, bytesAt_not_raised]

/-! ### A filled buffer is never refused (R29) -/

/-- The function gives no refusal. -/
def neverRefuses {α : Type} (r : Run α) : Prop := ∀ why, r ≠ .error (.refused why)

theorem neverRefuses_ok {α : Type} (v : α) : neverRefuses (.ok v : Run α) := by simp [neverRefuses]

theorem neverRefuses_raise {α : Type} (e : CodecError) : neverRefuses (raise e : Run α) := by simp [neverRefuses]

theorem neverRefuses_bind {α β : Type} {x : Run α} {f : α → Run β} (hx : neverRefuses x)
    (hf : ∀ a, x = .ok a → neverRefuses (f a)) : neverRefuses (x >>= f) := by
  intro why h
  rcases bind_eq_error.mp h with h | ⟨a, ha, h⟩
  · exact hx why h
  · exact hf a ha why h

theorem need_neverRefuses : neverRefuses (need inp cur n) := by
  simp [neverRefuses, need_error]

variable (hfill : filledBelow inp.len inp.buf)
include hfill

theorem byteAt_neverRefuses {a : Nat} (ha : a < inp.len) : neverRefuses (byteAt .ibuf inp.buf a) := by
  obtain ⟨b, hb⟩ := hfill a ha
  simp [neverRefuses, byteAt, hb]

theorem bytesAt_neverRefuses {a n : Nat} (ha : a + n ≤ inp.len) : neverRefuses (bytesAt .ibuf inp.buf a n) := by
  induction n generalizing a with
  | zero => exact neverRefuses_ok _
  | succ n ih =>
    refine neverRefuses_bind (byteAt_neverRefuses hfill (by omega)) fun b _ => ?_
    exact neverRefuses_bind (ih (by omega)) fun _ _ => neverRefuses_ok _

theorem rd8_neverRefuses : neverRefuses (rd8 inp cur) := by
  refine neverRefuses_bind need_neverRefuses fun _ h => ?_
  exact neverRefuses_bind (byteAt_neverRefuses hfill (by have := need_ok.mp h; omega)) fun _ _ => neverRefuses_ok _

theorem rd16_neverRefuses : neverRefuses (rd16 inp cur) := by
  refine neverRefuses_bind need_neverRefuses fun _ h => ?_
  have := need_ok.mp h
  refine neverRefuses_bind (byteAt_neverRefuses hfill (by omega)) fun _ _ => ?_
  exact neverRefuses_bind (byteAt_neverRefuses hfill (by omega)) fun _ _ => neverRefuses_ok _

theorem rd32_neverRefuses : neverRefuses (rd32 inp cur) := by
  refine neverRefuses_bind need_neverRefuses fun _ h => ?_
  have := need_ok.mp h
  refine neverRefuses_bind (byteAt_neverRefuses hfill (by omega)) fun _ _ => ?_
  refine neverRefuses_bind (byteAt_neverRefuses hfill (by omega)) fun _ _ => ?_
  refine neverRefuses_bind (byteAt_neverRefuses hfill (by omega)) fun _ _ => ?_
  exact neverRefuses_bind (byteAt_neverRefuses hfill (by omega)) fun _ _ => neverRefuses_ok _

theorem rdbytes_neverRefuses : neverRefuses (rdbytes inp cur n) := by
  refine neverRefuses_bind need_neverRefuses fun _ h => ?_
  have := need_ok.mp h
  exact neverRefuses_bind (bytesAt_neverRefuses hfill (by omega)) fun _ _ => neverRefuses_ok _

end Sys2Proof.Machine

namespace Sys2Proof.Machine

/-! ### Only the bytes below `ILEN` are read (R51) -/

variable {m m' : Memory} {len cur n : Nat}

/-- A read behind the bounds check depends on the bytes the check allows only. -/
theorem need_bind_congr {α : Type} {f g : Run α} (h : cur + n ≤ len → f = g) :
    (need ⟨m, len⟩ cur n >>= fun _ => f) = (need ⟨m', len⟩ cur n >>= fun _ => g) := by
  by_cases hle : cur + n ≤ len
  · rw [need_ok (inp := ⟨m, len⟩) (u := ()) |>.mpr hle, need_ok (inp := ⟨m', len⟩) (u := ()) |>.mpr hle, h hle]
  · have hlt : len < cur + n := by omega
    rw [need_error (inp := ⟨m, len⟩) |>.mpr ⟨rfl, hlt⟩, need_error (inp := ⟨m', len⟩) |>.mpr ⟨rfl, hlt⟩]
    rfl

variable (hag : agreeBelow len m m')
include hag

theorem byteAt_congr {a : Nat} (ha : a < len) : byteAt .ibuf m a = byteAt .ibuf m' a := by
  simp [byteAt, hag a ha]

theorem bytesAt_congr {sp : Space} {a n : Nat} (ha : a + n ≤ len) : bytesAt sp m a n = bytesAt sp m' a n := by
  induction n generalizing a with
  | zero => rfl
  | succ n ih => simp [bytesAt, byteAt, hag a (by omega), ih (by omega : a + 1 + n ≤ len)]

theorem rd8_congr : rd8 ⟨m, len⟩ cur = rd8 ⟨m', len⟩ cur :=
  need_bind_congr fun h => by rw [byteAt_congr hag (by omega)]

theorem rd16_congr : rd16 ⟨m, len⟩ cur = rd16 ⟨m', len⟩ cur :=
  need_bind_congr fun h => by rw [byteAt_congr hag (by omega), byteAt_congr hag (by omega)]

theorem rd32_congr : rd32 ⟨m, len⟩ cur = rd32 ⟨m', len⟩ cur :=
  need_bind_congr fun h => by
    rw [byteAt_congr hag (by omega), byteAt_congr hag (by omega), byteAt_congr hag (by omega),
      byteAt_congr hag (by omega)]

theorem rdbytes_congr : rdbytes ⟨m, len⟩ cur n = rdbytes ⟨m', len⟩ cur n :=
  need_bind_congr fun h => by rw [bytesAt_congr hag (by omega)]

end Sys2Proof.Machine
end

