-- ==== Sys2Proof/Laws/Names.lean ====
section
/-! SUPPORT. The name decoder (R103): its loop as the spec writes it, the names it accepts, the two errors it raises. -/

namespace Sys2Proof.Machine

variable {inp : Input} {cur c : Nat} {ls : List Label}

/-! ### One length octet (R64) -/

theorem lenTurn_end (inp : Input) (cur : Nat) : lenTurn inp 0 cur = .ok (none, cur) := rfl

theorem lenTurn_label (inp : Input) (n : Byte) (cur : Nat) (h : 1 ≤ n.toNat ∧ n.toNat ≤ 63) :
    lenTurn inp n cur = (rdbytes inp cur n.toNat >>= fun p => .ok (some p.1, p.2)) := by
  simp only [lenTurn, (lenClass_label n).mpr h]
  rfl

/-- The three things a length octet can do. -/
theorem lenOctet_cases (n : Byte) : n = 0 ∨ (1 ≤ n.toNat ∧ n.toNat ≤ 63) ∨ 64 ≤ n.toNat := by
  by_cases h : n = 0
  · exact .inl h
  · have : n.toNat ≠ 0 := fun h0 => h (BitVec.eq_of_toNat_eq (by simpa using h0))
    omega

theorem lenTurn_ok {n : Byte} {lab : Option Label} :
    lenTurn inp n cur = .ok (lab, c) ↔
      (n = 0 ∧ lab = none ∧ c = cur) ∨
      (∃ l, lab = some l ∧ legalLabel l ∧ n = BitVec.ofNat 8 l.length ∧ cur + l.length ≤ inp.len ∧
        inp.buf.holds cur l ∧ c = cur + l.length) := by
  rcases lenOctet_cases n with rfl | h | h
  · simp only [lenTurn_end, Except.ok.injEq, Prod.mk.injEq, true_and]
    constructor
    · rintro ⟨rfl, rfl⟩
      exact .inl ⟨rfl, rfl⟩
    · rintro (⟨rfl, rfl⟩ | ⟨l, -, hl, h0, -⟩)
      · exact ⟨rfl, rfl⟩
      · have := congrArg BitVec.toNat h0
        simp [legalLabel] at this hl
        omega
  · have h0 : n ≠ 0 := by rintro rfl; simp at h
    simp only [lenTurn_label inp n cur h, bind_eq_ok, h0, false_and, false_or, Except.ok.injEq, Prod.mk.injEq]
    constructor
    · rintro ⟨⟨l, d⟩, hr, rfl, rfl⟩
      obtain ⟨hle, hl, hb, rfl⟩ := rdbytes_ok.mp hr
      refine ⟨l, rfl, ⟨by omega, by omega⟩, ?_, by omega, hb, by rw [hl]⟩
      simp [hl]
    · rintro ⟨l, rfl, hl, rfl, hle, hb, rfl⟩
      have hn : (BitVec.ofNat 8 l.length).toNat = l.length := by
        simp [legalLabel] at hl ⊢
        omega
      exact ⟨(l, _), rdbytes_ok.mpr ⟨by omega, hn.symm, hb, rfl⟩, rfl, by simp [hn]⟩
  · rw [lenTurn_invalid inp n cur h]
    simp only [raise_ne_ok, false_iff]
    rintro (⟨rfl, -⟩ | ⟨l, -, hl, rfl, -⟩)
    · simp at h
    · simp [legalLabel] at hl h
      omega

theorem lenTurn_raised {n : Byte} {e : CodecError} :
    lenTurn inp n cur = .error (.raised e) ↔
      (e = .unexpectedEndOfInput ∧ (1 ≤ n.toNat ∧ n.toNat ≤ 63) ∧ inp.len < cur + n.toNat) ∨
      (e = .invalidLabelLength ∧ 64 ≤ n.toNat) := by
  rcases lenOctet_cases n with rfl | h | h
  · rw [lenTurn_end]
    simp
  · have h64 : ¬ 64 ≤ n.toNat := by omega
    simp [lenTurn_label inp n cur h, bind_eq_error, rdbytes_raised, h, h64]
  · rw [lenTurn_invalid inp n cur h]
    simp [h]
    omega

/-- A turn never moves the cursor back. -/
theorem lenTurn_le {n : Byte} {lab : Option Label} (h : lenTurn inp n cur = .ok (lab, c)) : cur ≤ c := by
  rcases lenTurn_ok.mp h with ⟨-, -, rfl⟩ | ⟨l, -, -, -, -, -, rfl⟩ <;> omega

/-! ### The loop (R103), and that its bound is never used up (R210) -/

theorem nameLoop_succ (inp : Input) (k cur : Nat) :
    nameLoop inp (k + 1) cur =
      (rd8 inp cur >>= fun p => lenTurn inp p.1 p.2 >>= fun q =>
        match q.1 with
        | none => .ok ([], q.2)
        | some l => nameLoop inp k q.2 >>= fun r => .ok (l :: r.1, r.2)) := rfl

/-- Any bound of more than `ILEN - cur` turns gives the same answer. -/
theorem nameLoop_turns (inp : Input) (j k cur : Nat) (hj : inp.len - cur < j) (hk : inp.len - cur < k) :
    nameLoop inp j cur = nameLoop inp k cur := by
  induction j generalizing k cur with
  | zero => omega
  | succ j ih =>
    obtain ⟨k, rfl⟩ : ∃ k', k = k' + 1 := ⟨k - 1, by omega⟩
    rw [nameLoop_succ, nameLoop_succ]
    rcases h8 : rd8 inp cur with e | ⟨n, c⟩
    · rfl
    · obtain ⟨hle, -, rfl⟩ := rd8_ok.mp h8
      simp only [ok_bind]
      rcases ht : lenTurn inp n (cur + 1) with e | ⟨lab, d⟩
      · rfl
      · have hd := lenTurn_le ht
        simp only [ok_bind]
        cases lab with
        | none => rfl
        | some l => rw [ih k d (by omega) (by omega)]

/-- R103 as the spec writes it: `name_decode` is one turn of its loop, then the loop again. -/
theorem nameDecode_eq (inp : Input) (cur : Nat) :
    nameDecode inp cur =
      (rd8 inp cur >>= fun p => lenTurn inp p.1 p.2 >>= fun q =>
        match q.1 with
        | none => .ok ([], q.2)
        | some l => nameDecode inp q.2 >>= fun r => .ok (l :: r.1, r.2)) := by
  rw [nameDecode, nameLoop_succ]
  rcases h8 : rd8 inp cur with e | ⟨n, c⟩
  · rfl
  · obtain ⟨hle, -, rfl⟩ := rd8_ok.mp h8
    simp only [ok_bind]
    rcases ht : lenTurn inp n (cur + 1) with e | ⟨lab, d⟩
    · rfl
    · have hd := lenTurn_le ht
      simp only [ok_bind]
      cases lab with
      | none => rfl
      | some l => simp only [nameDecode, nameLoop_turns inp (inp.len - cur) (inp.len - d + 1) d (by omega) (by omega)]

/-! ### The names accepted -/

theorem wireLabel_length (l : Label) : (wireLabel l).length = l.length + 1 := rfl

@[simp] theorem wireName_nil : wireName [] = [0x00] := rfl

theorem wireName_cons (l : Label) (ls : List Label) : wireName (l :: ls) = wireLabel l ++ wireName ls := by
  simp [wireName, wireLabels]

theorem wireName_length (ls : List Label) : (wireName ls).length = 1 + (ls.map (fun l => 1 + l.length)).sum := by
  induction ls with
  | nil => rfl
  | cons l ls ih =>
    rw [wireName_cons, List.length_append, ih, wireLabel_length]
    simp
    omega

theorem wireName_length_pos (ls : List Label) : 1 ≤ (wireName ls).length := by
  rw [wireName_length]
  omega

/-- Soundness of the loop: what it delivers lies in the buffer. -/
theorem nameLoop_sound (k : Nat) (h : nameLoop inp k cur = .ok (ls, c)) :
    legalName ls ∧ inp.buf.holds cur (wireName ls) ∧ c = cur + (wireName ls).length ∧ c ≤ inp.len := by
  induction k generalizing cur ls c with
  | zero => simp [nameLoop] at h
  | succ k ih =>
    rw [nameLoop_succ] at h
    obtain ⟨⟨n, c1⟩, h8, h⟩ := bind_eq_ok.mp h
    obtain ⟨⟨lab, c2⟩, ht, h⟩ := bind_eq_ok.mp h
    obtain ⟨hle, hr, rfl⟩ := rd8_ok.mp h8
    rcases lenTurn_ok.mp ht with ⟨rfl, rfl, rfl⟩ | ⟨l, rfl, hl, rfl, hle2, hb, rfl⟩
    · simp only [Except.ok.injEq, Prod.mk.injEq] at h
      obtain ⟨rfl, rfl⟩ := h
      exact ⟨by simp [legalName], ⟨hr, trivial⟩, rfl, hle⟩
    · obtain ⟨⟨ls', c3⟩, hk, h⟩ := bind_eq_ok.mp h
      simp only [Except.ok.injEq, Prod.mk.injEq] at h
      obtain ⟨rfl, rfl⟩ := h
      obtain ⟨hlegal, hholds, rfl, hle3⟩ := ih hk
      rw [wireName_cons]
      refine ⟨?_, ?_, ?_, hle3⟩
      · intro x hx
        rcases List.mem_cons.mp hx with rfl | hx
        · exact hl
        · exact hlegal x hx
      · rw [Memory.holds_append]
        refine ⟨⟨hr, hb⟩, ?_⟩
        rwa [wireLabel_length, show cur + (l.length + 1) = cur + 1 + l.length by omega]
      · simp [wireLabel_length]
        omega

/-- A label that lies in the buffer is consumed, and the loop goes on behind it. -/
theorem nameDecode_label {l : Label} (hl : legalLabel l) (hb : inp.buf.holds cur (wireLabel l))
    (hle : cur + (wireLabel l).length ≤ inp.len) :
    nameDecode inp cur =
      (nameDecode inp (cur + (wireLabel l).length) >>= fun r => .ok (l :: r.1, r.2)) := by
  have h8 : rd8 inp cur = .ok (BitVec.ofNat 8 l.length, cur + 1) :=
    rd8_ok.mpr ⟨by simp [wireLabel_length] at hle; omega, hb.1, rfl⟩
  have ht : lenTurn inp (BitVec.ofNat 8 l.length) (cur + 1) = .ok (some l, cur + (wireLabel l).length) :=
    lenTurn_ok.mpr (.inr ⟨l, rfl, hl, rfl, by simp [wireLabel_length] at hle; omega, hb.2,
      by simp [wireLabel_length]; omega⟩)
  rw [nameDecode_eq, h8]
  simp only [ok_bind, ht]

/-- Labels that lie in the buffer are consumed one after another. -/
theorem nameDecode_labels (hls : legalName ls) (hb : inp.buf.holds cur (wireLabels ls))
    (hle : cur + (wireLabels ls).length ≤ inp.len) :
    nameDecode inp cur =
      (nameDecode inp (cur + (wireLabels ls).length) >>= fun r => .ok (ls ++ r.1, r.2)) := by
  induction ls generalizing cur with
  | nil =>
    simp only [wireLabels, List.flatMap_nil, List.length_nil, Nat.add_zero, List.nil_append]
    rcases nameDecode inp cur with e | r <;> rfl
  | cons l ls ih =>
    have hw : wireLabels (l :: ls) = wireLabel l ++ wireLabels ls := rfl
    rw [hw, List.length_append] at hle
    rw [hw, Memory.holds_append] at hb
    rw [nameDecode_label (hls l (by simp)) hb.1 (by omega),
      ih (fun x hx => hls x (by simp [hx])) hb.2 (by omega), hw, List.length_append, Nat.add_assoc]
    rcases nameDecode inp (cur + ((wireLabel l).length + (wireLabels ls).length)) with e | r <;> rfl

/-- R103, R105: `name_decode` accepts exactly the encoded names with labels of 1 to 63 bytes, of any total length. -/
theorem nameDecode_ok :
    nameDecode inp cur = .ok (ls, c) ↔
      legalName ls ∧ inp.buf.holds cur (wireName ls) ∧ c = cur + (wireName ls).length ∧ c ≤ inp.len := by
  constructor
  · exact nameLoop_sound _
  · rintro ⟨hls, hb, rfl, hle⟩
    rw [wireName, Memory.holds_append] at hb
    simp only [wireName, List.length_append, List.length_singleton] at hle ⊢
    rw [nameDecode_labels hls hb.1 (by omega), nameDecode_eq,
      rd8_ok.mpr ⟨by omega, hb.2.1, rfl⟩]
    simp only [ok_bind, lenTurn_end, List.append_nil, Nat.add_assoc]

/-! ### The errors raised -/

/-- R103: every way `name_decode` fails: behind some labels the buffer ends, or a reserved length octet stands, or the
buffer ends inside a label. -/
theorem nameDecode_raised {e : CodecError} :
    nameDecode inp cur = .error (.raised e) ↔
      (e = .unexpectedEndOfInput ∧ inp.len < cur) ∨
      ∃ ls, legalName ls ∧ inp.buf.holds cur (wireLabels ls) ∧ cur + (wireLabels ls).length ≤ inp.len ∧
        ((e = .unexpectedEndOfInput ∧ cur + (wireLabels ls).length = inp.len) ∨
          ∃ n, cur + (wireLabels ls).length < inp.len ∧ inp.buf.read (cur + (wireLabels ls).length) = some n ∧
            ((e = .unexpectedEndOfInput ∧ (1 ≤ n.toNat ∧ n.toNat ≤ 63) ∧
                inp.len < cur + (wireLabels ls).length + 1 + n.toNat) ∨
              (e = .invalidLabelLength ∧ 64 ≤ n.toNat))) := by
  constructor
  · intro h
    rw [nameDecode] at h
    have key : ∀ k cur, inp.len - cur < k → nameLoop inp k cur = .error (.raised e) →
        (e = .unexpectedEndOfInput ∧ inp.len < cur) ∨
        ∃ ls, legalName ls ∧ inp.buf.holds cur (wireLabels ls) ∧ cur + (wireLabels ls).length ≤ inp.len ∧
          ((e = .unexpectedEndOfInput ∧ cur + (wireLabels ls).length = inp.len) ∨
            ∃ n, cur + (wireLabels ls).length < inp.len ∧ inp.buf.read (cur + (wireLabels ls).length) = some n ∧
              ((e = .unexpectedEndOfInput ∧ (1 ≤ n.toNat ∧ n.toNat ≤ 63) ∧
                  inp.len < cur + (wireLabels ls).length + 1 + n.toNat) ∨
                (e = .invalidLabelLength ∧ 64 ≤ n.toNat))) := by
      intro k
      induction k with
      | zero => intro cur hk; omega
      | succ k ih =>
        intro cur hk h
        rw [nameLoop_succ] at h
        have hnil : legalName [] ∧ inp.buf.holds cur (wireLabels []) := ⟨by simp [legalName], trivial⟩
        rcases bind_eq_error.mp h with h8 | ⟨⟨n, c1⟩, h8, h⟩
        · obtain ⟨rfl, hlt⟩ := rd8_raised.mp h8
          by_cases hc : inp.len < cur
          · exact .inl ⟨rfl, hc⟩
          · exact .inr ⟨[], hnil.1, hnil.2, by simp [wireLabels]; omega, .inl ⟨rfl, by simp [wireLabels]; omega⟩⟩
        · obtain ⟨hle, hr, rfl⟩ := rd8_ok.mp h8
          rcases bind_eq_error.mp h with ht | ⟨⟨lab, c2⟩, ht, h⟩
          · refine .inr ⟨[], hnil.1, hnil.2, by simp [wireLabels]; omega, .inr ⟨n, by simp [wireLabels]; omega, hr, ?_⟩⟩
            simpa [wireLabels] using lenTurn_raised.mp ht
          · rcases lenTurn_ok.mp ht with ⟨-, rfl, -⟩ | ⟨l, rfl, hl, rfl, hle2, hb, rfl⟩
            · simp at h
            · rcases bind_eq_error.mp h with hk' | ⟨r, -, h⟩
              · rcases ih _ (by omega) hk' with ⟨-, hlt⟩ | ⟨ls, hls, hbs, hle3, hrest⟩
                · omega
                · have hw : wireLabels (l :: ls) = wireLabel l ++ wireLabels ls := rfl
                  have hat : cur + (wireLabels (l :: ls)).length = cur + 1 + l.length + (wireLabels ls).length := by
                    simp [hw, wireLabel_length]
                    omega
                  refine .inr ⟨l :: ls, ?_, ?_, by omega, ?_⟩
                  · intro x hx
                    rcases List.mem_cons.mp hx with rfl | hx
                    · exact hl
                    · exact hls x hx
                  · rw [hw, Memory.holds_append]
                    refine ⟨⟨hr, hb⟩, ?_⟩
                    rwa [wireLabel_length, show cur + (l.length + 1) = cur + 1 + l.length by omega]
                  · rw [hat]
                    exact hrest
              · simp at h
    exact key _ cur (by omega) h
  · rintro (⟨rfl, hlt⟩ | ⟨ls, hls, hb, hle, hrest⟩)
    · rw [nameDecode_eq, rd8_raised.mpr ⟨rfl, by omega⟩]
      rfl
    · rw [nameDecode_labels hls hb hle, nameDecode_eq]
      rcases hrest with ⟨rfl, heq⟩ | ⟨n, hlt, hr, hn⟩
      · rw [rd8_raised.mpr ⟨rfl, by omega⟩]
        rfl
      · rw [rd8_ok.mpr ⟨by omega, hr, rfl⟩]
        simp only [ok_bind]
        rw [lenTurn_raised.mpr hn]
        rfl

/-! ### Refusals and the bytes read -/

theorem lenTurn_neverRefuses {n : Byte} (hfill : filledBelow inp.len inp.buf) : neverRefuses (lenTurn inp n cur) := by
  rcases lenOctet_cases n with rfl | h | h
  · exact neverRefuses_ok _
  · rw [lenTurn_label inp n cur h]
    exact neverRefuses_bind (rdbytes_neverRefuses hfill) fun _ _ => neverRefuses_ok _
  · rw [lenTurn_invalid inp n cur h]
    exact neverRefuses_raise _

theorem nameLoop_neverRefuses (hfill : filledBelow inp.len inp.buf) (k cur : Nat) :
    neverRefuses (nameLoop inp k cur) := by
  induction k generalizing cur with
  | zero => exact neverRefuses_raise _
  | succ k ih =>
    rw [nameLoop_succ]
    refine neverRefuses_bind (rd8_neverRefuses hfill) fun p _ => ?_
    refine neverRefuses_bind (lenTurn_neverRefuses hfill) fun q _ => ?_
    rcases q with ⟨_ | l, d⟩
    · exact neverRefuses_ok _
    · exact neverRefuses_bind (ih d) fun _ _ => neverRefuses_ok _

theorem nameDecode_neverRefuses (hfill : filledBelow inp.len inp.buf) : neverRefuses (nameDecode inp cur) :=
  nameLoop_neverRefuses hfill _ cur

variable {m m' : Memory} {len : Nat} (hag : agreeBelow len m m')
include hag

theorem lenTurn_congr {n : Byte} : lenTurn ⟨m, len⟩ n cur = lenTurn ⟨m', len⟩ n cur := by
  simp only [lenTurn, rdbytes_congr hag]

theorem nameLoop_congr (k cur : Nat) : nameLoop ⟨m, len⟩ k cur = nameLoop ⟨m', len⟩ k cur := by
  induction k generalizing cur with
  | zero => rfl
  | succ k ih => simp only [nameLoop_succ, rd8_congr hag, lenTurn_congr hag, ih]

theorem nameDecode_congr : nameDecode ⟨m, len⟩ cur = nameDecode ⟨m', len⟩ cur := nameLoop_congr hag _ cur

end Sys2Proof.Machine
end

