-- ==== Sys2Proof/Laws/Hostnames.lean ====
section
/-! SUPPORT. Splitting a hostname at its separators and encoding it (R100). -/

namespace Sys2Proof.Machine

variable {h a b : List Byte} {ps ls : List Label} {out : List Byte}

/-! ### Splitting -/

@[simp] theorem splitDots_nil : splitDots [] = [[]] := rfl

@[simp] theorem splitDots_dot (h : List Byte) : splitDots (dot :: h) = [] :: splitDots h := by
  simp [splitDots]

theorem splitDots_ne_nil (h : List Byte) : splitDots h ≠ [] := by
  induction h with
  | nil => simp
  | cons b h ih =>
    simp only [splitDots]
    split
    · simp
    · split <;> simp

theorem splitDots_cons {b : Byte} (hb : b ≠ dot) (h : List Byte) :
    ∃ p ps, splitDots h = p :: ps ∧ splitDots (b :: h) = (b :: p) :: ps := by
  rcases hs : splitDots h with _ | ⟨p, ps⟩
  · exact absurd hs (splitDots_ne_nil h)
  · exact ⟨p, ps, rfl, by simp [splitDots, hb, hs]⟩

/-- Two hostnames joined by a separator split into the pieces of both. -/
theorem splitDots_append (a b : List Byte) : splitDots (a ++ dot :: b) = splitDots a ++ splitDots b := by
  induction a with
  | nil => simp
  | cons c a ih =>
    by_cases hc : c = dot
    · subst hc
      simp [ih]
    · obtain ⟨p, ps, h1, h2⟩ := splitDots_cons hc a
      obtain ⟨p', ps', h1', h2'⟩ := splitDots_cons hc (a ++ dot :: b)
      rw [ih, h1] at h1'
      simp only [List.cons_append, List.cons.injEq] at h1'
      rw [List.cons_append, h2', h2, ← h1'.1, ← h1'.2]
      rfl

theorem splitDots_no_dot {l : Label} (hl : dot ∉ l) : splitDots l = [l] := by
  induction l with
  | nil => rfl
  | cons c l ih =>
    simp only [List.mem_cons, not_or] at hl
    obtain ⟨p, ps, h1, h2⟩ := splitDots_cons (Ne.symm hl.1) l
    rw [ih hl.2] at h1
    simp only [List.cons.injEq] at h1
    rw [h2, ← h1.1, ← h1.2]

/-- A piece holds no separator. -/
theorem dot_not_mem_piece {p : Label} (hp : p ∈ splitDots h) : dot ∉ p := by
  induction h generalizing p with
  | nil => simp_all
  | cons c h ih =>
    by_cases hc : c = dot
    · subst hc
      rw [splitDots_dot] at hp
      rcases List.mem_cons.mp hp with rfl | hp
      · simp
      · exact ih hp
    · obtain ⟨q, qs, h1, h2⟩ := splitDots_cons hc h
      rw [h2] at hp
      rcases List.mem_cons.mp hp with rfl | hp
      · have := ih (p := q) (by simp [h1])
        simp [Ne.symm hc, this]
      · exact ih (by simp [h1, hp])

/-- Joining the pieces with single separators gives the hostname back. -/
theorem joinDots_splitDots (h : List Byte) : joinDots (splitDots h) = h := by
  induction h with
  | nil => rfl
  | cons c h ih =>
    by_cases hc : c = dot
    · subst hc
      rw [splitDots_dot]
      rcases hs : splitDots h with _ | ⟨p, ps⟩
      · exact absurd hs (splitDots_ne_nil h)
      · rw [hs] at ih
        simp [joinDots, ih]
    · obtain ⟨p, ps, h1, h2⟩ := splitDots_cons hc h
      rw [h2]
      rw [h1] at ih
      cases ps with
      | nil => simpa [joinDots] using ih
      | cons q qs => simpa [joinDots] using ih

/-- Splitting a joined list of separator-free labels gives the labels back. -/
theorem splitDots_joinDots (hne : ls ≠ []) (hls : ∀ l ∈ ls, dot ∉ l) : splitDots (joinDots ls) = ls := by
  induction ls with
  | nil => exact absurd rfl hne
  | cons l ls ih =>
    cases ls with
    | nil => exact splitDots_no_dot (hls l (by simp))
    | cons l' ls =>
      rw [joinDots, splitDots_append, splitDots_no_dot (hls l (by simp)), ih (by simp) (fun x hx => hls x (by simp [hx]))]
      · rfl
      · simp

/-- Bytes and separators add up: a hostname is one byte shorter than its pieces with a length octet each. -/
theorem splitDots_length (h : List Byte) : ((splitDots h).map (fun l => 1 + l.length)).sum = h.length + 1 := by
  induction h with
  | nil => rfl
  | cons c h ih =>
    by_cases hc : c = dot
    · subst hc
      simp [ih]
      omega
    · obtain ⟨p, ps, h1, h2⟩ := splitDots_cons hc h
      rw [h1] at ih
      rw [h2]
      simp at ih ⊢
      omega

/-! ### Encoding -/

theorem encodePieces_ok :
    encodePieces ps = .ok out ↔
      (∀ p ∈ ps, p.length ≤ 63) ∧ out = wireLabels (ps.filter (fun l => l != [])) := by
  induction ps generalizing out with
  | nil => simp [encodePieces, wireLabels, eq_comm]
  | cons p ps ih =>
    simp only [encodePieces, List.length_eq_zero_iff]
    split
    · rename_i hp
      subst hp
      simp [ih]
    · rename_i hp
      split
      · rename_i hlong
        simp only [raise_ne_ok, List.mem_cons, forall_eq_or_imp, false_iff]
        rintro ⟨⟨h, -⟩, -⟩
        simp [Config.labelMax] at hlong
        omega
      · rename_i hshort
        have : p.length ≤ 63 := by simpa [Config.labelMax] using hshort
        simp only [bind_eq_ok, ih, pure_eq_ok, Except.ok.injEq, List.mem_cons, forall_eq_or_imp, this, true_and]
        have hf : (p :: ps).filter (fun l => l != []) = p :: ps.filter (fun l => l != []) := by simp [hp]
        rw [hf]
        constructor
        · rintro ⟨_, ⟨h, rfl⟩, rfl⟩
          exact ⟨h, rfl⟩
        · rintro ⟨h, rfl⟩
          exact ⟨_, ⟨h, rfl⟩, rfl⟩

theorem encodePieces_error {e : Halt} :
    encodePieces ps = .error e ↔ e = .raised .labelTooLong ∧ ∃ p ∈ ps, 63 < p.length := by
  induction ps with
  | nil => simp [encodePieces]
  | cons p ps ih =>
    simp only [encodePieces, List.length_eq_zero_iff]
    split
    · rename_i hp
      subst hp
      simp [ih]
    · split
      · rename_i hlong
        have : 63 < p.length := by simpa [Config.labelMax] using hlong
        simp [this]
      · rename_i hshort
        have : ¬ 63 < p.length := by simpa [Config.labelMax] using hshort
        simp [bind_eq_error, ih, this]

theorem pieces_short_iff : (∀ p ∈ splitDots h, p.length ≤ 63) ↔ ∀ l ∈ hostLabels h, l.length ≤ 63 := by
  constructor
  · intro hp l hl
    exact hp l (List.mem_filter.mp hl).1
  · intro hl p hp
    by_cases hn : p = []
    · simp [hn]
    · exact hl p (List.mem_filter.mpr ⟨hp, by simpa using hn⟩)

/-- R100: the encoder accepts a hostname exactly when every label is at most 63 bytes and the encoded name at most 255, and
then delivers the wire form of its non-empty pieces. -/
theorem nameEncode_ok :
    nameEncode h = .ok out ↔
      (∀ l ∈ hostLabels h, l.length ≤ 63) ∧ out = wireName (hostLabels h) ∧ out.length ≤ 255 := by
  simp only [nameEncode, bind_eq_ok, encodePieces_ok, pieces_short_iff, pure_eq_ok]
  constructor
  · rintro ⟨_, ⟨h1, rfl⟩, h2⟩
    split at h2
    · simp at h2
    · rename_i hle
      simp only [Except.ok.injEq] at h2
      subst h2
      exact ⟨h1, rfl, by simpa [Config.nameMax] using hle⟩
  · rintro ⟨h1, rfl, h2⟩
    refine ⟨_, ⟨h1, rfl⟩, ?_⟩
    rw [if_neg]
    · rfl
    · simpa [Config.nameMax, wireName, hostLabels] using h2

/-- R100, R178, decision D8: every label is checked before the total. -/
theorem nameEncode_error {e : Halt} :
    nameEncode h = .error e ↔
      (e = .raised .labelTooLong ∧ ∃ l ∈ hostLabels h, 63 < l.length) ∨
      (e = .raised .nameTooLong ∧ (∀ l ∈ hostLabels h, l.length ≤ 63) ∧ 255 < (wireName (hostLabels h)).length) := by
  have hex : (∃ p ∈ splitDots h, 63 < p.length) ↔ ∃ l ∈ hostLabels h, 63 < l.length := by
    have := not_congr (pieces_short_iff (h := h))
    push Not at this
    simpa using this
  simp only [nameEncode, bind_eq_error, encodePieces_error, hex, encodePieces_ok, pieces_short_iff, pure_eq_ok]
  constructor
  · rintro (h | ⟨_, ⟨h1, rfl⟩, h2⟩)
    · exact .inl h
    · split at h2
      · rename_i hlt
        simp only [raise_eq_error] at h2
        exact .inr ⟨h2, h1, by simpa [Config.nameMax, wireName, hostLabels] using hlt⟩
      · simp at h2
  · rintro (h | ⟨rfl, h1, h2⟩)
    · exact .inl h
    · refine .inr ⟨_, ⟨h1, rfl⟩, ?_⟩
      rw [if_pos]
      · rfl
      · simpa [Config.nameMax, wireName, hostLabels] using h2

/-- Every label of a hostname is non-empty and holds no separator. -/
theorem hostLabels_spec {l : Label} (hl : l ∈ hostLabels h) : l ≠ [] ∧ dot ∉ l := by
  obtain ⟨h1, h2⟩ := List.mem_filter.mp hl
  exact ⟨by simpa using h2, dot_not_mem_piece h1⟩

/-- The labels of an accepted hostname are legal on the wire. -/
theorem hostLabels_legal (hs : ∀ l ∈ hostLabels h, l.length ≤ 63) : legalName (hostLabels h) := by
  intro l hl
  have := (hostLabels_spec hl).1
  exact ⟨List.length_pos_iff.mpr this, hs l hl⟩

theorem hostLabels_of_no_empty (hne : [] ∉ splitDots h) : hostLabels h = splitDots h := by
  rw [hostLabels, List.filter_eq_self]
  intro l hl
  simp only [bne_iff_ne, ne_eq]
  rintro rfl
  exact hne hl

end Sys2Proof.Machine
end

