-- ==== Sys2Proof/Laws/Parsers.lean ====
section
/-! SUPPORT. The question and record parsers (R130, R132) and the record loop (R155): what they accept, which errors they
raise, that a filled buffer never refuses them, that they read the bytes below `ILEN` only. -/

namespace Sys2Proof.Machine

variable {inp : Input} {cur c : Nat} {q : Question} {r : Record} {rs : List Record} {e : CodecError}

/-! ### Acceptance -/

/-- R130: `question_parse` accepts exactly the wire questions of a known type; the class is any. -/
theorem questionParse_ok :
    questionParse inp cur = .ok (q, c) ↔
      legalQuestion q ∧ inp.buf.holds cur (wireQuestion q) ∧ c = cur + (wireQuestion q).length ∧ c ≤ inp.len := by
  obtain ⟨name, qtype, qclass⟩ := q
  simp only [questionParse, bind_eq_ok, Prod.exists, nameDecode_ok, rd16_ok, rtypeDecode_ok, pure_eq_ok, Except.ok.injEq,
    Prod.mk.injEq, Question.mk.injEq, legalQuestion, wireQuestion, Memory.holds_append, List.length_append, be16_length]
  constructor
  · rintro ⟨_, _, ⟨h1, h2, rfl, h3⟩, _, _, ⟨h4, h5, rfl⟩, _, ⟨rfl, h6⟩, _, _, ⟨h7, h8, rfl⟩, ⟨rfl, rfl, rfl⟩, rfl⟩
    exact ⟨⟨h1, h6⟩, ⟨⟨h2, h5⟩, by rwa [← Nat.add_assoc]⟩, by omega, by omega⟩
  · rintro ⟨⟨h1, h6⟩, ⟨⟨h2, h5⟩, h8⟩, rfl, h7⟩
    exact ⟨_, _, ⟨h1, h2, rfl, by omega⟩, _, _, ⟨by omega, h5, rfl⟩, _, ⟨rfl, h6⟩, _, _,
      ⟨by omega, by rwa [Nat.add_assoc], rfl⟩, ⟨rfl, rfl, rfl⟩, by omega⟩

theorem wireRecordFixed_length (r : Record) : (wireRecordFixed r).length = 10 := rfl

/-- R132, R134: `rr_parse` accepts exactly the wire records of a known type whose RDATA has RDLENGTH bytes. -/
theorem rrParse_ok :
    rrParse inp cur = .ok (r, c) ↔
      legalRecord r ∧ inp.buf.holds cur (wireRecord r) ∧ c = cur + (wireRecord r).length ∧ c ≤ inp.len := by
  obtain ⟨name, rtype, rclass, ttl, rdlength, rdata⟩ := r
  simp only [rrParse, bind_eq_ok, Prod.exists, nameDecode_ok, rd16_ok, rd32_ok, rdbytes_ok, rtypeDecode_ok, pure_eq_ok,
    Except.ok.injEq, Prod.mk.injEq, Record.mk.injEq, legalRecord, wireRecord, wireRecordFixed, Memory.holds_append,
    List.length_append, be16_length, be32_length]
  constructor
  · rintro ⟨_, _, ⟨h1, h2, rfl, -⟩, _, _, ⟨-, h5, rfl⟩, _, ⟨rfl, h6⟩, _, _, ⟨-, h8, rfl⟩, _, _, ⟨-, h10, rfl⟩, _, _,
      ⟨-, h12, rfl⟩, _, _, ⟨h13, h14, h15, rfl⟩, ⟨rfl, rfl, rfl, rfl, rfl, rfl⟩, rfl⟩
    refine ⟨⟨h1, h6, h14⟩, ⟨⟨h2, ⟨⟨h5, ?_⟩, ?_⟩, ?_⟩, ?_⟩, by omega, by omega⟩
    · exact h8
    · rwa [Nat.add_assoc] at h10
    · rwa [Nat.add_assoc, Nat.add_assoc] at h12
    · rw [Nat.add_assoc, Nat.add_assoc, Nat.add_assoc, Nat.add_assoc] at h15
      exact h15
  · rintro ⟨⟨h1, h6, h14⟩, ⟨⟨h2, ⟨⟨h5, h8⟩, h10⟩, h12⟩, h15⟩, rfl, hle⟩
    refine ⟨_, _, ⟨h1, h2, rfl, by omega⟩, _, _, ⟨by omega, h5, rfl⟩, _, ⟨rfl, h6⟩, _, _, ⟨by omega, h8, rfl⟩, _, _,
      ⟨by omega, ?_, rfl⟩, _, _, ⟨by omega, ?_, rfl⟩, _, _, ⟨by omega, h14, ?_, rfl⟩, ⟨rfl, rfl, rfl, rfl, rfl, rfl⟩,
      by omega⟩
    · rwa [Nat.add_assoc]
    · rwa [Nat.add_assoc, Nat.add_assoc]
    · rw [Nat.add_assoc, Nat.add_assoc, Nat.add_assoc, Nat.add_assoc]
      exact h15

theorem wireRecord_length (r : Record) (h : legalRecord r) :
    (wireRecord r).length = (wireName r.name).length + 10 + r.rdlength.toNat := by
  simp only [wireRecord, List.length_append, wireRecordFixed_length, h.2.2]

/-- R134 d: a record takes at least 11 bytes. -/
theorem wireRecord_length_ge (r : Record) : 11 ≤ (wireRecord r).length := by
  have := wireName_length_pos r.name
  simp [wireRecord, wireRecordFixed_length]
  omega

/-- R155: the record loop accepts exactly the concatenation of its n records. -/
theorem parseRecords_ok {n : Nat} :
    parseRecords inp n cur = .ok (rs, c) ↔
      rs.length = n ∧ (∀ r ∈ rs, legalRecord r) ∧ inp.buf.holds cur (rs.flatMap wireRecord) ∧
        c = cur + (rs.flatMap wireRecord).length ∧ (rs ≠ [] → c ≤ inp.len) := by
  induction n generalizing cur rs c with
  | zero =>
    simp only [parseRecords, Except.ok.injEq, Prod.mk.injEq, List.length_eq_zero_iff]
    constructor
    · rintro ⟨rfl, rfl⟩
      simp
    · rintro ⟨rfl, -, -, rfl, -⟩
      simp
  | succ n ih =>
    simp only [parseRecords, bind_eq_ok, Prod.exists, rrParse_ok, ih, pure_eq_ok, Except.ok.injEq, Prod.mk.injEq]
    constructor
    · rintro ⟨r, _, ⟨h1, h2, rfl, h3⟩, rs, _, ⟨rfl, h4, h5, rfl, h6⟩, rfl, rfl⟩
      refine ⟨rfl, ?_, ?_, ?_, ?_⟩
      · intro x hx
        rcases List.mem_cons.mp hx with rfl | hx
        · exact h1
        · exact h4 x hx
      · rw [List.flatMap_cons, Memory.holds_append]
        exact ⟨h2, h5⟩
      · simp [Nat.add_assoc]
      · intro _
        by_cases hrs : rs = []
        · subst hrs
          simpa using h3
        · exact h6 hrs
    · rintro ⟨hl, h4, h5, rfl, h6⟩
      cases rs with
      | nil => simp at hl
      | cons r rs =>
        rw [List.flatMap_cons, Memory.holds_append] at h5
        have h6 := h6 (by simp)
        simp only [List.flatMap_cons, List.length_append] at h6 ⊢
        exact ⟨r, _, ⟨h4 r (by simp), h5.1, rfl, by omega⟩, rs, _,
          ⟨by simpa using hl, fun x hx => h4 x (by simp [hx]), h5.2, rfl, fun _ => by omega⟩, rfl, by omega⟩

/-- Records that lie in the buffer are consumed one after another; what the loop gives behind them it gives as a whole. -/
theorem parseRecords_behind {n : Nat} {h : Halt} (hrs : ∀ r ∈ rs, legalRecord r)
    (hb : inp.buf.holds cur (rs.flatMap wireRecord)) (hle : cur + (rs.flatMap wireRecord).length ≤ inp.len)
    (hn : rs.length < n) (he : rrParse inp (cur + (rs.flatMap wireRecord).length) = .error h) :
    parseRecords inp n cur = .error h := by
  induction rs generalizing cur n with
  | nil =>
    obtain ⟨n, rfl⟩ : ∃ k, n = k + 1 := ⟨n - 1, by simp only [List.length_nil] at hn; omega⟩
    simp only [parseRecords, show rrParse inp cur = .error h from he, error_bind]
  | cons r rs ih =>
    obtain ⟨n, rfl⟩ : ∃ k, n = k + 1 := ⟨n - 1, by simp only [List.length_cons] at hn; omega⟩
    simp only [List.flatMap_cons, Memory.holds_append, List.length_append, ← Nat.add_assoc, List.length_cons] at hb hle he hn
    have hr : rrParse inp cur = .ok (r, cur + (wireRecord r).length) :=
      rrParse_ok.mpr ⟨hrs r (by simp), hb.1, rfl, by omega⟩
    have ht : parseRecords inp n (cur + (wireRecord r).length) = .error h :=
      ih (fun x hx => hrs x (by simp [hx])) hb.2 hle (by omega) he
    simp only [parseRecords, hr, ok_bind, ht, error_bind]

/-- R156: n records take at least 11 n bytes. -/
theorem flatMap_wireRecord_length (rs : List Record) : 11 * rs.length ≤ (rs.flatMap wireRecord).length := by
  induction rs with
  | nil => simp
  | cons r rs ih =>
    have := wireRecord_length_ge r
    simp only [List.flatMap_cons, List.length_append, List.length_cons]
    omega

/-! ### The errors (R170) -/

/-- The errors a decoding function over a name and a type can raise. -/
def parseError (e : CodecError) : Prop :=
  e = .unexpectedEndOfInput ∨ e = .invalidLabelLength ∨ ∃ t, e = .unknownRecordType t ∧ ¬ knownType t

theorem nameDecode_error_cases (h : nameDecode inp cur = .error (.raised e)) :
    e = .unexpectedEndOfInput ∨ e = .invalidLabelLength := by
  rcases nameDecode_raised.mp h with ⟨h, -⟩ | ⟨_, -, -, -, ⟨h, -⟩ | ⟨_, -, -, ⟨h, -⟩ | ⟨h, -⟩⟩⟩ <;> simp [h]

theorem questionParse_error_cases (h : questionParse inp cur = .error (.raised e)) : parseError e := by
  simp only [questionParse, bind_eq_error, rtypeDecode_error, rd16_raised, Halt.raised.injEq, pure_eq_ok, reduceCtorEq,
    and_false, exists_false, or_false] at h
  rcases h with h | ⟨_, -, ⟨rfl, -⟩ | ⟨_, -, ⟨rfl, h⟩ | ⟨_, -, rfl, -⟩⟩⟩
  · rcases nameDecode_error_cases h with h | h <;> simp [parseError, h]
  · simp [parseError]
  · exact .inr (.inr ⟨_, rfl, h⟩)
  · simp [parseError]

theorem rrParse_error_cases (h : rrParse inp cur = .error (.raised e)) : parseError e := by
  simp only [rrParse, bind_eq_error, rtypeDecode_error, rd16_raised, rd32_raised, rdbytes_raised, Halt.raised.injEq,
    pure_eq_ok, reduceCtorEq, and_false, exists_false, or_false] at h
  rcases h with h | ⟨_, -, ⟨rfl, -⟩ | ⟨_, -, ⟨rfl, h⟩ | ⟨_, -, ⟨rfl, -⟩ | ⟨_, -, ⟨rfl, -⟩ | ⟨_, -, ⟨rfl, -⟩ | ⟨_, -, rfl, -⟩⟩⟩⟩⟩⟩
  · rcases nameDecode_error_cases h with h | h <;> simp [parseError, h]
  · simp [parseError]
  · exact .inr (.inr ⟨_, rfl, h⟩)
  all_goals simp [parseError]

theorem parseRecords_error_cases {n : Nat} (h : parseRecords inp n cur = .error (.raised e)) : parseError e := by
  induction n generalizing cur with
  | zero => simp [parseRecords] at h
  | succ n ih =>
    simp only [parseRecords, bind_eq_error, pure_eq_ok, reduceCtorEq, and_false, exists_false, or_false] at h
    rcases h with h | ⟨_, -, h⟩
    · exact rrParse_error_cases h
    · exact ih h

/-! ### Refusals -/

theorem rtypeDecode_neverRefuses (v : Half) : neverRefuses (rtypeDecode v) := by
  simp [neverRefuses, rtypeDecode_error]

theorem rcodeDecode_neverRefuses (v : Half) : neverRefuses (rcodeDecode v) := by
  simp [neverRefuses, rcodeDecode_error]

section
variable (hfill : filledBelow inp.len inp.buf)
include hfill

theorem questionParse_neverRefuses : neverRefuses (questionParse inp cur) := by
  refine neverRefuses_bind (nameDecode_neverRefuses hfill) fun p _ => ?_
  refine neverRefuses_bind (rd16_neverRefuses hfill) fun p _ => ?_
  refine neverRefuses_bind (rtypeDecode_neverRefuses _) fun p _ => ?_
  exact neverRefuses_bind (rd16_neverRefuses hfill) fun p _ => neverRefuses_ok _

theorem rrParse_neverRefuses : neverRefuses (rrParse inp cur) := by
  refine neverRefuses_bind (nameDecode_neverRefuses hfill) fun p _ => ?_
  refine neverRefuses_bind (rd16_neverRefuses hfill) fun p _ => ?_
  refine neverRefuses_bind (rtypeDecode_neverRefuses _) fun p _ => ?_
  refine neverRefuses_bind (rd16_neverRefuses hfill) fun p _ => ?_
  refine neverRefuses_bind (rd32_neverRefuses hfill) fun p _ => ?_
  refine neverRefuses_bind (rd16_neverRefuses hfill) fun p _ => ?_
  exact neverRefuses_bind (rdbytes_neverRefuses hfill) fun p _ => neverRefuses_ok _

theorem parseRecords_neverRefuses (n : Nat) : neverRefuses (parseRecords inp n cur) := by
  induction n generalizing cur with
  | zero => exact neverRefuses_ok _
  | succ n ih =>
    refine neverRefuses_bind (rrParse_neverRefuses hfill) fun p _ => ?_
    exact neverRefuses_bind ih fun p _ => neverRefuses_ok _

end

/-! ### The bytes read -/

variable {m m' : Memory} {len : Nat} (hag : agreeBelow len m m')
include hag

theorem questionParse_congr : questionParse ⟨m, len⟩ cur = questionParse ⟨m', len⟩ cur := by
  simp only [questionParse, nameDecode_congr hag, rd16_congr hag]

theorem rrParse_congr : rrParse ⟨m, len⟩ cur = rrParse ⟨m', len⟩ cur := by
  simp only [rrParse, nameDecode_congr hag, rd16_congr hag, rd32_congr hag, rdbytes_congr hag]

theorem parseRecords_congr (n : Nat) : parseRecords ⟨m, len⟩ n cur = parseRecords ⟨m', len⟩ n cur := by
  induction n generalizing cur with
  | zero => rfl
  | succ n ih => simp only [parseRecords, rrParse_congr hag, ih]

end Sys2Proof.Machine
end

