-- ==== Sys2Proof/Laws/Messages.lean ====
section
/-! SUPPORT. The message decoder (R150): the messages it accepts, and the stage and error of every failure (R158). -/

namespace Sys2Proof.Machine

variable {α : Type} {st st' : Stage} {r : Run α} {v : α} {h : Halt}

@[simp] theorem inStage_ok : inStage st r = .ok v ↔ r = .ok v := by
  cases r <;> simp [inStage]

@[simp] theorem inStage_error : inStage st r = .error (st', h) ↔ st = st' ∧ r = .error h := by
  cases r <;> simp [inStage]

theorem checkId_ok {expected id : Half} {u : Unit} : checkId expected id = .ok u ↔ id = expected := by
  unfold checkId
  split <;> simp_all

theorem checkId_error {expected id : Half} :
    checkId expected id = .error h ↔ id ≠ expected ∧ h = .raised (.transactionIdMismatch expected id) := by
  unfold checkId
  split <;> simp_all

theorem wireHeader_length (h : MessageHeader) : (wireHeader h).length = 12 := rfl

variable {inp : Input} {expected : Half} {m : Message}

/-- R150, R156: DECMSG accepts exactly the wire messages that carry the expected id, a response code in 0..5, a legal
question, and as many legal records as the counts promise; bytes behind them are not looked at. -/
theorem decodeMessage_ok :
    decodeMessage .counts expected inp = .ok m ↔
      m.header.id = expected ∧ (hdrDecode m.header.flags).rcode.toNat ≤ 5 ∧ m.fields = hdrDecode m.header.flags ∧
        legalQuestion m.question ∧ (∀ r ∈ m.records, legalRecord r) ∧
        m.records.length = promisedRecords m.header ∧
        inp.buf.holds 0 (wireMessage m.header m.question m.records) ∧
        m.endCur = (wireMessage m.header m.question m.records).length ∧ m.endCur ≤ inp.len := by
  obtain ⟨⟨id, w, qd, an, ns, ar⟩, f, q, rs, c⟩ := m
  simp only [decodeMessage, bind_eq_ok, inStage_ok, Prod.exists, rd16_ok, checkId_ok, rcodeDecode_ok, questionParse_ok,
    parseSections, parseRecords_ok, pure_eq_ok, Except.ok.injEq, Message.mk.injEq, MessageHeader.mk.injEq, wireMessage,
    wireHeader, Memory.holds_append, List.length_append, be16_length, promisedRecords]
  constructor
  · rintro ⟨_, _, ⟨-, h1, rfl⟩, _, rfl, w, _, ⟨-, h2, rfl⟩, _, ⟨-, h3⟩, _, _, ⟨-, h4, rfl⟩, _, _, ⟨-, h5, rfl⟩, _, _,
      ⟨-, h6, rfl⟩, _, _, ⟨-, h7, rfl⟩, _, _, ⟨h8, h9, rfl, h10⟩, rs, _, ⟨h11, h12, h13, rfl, h14⟩,
      ⟨rfl, rfl, rfl, rfl, rfl, rfl⟩, rfl, rfl, rfl, rfl⟩
    have hw : (hdrDecode w).rcode.toNat ≤ 5 := by
      have := (hdrDecode w).rcode.isLt
      simp only [BitVec.toNat_setWidth] at h3
      omega
    refine ⟨rfl, hw, rfl, h8, h12, h11, ⟨⟨⟨⟨⟨⟨⟨h1, h2⟩, h4⟩, h5⟩, h6⟩, h7⟩, ?_⟩, ?_⟩, by omega, ?_⟩
    · simpa using h9
    · simpa using h13
    · by_cases hrs : rs = []
      · subst hrs
        simpa using h10
      · exact h14 hrs
  · rintro ⟨rfl, hw, rfl, h8, h12, h11, ⟨⟨⟨⟨⟨⟨⟨h1, h2⟩, h4⟩, h5⟩, h6⟩, h7⟩, h9⟩, h13⟩, rfl, hle⟩
    refine ⟨_, _, ⟨by omega, h1, rfl⟩, (), rfl, _, _, ⟨by omega, h2, rfl⟩, (hdrDecode w).rcode, ⟨rfl, ?_⟩, _, _,
      ⟨by omega, h4, rfl⟩, _, _, ⟨by omega, h5, rfl⟩, _, _, ⟨by omega, h6, rfl⟩, _, _, ⟨by omega, h7, rfl⟩, _, _,
      ⟨h8, by simpa using h9, rfl, by omega⟩, rs, _, ⟨h11, h12, by simpa using h13, rfl, fun _ => by omega⟩,
      ⟨rfl, rfl, rfl, rfl, rfl, rfl⟩, rfl, rfl, rfl, by omega⟩
    have := (hdrDecode w).rcode.isLt
    simp only [BitVec.toNat_setWidth]
    omega

/-- Behind an accepted header `decode_message` is the question and the records. -/
theorem decodeMessage_behindHeader {h : MessageHeader} (p : RecordCountPolicy)
    (hrc : (hdrDecode h.flags).rcode.toNat ≤ 5) (hb : inp.buf.holds 0 (wireHeader h)) (hle : 12 ≤ inp.len) :
    decodeMessage p h.id inp =
      (inStage .question (questionParse inp 12) >>= fun r =>
        inStage .records (parseSections p h.ancount h.nscount h.arcount inp r.2) >>= fun x =>
        .ok ⟨h, hdrDecode h.flags, r.1, x.1, x.2⟩) := by
  simp only [wireHeader, Memory.holds_append, List.length_append, be16_length, Nat.reduceAdd, Nat.zero_add] at hb
  obtain ⟨⟨⟨⟨⟨h0, h1⟩, h2⟩, h3⟩, h4⟩, h5⟩ := hb
  have hc : rcodeDecode ((hdrDecode h.flags).rcode.setWidth 16) = .ok (hdrDecode h.flags).rcode := by
    refine rcodeDecode_ok.mpr ⟨rfl, ?_⟩
    have := (hdrDecode h.flags).rcode.isLt
    simp only [BitVec.toNat_setWidth]
    omega
  have hi : checkId h.id h.id = .ok () := checkId_ok.mpr rfl
  simp only [decodeMessage, rd16_ok.mpr ⟨(by omega : 0 + 2 ≤ inp.len), h0, rfl⟩,
    rd16_ok.mpr ⟨(by omega : 2 + 2 ≤ inp.len), h1, rfl⟩, rd16_ok.mpr ⟨(by omega : 4 + 2 ≤ inp.len), h2, rfl⟩,
    rd16_ok.mpr ⟨(by omega : 6 + 2 ≤ inp.len), h3, rfl⟩, rd16_ok.mpr ⟨(by omega : 8 + 2 ≤ inp.len), h4, rfl⟩,
    rd16_ok.mpr ⟨(by omega : 10 + 2 ≤ inp.len), h5, rfl⟩, hi, hc, inStage, ok_bind, Nat.reduceAdd,
    Nat.zero_add]
  rfl

/-- R158: the stage of a failure and the errors each stage can raise. -/
def stageError (st : Stage) (e : CodecError) (expected : Half) : Prop :=
  match st with
  | .transactionIdCheck =>
    e = .unexpectedEndOfInput ∨ ∃ id, id ≠ expected ∧ e = .transactionIdMismatch expected id
  | .header => e = .unexpectedEndOfInput ∨ ∃ v, 6 ≤ v.toNat ∧ v.toNat ≤ 15 ∧ e = .unknownResponseCode v
  | .question | .records => parseError e
  | .start | .done => False

theorem decodeMessage_raised {e : CodecError}
    (h : decodeMessage .counts expected inp = .error (st, .raised e)) : stageError st e expected := by
  simp only [decodeMessage, bind_eq_error, inStage_error, inStage_ok, rd16_raised, checkId_error, rcodeDecode_error,
    Halt.raised.injEq, parseSections, pure_eq_ok, reduceCtorEq, and_false, exists_false, or_false] at h
  rcases h with ⟨rfl, rfl, -⟩ | ⟨_, -, ⟨rfl, h, rfl⟩ | ⟨_, -, ⟨rfl, rfl, -⟩ | ⟨_, -, ⟨rfl, rfl, h⟩ | ⟨_, -, ⟨rfl, rfl, -⟩ |
    ⟨_, -, ⟨rfl, rfl, -⟩ | ⟨_, -, ⟨rfl, rfl, -⟩ | ⟨_, -, ⟨rfl, rfl, -⟩ | ⟨_, -, ⟨rfl, h⟩ | ⟨_, -, rfl, h⟩⟩⟩⟩⟩⟩⟩⟩⟩
  · exact .inl rfl
  · exact .inr ⟨_, h, rfl⟩
  · exact .inl rfl
  · refine .inr ⟨_, h, ?_, rfl⟩
    have := (hdrDecode (by assumption : Half × Nat).1).rcode.isLt
    simp only [BitVec.toNat_setWidth]
    omega
  · exact .inl rfl
  · exact .inl rfl
  · exact .inl rfl
  · exact .inl rfl
  · exact questionParse_error_cases h
  · exact parseRecords_error_cases h

/-- No refusal in any stage. -/
theorem decodeMessage_neverRefuses (hfill : filledBelow inp.len inp.buf) (st : Stage) (why : Refusal) :
    decodeMessage .counts expected inp ≠ .error (st, .refused why) := by
  intro h
  simp only [decodeMessage, bind_eq_error, inStage_error, inStage_ok, parseSections, pure_eq_ok, reduceCtorEq,
    and_false, exists_false, or_false, checkId_error] at h
  rcases h with ⟨-, h⟩ | ⟨_, -, h | ⟨_, -, ⟨-, h⟩ | ⟨_, -, ⟨-, h⟩ | ⟨_, -, ⟨-, h⟩ | ⟨_, -, ⟨-, h⟩ | ⟨_, -, ⟨-, h⟩ |
    ⟨_, -, ⟨-, h⟩ | ⟨_, -, ⟨-, h⟩ | ⟨_, -, -, h⟩⟩⟩⟩⟩⟩⟩⟩⟩
  · exact rd16_neverRefuses hfill _ h
  · exact h
  · exact rd16_neverRefuses hfill _ h
  · exact rcodeDecode_neverRefuses _ _ h
  · exact rd16_neverRefuses hfill _ h
  · exact rd16_neverRefuses hfill _ h
  · exact rd16_neverRefuses hfill _ h
  · exact rd16_neverRefuses hfill _ h
  · exact questionParse_neverRefuses hfill _ h
  · exact parseRecords_neverRefuses hfill _ _ h

theorem decodeMessage_congr {b b' : Memory} {len : Nat} (hag : agreeBelow len b b') :
    decodeMessage .counts expected ⟨b, len⟩ = decodeMessage .counts expected ⟨b', len⟩ := by
  simp only [decodeMessage, parseSections, rd16_congr hag, questionParse_congr hag, parseRecords_congr hag]

end Sys2Proof.Machine
end

