-- ==== Sys2Proof/Laws/State.lean ====
section
/-! SUPPORT. One lemma per field per update of State, so that no later proof unfolds a record update. -/

namespace Sys2Proof.Machine

variable (s : State)

section putVal
variable (v : Held Word)
@[simp] theorem State.putVal_cmd : (s.putVal v).cmd = s.cmd := rfl
@[simp] theorem State.putVal_ilen : (s.putVal v).ilen = s.ilen := rfl
@[simp] theorem State.putVal_hlen : (s.putVal v).hlen = s.hlen := rfl
@[simp] theorem State.putVal_cur : (s.putVal v).cur = s.cur := rfl
@[simp] theorem State.putVal_txid : (s.putVal v).txid = s.txid := rfl
@[simp] theorem State.putVal_arg : (s.putVal v).arg = s.arg := rfl
@[simp] theorem State.putVal_hf : (s.putVal v).hf = s.hf := rfl
@[simp] theorem State.putVal_val : (s.putVal v).val =
    v := rfl
@[simp] theorem State.putVal_olen : (s.putVal v).olen = s.olen := rfl
@[simp] theorem State.putVal_err : (s.putVal v).err = s.err := rfl
@[simp] theorem State.putVal_einfo0 : (s.putVal v).einfo0 = s.einfo0 := rfl
@[simp] theorem State.putVal_einfo1 : (s.putVal v).einfo1 = s.einfo1 := rfl
@[simp] theorem State.putVal_stage : (s.putVal v).stage = s.stage := rfl
@[simp] theorem State.putVal_msg : (s.putVal v).msg = s.msg := rfl
@[simp] theorem State.putVal_qst : (s.putVal v).qst = s.qst := rfl
@[simp] theorem State.putVal_name : (s.putVal v).name = s.name := rfl
@[simp] theorem State.putVal_nrec : (s.putVal v).nrec = s.nrec := rfl
@[simp] theorem State.putVal_recs : (s.putVal v).recs = s.recs := rfl
@[simp] theorem State.putVal_ibuf : (s.putVal v).ibuf = s.ibuf := rfl
@[simp] theorem State.putVal_obuf : (s.putVal v).obuf = s.obuf := rfl
@[simp] theorem State.putVal_hbuf : (s.putVal v).hbuf = s.hbuf := rfl
@[simp] theorem State.putVal_req : (s.putVal v).req = s.req := rfl
end putVal

section putCur
variable (c : Held Nat)
@[simp] theorem State.putCur_cmd : (s.putCur c).cmd = s.cmd := rfl
@[simp] theorem State.putCur_ilen : (s.putCur c).ilen = s.ilen := rfl
@[simp] theorem State.putCur_hlen : (s.putCur c).hlen = s.hlen := rfl
@[simp] theorem State.putCur_cur : (s.putCur c).cur =
    c.map toCur := rfl
@[simp] theorem State.putCur_txid : (s.putCur c).txid = s.txid := rfl
@[simp] theorem State.putCur_arg : (s.putCur c).arg = s.arg := rfl
@[simp] theorem State.putCur_hf : (s.putCur c).hf = s.hf := rfl
@[simp] theorem State.putCur_val : (s.putCur c).val = s.val := rfl
@[simp] theorem State.putCur_olen : (s.putCur c).olen = s.olen := rfl
@[simp] theorem State.putCur_err : (s.putCur c).err = s.err := rfl
@[simp] theorem State.putCur_einfo0 : (s.putCur c).einfo0 = s.einfo0 := rfl
@[simp] theorem State.putCur_einfo1 : (s.putCur c).einfo1 = s.einfo1 := rfl
@[simp] theorem State.putCur_stage : (s.putCur c).stage = s.stage := rfl
@[simp] theorem State.putCur_msg : (s.putCur c).msg = s.msg := rfl
@[simp] theorem State.putCur_qst : (s.putCur c).qst = s.qst := rfl
@[simp] theorem State.putCur_name : (s.putCur c).name = s.name := rfl
@[simp] theorem State.putCur_nrec : (s.putCur c).nrec = s.nrec := rfl
@[simp] theorem State.putCur_recs : (s.putCur c).recs = s.recs := rfl
@[simp] theorem State.putCur_ibuf : (s.putCur c).ibuf = s.ibuf := rfl
@[simp] theorem State.putCur_obuf : (s.putCur c).obuf = s.obuf := rfl
@[simp] theorem State.putCur_hbuf : (s.putCur c).hbuf = s.hbuf := rfl
@[simp] theorem State.putCur_req : (s.putCur c).req = s.req := rfl
end putCur

section putOutput
variable (out : Held (List Byte))
@[simp] theorem State.putOutput_cmd : (s.putOutput out).cmd = s.cmd := rfl
@[simp] theorem State.putOutput_ilen : (s.putOutput out).ilen = s.ilen := rfl
@[simp] theorem State.putOutput_hlen : (s.putOutput out).hlen = s.hlen := rfl
@[simp] theorem State.putOutput_cur : (s.putOutput out).cur = s.cur := rfl
@[simp] theorem State.putOutput_txid : (s.putOutput out).txid = s.txid := rfl
@[simp] theorem State.putOutput_arg : (s.putOutput out).arg = s.arg := rfl
@[simp] theorem State.putOutput_hf : (s.putOutput out).hf = s.hf := rfl
@[simp] theorem State.putOutput_val : (s.putOutput out).val = s.val := rfl
@[simp] theorem State.putOutput_olen : (s.putOutput out).olen =
    out.map fun bs => BitVec.ofNat 16 bs.length := rfl
@[simp] theorem State.putOutput_err : (s.putOutput out).err = s.err := rfl
@[simp] theorem State.putOutput_einfo0 : (s.putOutput out).einfo0 = s.einfo0 := rfl
@[simp] theorem State.putOutput_einfo1 : (s.putOutput out).einfo1 = s.einfo1 := rfl
@[simp] theorem State.putOutput_stage : (s.putOutput out).stage = s.stage := rfl
@[simp] theorem State.putOutput_msg : (s.putOutput out).msg = s.msg := rfl
@[simp] theorem State.putOutput_qst : (s.putOutput out).qst = s.qst := rfl
@[simp] theorem State.putOutput_name : (s.putOutput out).name = s.name := rfl
@[simp] theorem State.putOutput_nrec : (s.putOutput out).nrec = s.nrec := rfl
@[simp] theorem State.putOutput_recs : (s.putOutput out).recs = s.recs := rfl
@[simp] theorem State.putOutput_ibuf : (s.putOutput out).ibuf = s.ibuf := rfl
@[simp] theorem State.putOutput_obuf : (s.putOutput out).obuf =
    Memory.ofBytesAt 0 (out.getD []) := rfl
@[simp] theorem State.putOutput_hbuf : (s.putOutput out).hbuf = s.hbuf := rfl
@[simp] theorem State.putOutput_req : (s.putOutput out).req = s.req := rfl
end putOutput

section putName
variable (n : Held (List Label))
@[simp] theorem State.putName_cmd : (s.putName n).cmd = s.cmd := rfl
@[simp] theorem State.putName_ilen : (s.putName n).ilen = s.ilen := rfl
@[simp] theorem State.putName_hlen : (s.putName n).hlen = s.hlen := rfl
@[simp] theorem State.putName_cur : (s.putName n).cur = s.cur := rfl
@[simp] theorem State.putName_txid : (s.putName n).txid = s.txid := rfl
@[simp] theorem State.putName_arg : (s.putName n).arg = s.arg := rfl
@[simp] theorem State.putName_hf : (s.putName n).hf = s.hf := rfl
@[simp] theorem State.putName_val : (s.putName n).val = s.val := rfl
@[simp] theorem State.putName_olen : (s.putName n).olen = s.olen := rfl
@[simp] theorem State.putName_err : (s.putName n).err = s.err := rfl
@[simp] theorem State.putName_einfo0 : (s.putName n).einfo0 = s.einfo0 := rfl
@[simp] theorem State.putName_einfo1 : (s.putName n).einfo1 = s.einfo1 := rfl
@[simp] theorem State.putName_stage : (s.putName n).stage = s.stage := rfl
@[simp] theorem State.putName_msg : (s.putName n).msg = s.msg := rfl
@[simp] theorem State.putName_qst : (s.putName n).qst = s.qst := rfl
@[simp] theorem State.putName_name : (s.putName n).name =
    n := rfl
@[simp] theorem State.putName_nrec : (s.putName n).nrec = s.nrec := rfl
@[simp] theorem State.putName_recs : (s.putName n).recs = s.recs := rfl
@[simp] theorem State.putName_ibuf : (s.putName n).ibuf = s.ibuf := rfl
@[simp] theorem State.putName_obuf : (s.putName n).obuf = s.obuf := rfl
@[simp] theorem State.putName_hbuf : (s.putName n).hbuf = s.hbuf := rfl
@[simp] theorem State.putName_req : (s.putName n).req = s.req := rfl
end putName

section putQuestion
variable (q : Held Question)
@[simp] theorem State.putQuestion_cmd : (s.putQuestion q).cmd = s.cmd := rfl
@[simp] theorem State.putQuestion_ilen : (s.putQuestion q).ilen = s.ilen := rfl
@[simp] theorem State.putQuestion_hlen : (s.putQuestion q).hlen = s.hlen := rfl
@[simp] theorem State.putQuestion_cur : (s.putQuestion q).cur = s.cur := rfl
@[simp] theorem State.putQuestion_txid : (s.putQuestion q).txid = s.txid := rfl
@[simp] theorem State.putQuestion_arg : (s.putQuestion q).arg = s.arg := rfl
@[simp] theorem State.putQuestion_hf : (s.putQuestion q).hf = s.hf := rfl
@[simp] theorem State.putQuestion_val : (s.putQuestion q).val = s.val := rfl
@[simp] theorem State.putQuestion_olen : (s.putQuestion q).olen = s.olen := rfl
@[simp] theorem State.putQuestion_err : (s.putQuestion q).err = s.err := rfl
@[simp] theorem State.putQuestion_einfo0 : (s.putQuestion q).einfo0 = s.einfo0 := rfl
@[simp] theorem State.putQuestion_einfo1 : (s.putQuestion q).einfo1 = s.einfo1 := rfl
@[simp] theorem State.putQuestion_stage : (s.putQuestion q).stage = s.stage := rfl
@[simp] theorem State.putQuestion_msg : (s.putQuestion q).msg = s.msg := rfl
@[simp] theorem State.putQuestion_qst : (s.putQuestion q).qst =
    ⟨q.map (·.name), q.map (·.qtype), q.map (·.qclass)⟩ := rfl
@[simp] theorem State.putQuestion_name : (s.putQuestion q).name = s.name := rfl
@[simp] theorem State.putQuestion_nrec : (s.putQuestion q).nrec = s.nrec := rfl
@[simp] theorem State.putQuestion_recs : (s.putQuestion q).recs = s.recs := rfl
@[simp] theorem State.putQuestion_ibuf : (s.putQuestion q).ibuf = s.ibuf := rfl
@[simp] theorem State.putQuestion_obuf : (s.putQuestion q).obuf = s.obuf := rfl
@[simp] theorem State.putQuestion_hbuf : (s.putQuestion q).hbuf = s.hbuf := rfl
@[simp] theorem State.putQuestion_req : (s.putQuestion q).req = s.req := rfl
end putQuestion

section putQclass
variable (c : Held Half)
@[simp] theorem State.putQclass_cmd : (s.putQclass c).cmd = s.cmd := rfl
@[simp] theorem State.putQclass_ilen : (s.putQclass c).ilen = s.ilen := rfl
@[simp] theorem State.putQclass_hlen : (s.putQclass c).hlen = s.hlen := rfl
@[simp] theorem State.putQclass_cur : (s.putQclass c).cur = s.cur := rfl
@[simp] theorem State.putQclass_txid : (s.putQclass c).txid = s.txid := rfl
@[simp] theorem State.putQclass_arg : (s.putQclass c).arg = s.arg := rfl
@[simp] theorem State.putQclass_hf : (s.putQclass c).hf = s.hf := rfl
@[simp] theorem State.putQclass_val : (s.putQclass c).val = s.val := rfl
@[simp] theorem State.putQclass_olen : (s.putQclass c).olen = s.olen := rfl
@[simp] theorem State.putQclass_err : (s.putQclass c).err = s.err := rfl
@[simp] theorem State.putQclass_einfo0 : (s.putQclass c).einfo0 = s.einfo0 := rfl
@[simp] theorem State.putQclass_einfo1 : (s.putQclass c).einfo1 = s.einfo1 := rfl
@[simp] theorem State.putQclass_stage : (s.putQclass c).stage = s.stage := rfl
@[simp] theorem State.putQclass_msg : (s.putQclass c).msg = s.msg := rfl
@[simp] theorem State.putQclass_qst : (s.putQclass c).qst =
    { s.qst with qclass := c } := rfl
@[simp] theorem State.putQclass_name : (s.putQclass c).name = s.name := rfl
@[simp] theorem State.putQclass_nrec : (s.putQclass c).nrec = s.nrec := rfl
@[simp] theorem State.putQclass_recs : (s.putQclass c).recs = s.recs := rfl
@[simp] theorem State.putQclass_ibuf : (s.putQclass c).ibuf = s.ibuf := rfl
@[simp] theorem State.putQclass_obuf : (s.putQclass c).obuf = s.obuf := rfl
@[simp] theorem State.putQclass_hbuf : (s.putQclass c).hbuf = s.hbuf := rfl
@[simp] theorem State.putQclass_req : (s.putQclass c).req = s.req := rfl
end putQclass

section putRecords
variable (rs : Held (List Record))
@[simp] theorem State.putRecords_cmd : (s.putRecords rs).cmd = s.cmd := rfl
@[simp] theorem State.putRecords_ilen : (s.putRecords rs).ilen = s.ilen := rfl
@[simp] theorem State.putRecords_hlen : (s.putRecords rs).hlen = s.hlen := rfl
@[simp] theorem State.putRecords_cur : (s.putRecords rs).cur = s.cur := rfl
@[simp] theorem State.putRecords_txid : (s.putRecords rs).txid = s.txid := rfl
@[simp] theorem State.putRecords_arg : (s.putRecords rs).arg = s.arg := rfl
@[simp] theorem State.putRecords_hf : (s.putRecords rs).hf = s.hf := rfl
@[simp] theorem State.putRecords_val : (s.putRecords rs).val = s.val := rfl
@[simp] theorem State.putRecords_olen : (s.putRecords rs).olen = s.olen := rfl
@[simp] theorem State.putRecords_err : (s.putRecords rs).err = s.err := rfl
@[simp] theorem State.putRecords_einfo0 : (s.putRecords rs).einfo0 = s.einfo0 := rfl
@[simp] theorem State.putRecords_einfo1 : (s.putRecords rs).einfo1 = s.einfo1 := rfl
@[simp] theorem State.putRecords_stage : (s.putRecords rs).stage = s.stage := rfl
@[simp] theorem State.putRecords_msg : (s.putRecords rs).msg = s.msg := rfl
@[simp] theorem State.putRecords_qst : (s.putRecords rs).qst = s.qst := rfl
@[simp] theorem State.putRecords_name : (s.putRecords rs).name = s.name := rfl
@[simp] theorem State.putRecords_nrec : (s.putRecords rs).nrec =
    rs.map (·.length) := rfl
@[simp] theorem State.putRecords_recs : (s.putRecords rs).recs =
    rs.getD [] := rfl
@[simp] theorem State.putRecords_ibuf : (s.putRecords rs).ibuf = s.ibuf := rfl
@[simp] theorem State.putRecords_obuf : (s.putRecords rs).obuf = s.obuf := rfl
@[simp] theorem State.putRecords_hbuf : (s.putRecords rs).hbuf = s.hbuf := rfl
@[simp] theorem State.putRecords_req : (s.putRecords rs).req = s.req := rfl
end putRecords

section putHeader
variable (f : Held FlagFields)
@[simp] theorem State.putHeader_cmd : (s.putHeader f).cmd = s.cmd := rfl
@[simp] theorem State.putHeader_ilen : (s.putHeader f).ilen = s.ilen := rfl
@[simp] theorem State.putHeader_hlen : (s.putHeader f).hlen = s.hlen := rfl
@[simp] theorem State.putHeader_cur : (s.putHeader f).cur = s.cur := rfl
@[simp] theorem State.putHeader_txid : (s.putHeader f).txid = s.txid := rfl
@[simp] theorem State.putHeader_arg : (s.putHeader f).arg = s.arg := rfl
@[simp] theorem State.putHeader_hf : (s.putHeader f).hf =
    ⟨f.map (·.qr), f.map (·.opcode), f.map (·.aa), f.map (·.tc), f.map (·.rd), f.map (·.ra),
      f.map (·.z), f.map (·.rcode)⟩ := rfl
@[simp] theorem State.putHeader_val : (s.putHeader f).val = s.val := rfl
@[simp] theorem State.putHeader_olen : (s.putHeader f).olen = s.olen := rfl
@[simp] theorem State.putHeader_err : (s.putHeader f).err = s.err := rfl
@[simp] theorem State.putHeader_einfo0 : (s.putHeader f).einfo0 = s.einfo0 := rfl
@[simp] theorem State.putHeader_einfo1 : (s.putHeader f).einfo1 = s.einfo1 := rfl
@[simp] theorem State.putHeader_stage : (s.putHeader f).stage = s.stage := rfl
@[simp] theorem State.putHeader_msg : (s.putHeader f).msg = s.msg := rfl
@[simp] theorem State.putHeader_qst : (s.putHeader f).qst = s.qst := rfl
@[simp] theorem State.putHeader_name : (s.putHeader f).name = s.name := rfl
@[simp] theorem State.putHeader_nrec : (s.putHeader f).nrec = s.nrec := rfl
@[simp] theorem State.putHeader_recs : (s.putHeader f).recs = s.recs := rfl
@[simp] theorem State.putHeader_ibuf : (s.putHeader f).ibuf = s.ibuf := rfl
@[simp] theorem State.putHeader_obuf : (s.putHeader f).obuf = s.obuf := rfl
@[simp] theorem State.putHeader_hbuf : (s.putHeader f).hbuf = s.hbuf := rfl
@[simp] theorem State.putHeader_req : (s.putHeader f).req = s.req := rfl
end putHeader

section putOpcode
variable (o : Held (BitVec 4))
@[simp] theorem State.putOpcode_cmd : (s.putOpcode o).cmd = s.cmd := rfl
@[simp] theorem State.putOpcode_ilen : (s.putOpcode o).ilen = s.ilen := rfl
@[simp] theorem State.putOpcode_hlen : (s.putOpcode o).hlen = s.hlen := rfl
@[simp] theorem State.putOpcode_cur : (s.putOpcode o).cur = s.cur := rfl
@[simp] theorem State.putOpcode_txid : (s.putOpcode o).txid = s.txid := rfl
@[simp] theorem State.putOpcode_arg : (s.putOpcode o).arg = s.arg := rfl
@[simp] theorem State.putOpcode_hf : (s.putOpcode o).hf =
    { s.hf with opcode := o } := rfl
@[simp] theorem State.putOpcode_val : (s.putOpcode o).val = s.val := rfl
@[simp] theorem State.putOpcode_olen : (s.putOpcode o).olen = s.olen := rfl
@[simp] theorem State.putOpcode_err : (s.putOpcode o).err = s.err := rfl
@[simp] theorem State.putOpcode_einfo0 : (s.putOpcode o).einfo0 = s.einfo0 := rfl
@[simp] theorem State.putOpcode_einfo1 : (s.putOpcode o).einfo1 = s.einfo1 := rfl
@[simp] theorem State.putOpcode_stage : (s.putOpcode o).stage = s.stage := rfl
@[simp] theorem State.putOpcode_msg : (s.putOpcode o).msg = s.msg := rfl
@[simp] theorem State.putOpcode_qst : (s.putOpcode o).qst = s.qst := rfl
@[simp] theorem State.putOpcode_name : (s.putOpcode o).name = s.name := rfl
@[simp] theorem State.putOpcode_nrec : (s.putOpcode o).nrec = s.nrec := rfl
@[simp] theorem State.putOpcode_recs : (s.putOpcode o).recs = s.recs := rfl
@[simp] theorem State.putOpcode_ibuf : (s.putOpcode o).ibuf = s.ibuf := rfl
@[simp] theorem State.putOpcode_obuf : (s.putOpcode o).obuf = s.obuf := rfl
@[simp] theorem State.putOpcode_hbuf : (s.putOpcode o).hbuf = s.hbuf := rfl
@[simp] theorem State.putOpcode_req : (s.putOpcode o).req = s.req := rfl
end putOpcode

section putStage
variable (st : Stage)
@[simp] theorem State.putStage_cmd : (s.putStage st).cmd = s.cmd := rfl
@[simp] theorem State.putStage_ilen : (s.putStage st).ilen = s.ilen := rfl
@[simp] theorem State.putStage_hlen : (s.putStage st).hlen = s.hlen := rfl
@[simp] theorem State.putStage_cur : (s.putStage st).cur = s.cur := rfl
@[simp] theorem State.putStage_txid : (s.putStage st).txid = s.txid := rfl
@[simp] theorem State.putStage_arg : (s.putStage st).arg = s.arg := rfl
@[simp] theorem State.putStage_hf : (s.putStage st).hf = s.hf := rfl
@[simp] theorem State.putStage_val : (s.putStage st).val = s.val := rfl
@[simp] theorem State.putStage_olen : (s.putStage st).olen = s.olen := rfl
@[simp] theorem State.putStage_err : (s.putStage st).err = s.err := rfl
@[simp] theorem State.putStage_einfo0 : (s.putStage st).einfo0 = s.einfo0 := rfl
@[simp] theorem State.putStage_einfo1 : (s.putStage st).einfo1 = s.einfo1 := rfl
@[simp] theorem State.putStage_stage : (s.putStage st).stage =
    stageCode st := rfl
@[simp] theorem State.putStage_msg : (s.putStage st).msg = s.msg := rfl
@[simp] theorem State.putStage_qst : (s.putStage st).qst = s.qst := rfl
@[simp] theorem State.putStage_name : (s.putStage st).name = s.name := rfl
@[simp] theorem State.putStage_nrec : (s.putStage st).nrec = s.nrec := rfl
@[simp] theorem State.putStage_recs : (s.putStage st).recs = s.recs := rfl
@[simp] theorem State.putStage_ibuf : (s.putStage st).ibuf = s.ibuf := rfl
@[simp] theorem State.putStage_obuf : (s.putStage st).obuf = s.obuf := rfl
@[simp] theorem State.putStage_hbuf : (s.putStage st).hbuf = s.hbuf := rfl
@[simp] theorem State.putStage_req : (s.putStage st).req = s.req := rfl
end putStage

section putMessage
variable (h : Held MessageHeader)
@[simp] theorem State.putMessage_cmd : (s.putMessage h).cmd = s.cmd := rfl
@[simp] theorem State.putMessage_ilen : (s.putMessage h).ilen = s.ilen := rfl
@[simp] theorem State.putMessage_hlen : (s.putMessage h).hlen = s.hlen := rfl
@[simp] theorem State.putMessage_cur : (s.putMessage h).cur = s.cur := rfl
@[simp] theorem State.putMessage_txid : (s.putMessage h).txid = s.txid := rfl
@[simp] theorem State.putMessage_arg : (s.putMessage h).arg = s.arg := rfl
@[simp] theorem State.putMessage_hf : (s.putMessage h).hf = s.hf := rfl
@[simp] theorem State.putMessage_val : (s.putMessage h).val = s.val := rfl
@[simp] theorem State.putMessage_olen : (s.putMessage h).olen = s.olen := rfl
@[simp] theorem State.putMessage_err : (s.putMessage h).err = s.err := rfl
@[simp] theorem State.putMessage_einfo0 : (s.putMessage h).einfo0 = s.einfo0 := rfl
@[simp] theorem State.putMessage_einfo1 : (s.putMessage h).einfo1 = s.einfo1 := rfl
@[simp] theorem State.putMessage_stage : (s.putMessage h).stage = s.stage := rfl
@[simp] theorem State.putMessage_msg : (s.putMessage h).msg =
    ⟨h.map (·.id), h.map (·.flags), h.map (·.qdcount), h.map (·.ancount), h.map (·.nscount),
      h.map (·.arcount)⟩ := rfl
@[simp] theorem State.putMessage_qst : (s.putMessage h).qst = s.qst := rfl
@[simp] theorem State.putMessage_name : (s.putMessage h).name = s.name := rfl
@[simp] theorem State.putMessage_nrec : (s.putMessage h).nrec = s.nrec := rfl
@[simp] theorem State.putMessage_recs : (s.putMessage h).recs = s.recs := rfl
@[simp] theorem State.putMessage_ibuf : (s.putMessage h).ibuf = s.ibuf := rfl
@[simp] theorem State.putMessage_obuf : (s.putMessage h).obuf = s.obuf := rfl
@[simp] theorem State.putMessage_hbuf : (s.putMessage h).hbuf = s.hbuf := rfl
@[simp] theorem State.putMessage_req : (s.putMessage h).req = s.req := rfl
end putMessage

section takeError
variable (e : CodecError)
@[simp] theorem State.takeError_cmd : (s.takeError e).cmd = s.cmd := rfl
@[simp] theorem State.takeError_ilen : (s.takeError e).ilen = s.ilen := rfl
@[simp] theorem State.takeError_hlen : (s.takeError e).hlen = s.hlen := rfl
@[simp] theorem State.takeError_cur : (s.takeError e).cur = s.cur := rfl
@[simp] theorem State.takeError_txid : (s.takeError e).txid = s.txid := rfl
@[simp] theorem State.takeError_arg : (s.takeError e).arg = s.arg := rfl
@[simp] theorem State.takeError_hf : (s.takeError e).hf = s.hf := rfl
@[simp] theorem State.takeError_val : (s.takeError e).val = s.val := rfl
@[simp] theorem State.takeError_olen : (s.takeError e).olen = s.olen := rfl
@[simp] theorem State.takeError_err : (s.takeError e).err =
    errorCode e := rfl
@[simp] theorem State.takeError_einfo0 : (s.takeError e).einfo0 =
    errorInfo0 e := rfl
@[simp] theorem State.takeError_einfo1 : (s.takeError e).einfo1 =
    errorInfo1 e := rfl
@[simp] theorem State.takeError_stage : (s.takeError e).stage = s.stage := rfl
@[simp] theorem State.takeError_msg : (s.takeError e).msg = s.msg := rfl
@[simp] theorem State.takeError_qst : (s.takeError e).qst = s.qst := rfl
@[simp] theorem State.takeError_name : (s.takeError e).name = s.name := rfl
@[simp] theorem State.takeError_nrec : (s.takeError e).nrec = s.nrec := rfl
@[simp] theorem State.takeError_recs : (s.takeError e).recs = s.recs := rfl
@[simp] theorem State.takeError_ibuf : (s.takeError e).ibuf = s.ibuf := rfl
@[simp] theorem State.takeError_obuf : (s.takeError e).obuf = s.obuf := rfl
@[simp] theorem State.takeError_hbuf : (s.takeError e).hbuf = s.hbuf := rfl
@[simp] theorem State.takeError_req : (s.takeError e).req = s.req := rfl
end takeError

section succeed
@[simp] theorem State.succeed_cmd : (s.succeed).cmd = s.cmd := rfl
@[simp] theorem State.succeed_ilen : (s.succeed).ilen = s.ilen := rfl
@[simp] theorem State.succeed_hlen : (s.succeed).hlen = s.hlen := rfl
@[simp] theorem State.succeed_cur : (s.succeed).cur = s.cur := rfl
@[simp] theorem State.succeed_txid : (s.succeed).txid = s.txid := rfl
@[simp] theorem State.succeed_arg : (s.succeed).arg = s.arg := rfl
@[simp] theorem State.succeed_hf : (s.succeed).hf = s.hf := rfl
@[simp] theorem State.succeed_val : (s.succeed).val = s.val := rfl
@[simp] theorem State.succeed_olen : (s.succeed).olen = s.olen := rfl
@[simp] theorem State.succeed_err : (s.succeed).err =
    0 := rfl
@[simp] theorem State.succeed_einfo0 : (s.succeed).einfo0 =
    none := rfl
@[simp] theorem State.succeed_einfo1 : (s.succeed).einfo1 =
    none := rfl
@[simp] theorem State.succeed_stage : (s.succeed).stage = s.stage := rfl
@[simp] theorem State.succeed_msg : (s.succeed).msg = s.msg := rfl
@[simp] theorem State.succeed_qst : (s.succeed).qst = s.qst := rfl
@[simp] theorem State.succeed_name : (s.succeed).name = s.name := rfl
@[simp] theorem State.succeed_nrec : (s.succeed).nrec = s.nrec := rfl
@[simp] theorem State.succeed_recs : (s.succeed).recs = s.recs := rfl
@[simp] theorem State.succeed_ibuf : (s.succeed).ibuf = s.ibuf := rfl
@[simp] theorem State.succeed_obuf : (s.succeed).obuf = s.obuf := rfl
@[simp] theorem State.succeed_hbuf : (s.succeed).hbuf = s.hbuf := rfl
@[simp] theorem State.succeed_req : (s.succeed).req = s.req := rfl
end succeed

section consume
@[simp] theorem State.consume_cmd : (s.consume).cmd = s.cmd := rfl
@[simp] theorem State.consume_ilen : (s.consume).ilen = s.ilen := rfl
@[simp] theorem State.consume_hlen : (s.consume).hlen = s.hlen := rfl
@[simp] theorem State.consume_cur : (s.consume).cur = s.cur := rfl
@[simp] theorem State.consume_txid : (s.consume).txid = s.txid := rfl
@[simp] theorem State.consume_arg : (s.consume).arg = s.arg := rfl
@[simp] theorem State.consume_hf : (s.consume).hf = s.hf := rfl
@[simp] theorem State.consume_val : (s.consume).val = s.val := rfl
@[simp] theorem State.consume_olen : (s.consume).olen = s.olen := rfl
@[simp] theorem State.consume_err : (s.consume).err = s.err := rfl
@[simp] theorem State.consume_einfo0 : (s.consume).einfo0 = s.einfo0 := rfl
@[simp] theorem State.consume_einfo1 : (s.consume).einfo1 = s.einfo1 := rfl
@[simp] theorem State.consume_stage : (s.consume).stage = s.stage := rfl
@[simp] theorem State.consume_msg : (s.consume).msg = s.msg := rfl
@[simp] theorem State.consume_qst : (s.consume).qst = s.qst := rfl
@[simp] theorem State.consume_name : (s.consume).name = s.name := rfl
@[simp] theorem State.consume_nrec : (s.consume).nrec = s.nrec := rfl
@[simp] theorem State.consume_recs : (s.consume).recs = s.recs := rfl
@[simp] theorem State.consume_ibuf : (s.consume).ibuf = s.ibuf := rfl
@[simp] theorem State.consume_obuf : (s.consume).obuf = s.obuf := rfl
@[simp] theorem State.consume_hbuf : (s.consume).hbuf = s.hbuf := rfl
@[simp] theorem State.consume_req : (s.consume).req =
    .idle := rfl
end consume

end Sys2Proof.Machine
end

