-- ==== Sys2Proof/Laws/Operands.lean ====
section
/-! SUPPORT. The operands of the commands (R30): when they can be read and what they are. -/

namespace Sys2Proof.Machine

variable {s : State} {α : Type} {f : Input → Nat → Run α}

theorem inputOf_ok {inp : Input} :
    inputOf s = .ok inp ↔ s.ilen.toNat ≤ 65527 ∧ inp = ⟨s.ibuf, s.ilen.toNat⟩ := by
  unfold inputOf
  split <;> simp_all [Config.ibufMax, eq_comm]

theorem inputOf_error {h : Halt} : inputOf s = .error h ↔ 65527 < s.ilen.toNat ∧ h = .refused .ilenTooLong := by
  unfold inputOf
  split <;> simp_all [Config.ibufMax, eq_comm]

theorem inputOf_eq (h : s.ilen.toNat ≤ 65527) : inputOf s = .ok ⟨s.ibuf, s.ilen.toNat⟩ := inputOf_ok.mpr ⟨h, rfl⟩

/-- A cursor command with readable operands runs its function from `CUR`. -/
theorem atCursor_eq {c : Half} (hl : s.ilen.toNat ≤ 65527) (hc : s.cur = some c) :
    atCursor f s = f ⟨s.ibuf, s.ilen.toNat⟩ c.toNat := by
  simp only [atCursor, inputOf_eq hl, cursorOf, hc, readHeld_some, ok_bind]
  rfl

theorem atCursor_ok {v : α} :
    atCursor f s = .ok v ↔
      s.ilen.toNat ≤ 65527 ∧ ∃ c, s.cur = some c ∧ f ⟨s.ibuf, s.ilen.toNat⟩ c.toNat = .ok v := by
  simp only [atCursor, bind_eq_ok, inputOf_ok, cursorOf, readHeld_eq_ok, pure_eq_ok, Except.ok.injEq]
  constructor
  · rintro ⟨_, ⟨h, rfl⟩, _, ⟨c, hc, rfl⟩, hf⟩
    exact ⟨h, c, hc, hf⟩
  · rintro ⟨h, c, hc, hf⟩
    exact ⟨_, ⟨h, rfl⟩, _, ⟨c, hc, rfl⟩, hf⟩

theorem atCursor_raised {e : CodecError} :
    atCursor f s = .error (.raised e) ↔
      s.ilen.toNat ≤ 65527 ∧ ∃ c, s.cur = some c ∧ f ⟨s.ibuf, s.ilen.toNat⟩ c.toNat = .error (.raised e) := by
  simp only [atCursor, bind_eq_error, inputOf_ok, inputOf_error, cursorOf, readHeld_eq_ok, readHeld_eq_error,
    bind_eq_ok, pure_eq_ok, Except.ok.injEq, reduceCtorEq, and_false, exists_false, or_false, false_or]
  constructor
  · rintro ⟨_, ⟨h, rfl⟩, _, ⟨c, hc, rfl⟩, hf⟩
    exact ⟨h, c, hc, hf⟩
  · rintro ⟨h, c, hc, hf⟩
    exact ⟨_, ⟨h, rfl⟩, _, ⟨c, hc, rfl⟩, hf⟩

/-- HMAX is at least 253, whatever it is (R28). -/
theorem hmax_ge : 253 ≤ Config.hmax := Nat.le_add_right _ _

/-- A hostname within `HMAX` is the `HLEN` bytes of `HBUF` from address 0. -/
theorem hostnameOf_eq (h : s.hlen.toNat ≤ Config.hmax) : hostnameOf s = bytesAt .hbuf s.hbuf 0 s.hlen.toNat := by
  simp [hostnameOf, h]

theorem hostnameOf_long (h : Config.hmax < s.hlen.toNat) : hostnameOf s = .error (.refused .hlenTooLong) := by
  have := hmax_ge
  unfold hostnameOf
  rw [if_neg (by omega)]

theorem hostnameOf_ok {h : List Byte} :
    hostnameOf s = .ok h ↔ s.hlen.toNat ≤ Config.hmax ∧ h.length = s.hlen.toNat ∧ s.hbuf.holds 0 h := by
  by_cases hle : s.hlen.toNat ≤ Config.hmax
  · rw [hostnameOf_eq hle, bytesAt_ok]
    simp [hle]
  · rw [hostnameOf_long (by omega)]
    simp [hle]

end Sys2Proof.Machine
end

