-- ==== Sys2Proof/Laws/Commands.lean ====
section
/-! SUPPORT. What each arm of `exec` is, in terms of `finish`; what a step does with a written `CMD`; how two runs of
`finish` compare. -/

namespace Sys2Proof.Machine

/-! ### The arms -/

section arms
variable (s : State)

theorem exec_pack16 :
    exec .pack16 s = finish (argOf s >>= fun v => .ok (be16 v)) (fun out s => s.putOutput out) s := rfl

theorem exec_unpack16 :
    exec .unpack16 s = finish (atCursor rd16 s)
      (fun (r : Held (Half × Nat)) s => (s.putVal (r.map fun p => p.1.setWidth 32)).putCur (r.map (·.2))) s := rfl

theorem exec_unpack32 :
    exec .unpack32 s = finish (atCursor rd32 s)
      (fun (r : Held (Word × Nat)) s => (s.putVal (r.map (·.1))).putCur (r.map (·.2))) s := rfl

theorem exec_nameenc :
    exec .nameenc s = finish (hostnameOf s >>= nameEncode) (fun out s => s.putOutput out) s := rfl

theorem exec_namedec :
    exec .namedec s = finish (atCursor nameDecode s)
      (fun (r : Held (List Label × Nat)) s => (s.putName (r.map (·.1))).putCur (r.map (·.2))) s := rfl

theorem exec_hdrenc :
    exec .hdrenc s = finish (headerWordOf s) (fun (w : Held Half) s => s.putVal (w.map (·.setWidth 32))) s := rfl

theorem exec_hdrdec :
    exec .hdrdec s = finish (argOf s >>= fun w => .ok (hdrDecode w)) (fun f s => s.putHeader f) s := rfl

theorem exec_rcdec :
    exec .rcdec s = finish (argOf s >>= rcodeDecode)
      (fun (c : Held (BitVec 4)) s => s.putVal (c.map (·.setWidth 32))) s := rfl

theorem exec_rtdec :
    exec .rtdec s = finish (argOf s >>= rtypeDecode) (fun (t : Held Half) s => s.putVal (t.map (·.setWidth 32))) s := rfl

theorem exec_qparse :
    exec .qparse s = finish (atCursor questionParse s)
      (fun (r : Held (Question × Nat)) s => (s.putQuestion (r.map (·.1))).putCur (r.map (·.2))) s := rfl

theorem exec_rrparse :
    exec .rrparse s = finish (atCursor rrParse s)
      (fun (r : Held (Record × Nat)) s => (s.putRecords (r.map fun p => [p.1])).putCur (r.map (·.2))) s := rfl

theorem exec_encq :
    exec .encq s = finish (hostnameOf s >>= fun h => argOf s >>= fun t => txidOf s >>= fun id => encodeQuery h t id)
      (fun out s => s.putOutput out) s := rfl

theorem exec_decmsg :
    exec .decmsg s = finish (dropStage (decodeFrom s))
      (fun m s' => (s'.putDecoded m).putStage (endStage (decodeFrom s))) s := rfl

theorem exec_cmdUnassigned0 : exec .cmdUnassigned0 s = .refused (.unassignedCommand 0x0) := rfl

theorem exec_cmdUnassignedE : exec .cmdUnassignedE s = .refused (.unassignedCommand 0xE) := rfl

theorem exec_cmdUnassignedF : exec .cmdUnassignedF s = .refused (.unassignedCommand 0xF) := rfl

theorem exec_lenEnd : exec .lenEnd s = lengthOctet 0x00 s := rfl

theorem exec_lenLabel (n : BitVec 6) : exec (.lenLabel n) s = lengthOctet (0b00#2 ++ n) s := rfl

theorem exec_lenRsv01 (x : BitVec 6) : exec (.lenRsv01 x) s = lengthOctet (0b01#2 ++ x) s := rfl

theorem exec_lenRsv10 (x : BitVec 6) : exec (.lenRsv10 x) s = lengthOctet (0b10#2 ++ x) s := rfl

theorem exec_lenPtr (x : BitVec 6) : exec (.lenPtr x) s = lengthOctet (0b11#2 ++ x) s := rfl

theorem exec_flags (q : BitVec 1) (o : BitVec 4) (a t d r : BitVec 1) (z : BitVec 3) (c : BitVec 4) :
    exec (.flags q o a t d r z c) s = flagPattern ⟨q, o, a, t, d, r, z, c⟩ s := rfl

theorem exec_flagsQuery : exec .flagsQuery s = flagPattern (hdrDecode queryWord) s := rfl

theorem exec_opcodeStandardQuery : exec .opcodeStandardQuery s = opcodePattern 0 s := rfl

theorem exec_opcodeUnnamed (o : BitVec 4) : exec (.opcodeUnnamed o) s = opcodePattern o s := rfl

theorem exec_rcodeNoError : exec .rcodeNoError s = rcodePattern 0 s := rfl

theorem exec_rcodeFormatError : exec .rcodeFormatError s = rcodePattern 1 s := rfl

theorem exec_rcodeServerFailure : exec .rcodeServerFailure s = rcodePattern 2 s := rfl

theorem exec_rcodeNameError : exec .rcodeNameError s = rcodePattern 3 s := rfl

theorem exec_rcodeNotImplemented : exec .rcodeNotImplemented s = rcodePattern 4 s := rfl

theorem exec_rcodeRefused : exec .rcodeRefused s = rcodePattern 5 s := rfl

theorem exec_rcodeUnknown (c : BitVec 4) : exec (.rcodeUnknown c) s = rcodePattern c s := rfl

theorem exec_rtypeA : exec .rtypeA s = rtypePattern 1 s := rfl

theorem exec_rtypeNs : exec .rtypeNs s = rtypePattern 2 s := rfl

theorem exec_rtypeCname : exec .rtypeCname s = rtypePattern 5 s := rfl

theorem exec_rtypeSoa : exec .rtypeSoa s = rtypePattern 6 s := rfl

theorem exec_rtypeWks : exec .rtypeWks s = rtypePattern 11 s := rfl

theorem exec_rtypePtr : exec .rtypePtr s = rtypePattern 12 s := rfl

theorem exec_rtypeMx : exec .rtypeMx s = rtypePattern 15 s := rfl

theorem exec_rtypeTxt : exec .rtypeTxt s = rtypePattern 16 s := rfl

theorem exec_rtypeUnknown (t : Half) : exec (.rtypeUnknown t) s = rtypePattern t s := rfl

theorem exec_classIn : exec .classIn s = classPattern 1 s := rfl

theorem exec_classOther (c : Half) : exec (.classOther c) s = classPattern c s := rfl

end arms

/-! ### The wire patterns -/

section patterns
variable (s : State)

theorem lengthOctet_eq (n : Byte) :
    lengthOctet n s = finish (atCursor (fun inp cur => lenTurn inp n cur) s)
      (fun (r : Held (Option Label × Nat)) s => (s.putName (r.map (·.1.toList))).putCur (r.map (·.2))) s := rfl

theorem flagPattern_eq (f : FlagFields) : flagPattern f s = .next (s.putHeader (some f)).succeed := rfl

theorem opcodePattern_eq (o : BitVec 4) : opcodePattern o s = .next (s.putOpcode (some o)).succeed := rfl

theorem rcodePattern_eq (c : BitVec 4) :
    rcodePattern c s = finish (rcodeDecode (c.setWidth 16))
      (fun (c : Held (BitVec 4)) s => s.putVal (c.map (·.setWidth 32))) s := rfl

theorem rtypePattern_eq (t : Half) :
    rtypePattern t s = finish (rtypeDecode t) (fun (t : Held Half) s => s.putVal (t.map (·.setWidth 32))) s := rfl

theorem classPattern_eq (c : Half) : classPattern c s = .next (s.putQclass (some c)).succeed := rfl

end patterns

/-! ### Presenting a decoded word

A word's row, run by `exec`, is the one function the row's format goes through. -/

theorem exec_decodeFlags (s : State) (w : Half) : exec (decodeFlags w) s = flagPattern (hdrDecode w) s := by
  unfold decodeFlags
  split
  · rename_i h
    subst h
    rfl
  · rfl

theorem exec_decodeRcode (s : State) (c : BitVec 4) : exec (decodeRcode c) s = rcodePattern c s := by
  have h : ∀ c : BitVec 4, decodeRcode c = .rcodeUnknown c ∨ (decodeRcode c = .rcodeNoError ∧ c = 0) ∨
      (decodeRcode c = .rcodeFormatError ∧ c = 1) ∨ (decodeRcode c = .rcodeServerFailure ∧ c = 2) ∨
      (decodeRcode c = .rcodeNameError ∧ c = 3) ∨ (decodeRcode c = .rcodeNotImplemented ∧ c = 4) ∨
      (decodeRcode c = .rcodeRefused ∧ c = 5) := by decide +kernel
  rcases h c with h | ⟨h, rfl⟩ | ⟨h, rfl⟩ | ⟨h, rfl⟩ | ⟨h, rfl⟩ | ⟨h, rfl⟩ | ⟨h, rfl⟩ <;> rw [h] <;> rfl

theorem exec_decodeRtype (s : State) (t : Half) : exec (decodeRtype t) s = rtypePattern t s := by
  unfold decodeRtype
  split <;> rename_i h
  any_goals
    have := recordTypeCode_of h
    subst this
    rfl
  rfl

theorem exec_decodeLen (s : State) (n : Byte) : exec (decodeLen n) s = lengthOctet n s := by
  have h : ∀ n : Byte, (decodeLen n = .lenEnd ∧ n = 0x00) ∨
      (decodeLen n = .lenLabel (n.extractLsb' 0 6) ∧ n = 0b00#2 ++ n.extractLsb' 0 6) ∨
      (decodeLen n = .lenRsv01 (n.extractLsb' 0 6) ∧ n = 0b01#2 ++ n.extractLsb' 0 6) ∨
      (decodeLen n = .lenRsv10 (n.extractLsb' 0 6) ∧ n = 0b10#2 ++ n.extractLsb' 0 6) ∨
      (decodeLen n = .lenPtr (n.extractLsb' 0 6) ∧ n = 0b11#2 ++ n.extractLsb' 0 6) := by decide +kernel
  rcases h n with ⟨h, h2⟩ | ⟨h, h2⟩ | ⟨h, h2⟩ | ⟨h, h2⟩ | ⟨h, h2⟩ <;> rw [h]
  · rw [exec_lenEnd, ← h2]
  · rw [exec_lenLabel, ← h2]
  · rw [exec_lenRsv01, ← h2]
  · rw [exec_lenRsv10, ← h2]
  · rw [exec_lenPtr, ← h2]

/-! ### The command register -/

/-- The four bits of `CMD` laid out as a byte are read back whole. -/
theorem nibbleOf_code (c : BitVec 4) : nibbleOf ((c.setWidth 16).extractLsb' 0 8) = .ok c := by
  have h : ∀ c : BitVec 4, ((c.setWidth 16 : Half).extractLsb' 0 8 : Byte).extractLsb' 4 4 = 0 ∧
      ((c.setWidth 16 : Half).extractLsb' 0 8 : Byte).extractLsb' 0 4 = c := by decide +kernel
  unfold nibbleOf
  rw [if_pos (h c).1, (h c).2]

/-- A step with a command asked for performs the row whose code `CMD` holds. -/
theorem step_command (s : State) (h : s.req = .command) : step s = exec (decodeCmd s.cmd) s.consume := by
  have hf : fetch s = some (.cmd, [(s.cmd.setWidth 16).extractLsb' 0 8]) := by simp [fetch, h, wordBytes, formatBytes]
  simp only [step, hf, decode, nibbleOf_code, Except.map]

/-! ### Cursors -/

/-- R14: a cursor within the input is not changed by `CUR`'s 16 bits. -/
theorem toCur_toNat {c : Nat} (h : c ≤ 65535) : (toCur c).toNat = c := by
  simp [toCur]
  omega

/-- Adding a small number to `CUR` is adding it to the cursor. -/
theorem toCur_add (c : Half) (n : Nat) : toCur (c.toNat + n) = c + BitVec.ofNat 16 n := by
  apply BitVec.eq_of_toNat_eq
  simp [toCur]

/-! ### How DECMSG ends -/

@[simp] theorem dropStage_ok {r : Except (Stage × Halt) Message} {m : Message} :
    dropStage r = .ok m ↔ r = .ok m := by
  rcases r with ⟨st, h⟩ | v <;> simp [dropStage]

theorem dropStage_error {r : Except (Stage × Halt) Message} {h : Halt} :
    dropStage r = .error h ↔ ∃ st, r = .error (st, h) := by
  rcases r with ⟨st, h'⟩ | v <;> simp [dropStage]

/-- With readable operands DECMSG runs `decode_message`. -/
theorem decodeFrom_eq {s : State} {x : Half} (hl : s.ilen.toNat ≤ 65527) (hx : s.txid = some x) :
    decodeFrom s = decodeMessage Config.recordCountPolicy x ⟨s.ibuf, s.ilen.toNat⟩ := by
  simp only [decodeFrom, inputOf_eq hl, txidOf, hx, readHeld_some, inStage, ok_bind]

/-- DECMSG has a message or an error only with readable operands. -/
theorem decodeFrom_cases {s : State} :
    (∃ why, decodeFrom s = .error (.start, .refused why)) ∨
    ∃ x, s.ilen.toNat ≤ 65527 ∧ s.txid = some x ∧
      decodeFrom s = decodeMessage Config.recordCountPolicy x ⟨s.ibuf, s.ilen.toNat⟩ := by
  by_cases hl : s.ilen.toNat ≤ 65527
  · cases hx : s.txid with
    | none =>
      left
      simp [decodeFrom, inputOf_eq hl, txidOf, hx, inStage]
    | some x => exact .inr ⟨x, hl, rfl, decodeFrom_eq hl hx⟩
  · left
    have he : inputOf s = .error (.refused .ilenTooLong) := inputOf_error.mpr ⟨by omega, rfl⟩
    simp [decodeFrom, he, inStage]

theorem decodeFrom_ok {s : State} {m : Message} (h : decodeFrom s = .ok m) :
    ∃ x, s.ilen.toNat ≤ 65527 ∧ s.txid = some x ∧ decodeMessage .counts x ⟨s.ibuf, s.ilen.toNat⟩ = .ok m := by
  rcases decodeFrom_cases (s := s) with ⟨w, hw⟩ | ⟨x, hl, hx, hd⟩
  · rw [hw] at h
    cases h
  · exact ⟨x, hl, hx, hd.symm.trans h⟩

theorem decodeFrom_raised {s : State} {st : Stage} {e : CodecError} (h : decodeFrom s = .error (st, .raised e)) :
    ∃ x, s.ilen.toNat ≤ 65527 ∧ s.txid = some x ∧
      decodeMessage .counts x ⟨s.ibuf, s.ilen.toNat⟩ = .error (st, .raised e) := by
  rcases decodeFrom_cases (s := s) with ⟨w, hw⟩ | ⟨x, hl, hx, hd⟩
  · rw [hw] at h
    cases h
  · exact ⟨x, hl, hx, hd.symm.trans h⟩

/-- The outputs of a message that `decode_message` accepts are the state `decodedState` names. -/
theorem putDecoded_eq (s : State) (h : MessageHeader) (q : Question) (rs : List Record) :
    ((s.putDecoded (some ⟨h, hdrDecode h.flags, q, rs, (wireMessage h q rs).length⟩)).putStage .done).succeed =
      decodedState s h q rs := by
  simp only [State.putDecoded, State.putMessage, State.putHeader, State.putQuestion, State.putRecords, State.putCur,
    State.putStage, State.succeed, decodedState, Option.map_some, Option.getD_some, stageCode]

/-- The outputs of a failed message and its report are the state `undecodedState` names. -/
theorem putDecoded_none_eq (s : State) (st : Stage) (e : CodecError) :
    ((s.putDecoded none).putStage st).takeError e = undecodedState s st e := by
  simp only [State.putDecoded, State.putMessage, State.putHeader, State.putQuestion, State.putRecords, State.putCur,
    State.putStage, State.takeError, undecodedState, Option.map_none, Option.getD_none]

/-- A message is written with the stage Done. -/
theorem execDecmsg_of_ok {s : State} {m : Message} (h : decodeFrom s = .ok m) :
    exec .decmsg s = .next ((s.putDecoded (some m)).putStage .done).succeed := by
  rw [exec_decmsg, h, dropStage, finish_ok, endStage]

/-- An error is reported with its stage and no result. -/
theorem execDecmsg_of_raised {s : State} {st : Stage} {e : CodecError} (h : decodeFrom s = .error (st, .raised e)) :
    exec .decmsg s = .next (undecodedState s st e) := by
  rw [exec_decmsg, h, dropStage, finish_raised, endStage, putDecoded_none_eq]

/-- Everything DECMSG can have done. -/
theorem execDecmsg_next {s t : State} (h : exec .decmsg s = .next t) :
    (∃ m, decodeFrom s = .ok m ∧ t = ((s.putDecoded (some m)).putStage .done).succeed) ∨
      ∃ st e, decodeFrom s = .error (st, .raised e) ∧ t = undecodedState s st e := by
  rw [exec_decmsg] at h
  rcases finish_next.mp h with ⟨v, hv, rfl⟩ | ⟨e, hv, rfl⟩
  · have hd := dropStage_ok.mp hv
    exact .inl ⟨v, hd, by rw [hd, endStage]⟩
  · obtain ⟨st, hd⟩ := dropStage_error.mp hv
    exact .inr ⟨st, e, hd, by rw [hd, endStage, putDecoded_none_eq]⟩

/-- Everything a cursor command that reaches a next state can have done. -/
theorem finish_atCursor_next {α : Type} {f : Input → Nat → Run α} {put : Held α → State → State} {s t : State}
    (h : finish (atCursor f s) put s = .next t) :
    s.ilen.toNat ≤ 65527 ∧ ∃ c, s.cur = some c ∧
      ((∃ v, f ⟨s.ibuf, s.ilen.toNat⟩ c.toNat = .ok v ∧ t = (put (some v) s).succeed) ∨
        ∃ e, f ⟨s.ibuf, s.ilen.toNat⟩ c.toNat = .error (.raised e) ∧ t = (put none s).takeError e) := by
  rcases finish_next.mp h with ⟨v, hr, rfl⟩ | ⟨e, hr, rfl⟩
  · obtain ⟨hl, c, hc, hv⟩ := atCursor_ok.mp hr
    exact ⟨hl, c, hc, .inl ⟨v, hv, rfl⟩⟩
  · obtain ⟨hl, c, hc, hv⟩ := atCursor_raised.mp hr
    exact ⟨hl, c, hc, .inr ⟨e, hv, rfl⟩⟩

/-! ### Comparing two runs -/

variable {s t : State}

/-- A cursor command reads `ILEN`, `CUR` and what its function reads. -/
theorem atCursor_congr {α : Type} {f : Input → Nat → Run α} (h : inputsAgree .field s t)
    (hf : ∀ c, f ⟨s.ibuf, s.ilen.toNat⟩ c = f ⟨t.ibuf, s.ilen.toNat⟩ c) : atCursor f s = atCursor f t := by
  obtain ⟨h1, h2, h3⟩ := h
  unfold atCursor inputOf cursorOf
  rw [← h1, ← h2]
  by_cases h : Config.ibufMax < s.ilen.toNat
  · simp only [h, if_true, error_bind]
  · simp only [h, if_false, ok_bind, hf]

/-- The hostname is `HLEN` and the bytes of `HBUF` below it. -/
theorem hostnameOf_congr (h1 : s.hlen = t.hlen) (h2 : agreeBelow s.hlen.toNat s.hbuf t.hbuf) :
    hostnameOf s = hostnameOf t := by
  unfold hostnameOf
  rw [← h1]
  split
  · exact bytesAt_congr h2 (by omega)
  · rfl

/-- DECMSG reads `ILEN`, `TXID` and the bytes of `IBUF` below `ILEN`. -/
theorem decodeFrom_congr (h : inputsAgree .message s t) : decodeFrom s = decodeFrom t := by
  obtain ⟨h1, h2, h3⟩ := h
  unfold decodeFrom inputOf txidOf
  rw [← h1, ← h3]
  by_cases h : Config.ibufMax < s.ilen.toNat
  · simp only [h, if_true, inStage, error_bind]
  · simp only [h, if_false, inStage, ok_bind]
    cases s.txid with
    | none => simp only [readHeld_none, error_bind]
    | some x =>
      simp only [readHeld_some, ok_bind]
      exact decodeMessage_congr h2

/-- A run from two states has outcomes that agree on whatever its updates put into both. -/
theorem finish_agree {α : Type} {g : OutputGroup} {r r' : Run α} {put : Held α → State → State} {s t : State}
    (hr : r = r') (hput : ∀ v, outputsAgree g (put v s) (put v t)) :
    outcomesAgree g (finish r put s) (finish r' put t) := by
  have hs : ∀ u w : State, outputsAgree g u w → outputsAgree g u.succeed w.succeed := by
    intro u w h
    cases g <;> exact h
  have he : ∀ (u w : State) (e : CodecError), outputsAgree g u w → outputsAgree g (u.takeError e) (w.takeError e) := by
    intro u w e h
    cases g <;> exact h
  subst hr
  rcases r with (e | why) | v
  · exact ⟨he _ _ e (hput none), rfl, rfl, rfl⟩
  · exact rfl
  · exact ⟨hs _ _ (hput (some v)), rfl, rfl, rfl⟩

/-- A run that does not refuse ends in a next state. -/
theorem finish_of_neverRefuses {α : Type} {r : Run α} (hr : neverRefuses r) (put : Held α → State → State) (s : State) :
    ∃ t, finish r put s = .next t := by
  rcases r with (e | why) | v
  · exact ⟨_, rfl⟩
  · exact absurd rfl (hr why)
  · exact ⟨_, rfl⟩

end Sys2Proof.Machine
end

