-- ==== Sys2Proof/Laws/Frames.lean ====
section
/-! SUPPORT. What taking the outputs of a group changes and what it leaves, and when a command changed nothing else. -/

namespace Sys2Proof.Machine

variable (g : OutputGroup) (s t : State)

section takeReport
@[simp] theorem takeReport_cmd : (takeReport s t).cmd = s.cmd := rfl
@[simp] theorem takeReport_ilen : (takeReport s t).ilen = s.ilen := rfl
@[simp] theorem takeReport_hlen : (takeReport s t).hlen = s.hlen := rfl
@[simp] theorem takeReport_cur : (takeReport s t).cur = s.cur := rfl
@[simp] theorem takeReport_txid : (takeReport s t).txid = s.txid := rfl
@[simp] theorem takeReport_arg : (takeReport s t).arg = s.arg := rfl
@[simp] theorem takeReport_hf : (takeReport s t).hf = s.hf := rfl
@[simp] theorem takeReport_val : (takeReport s t).val = s.val := rfl
@[simp] theorem takeReport_olen : (takeReport s t).olen = s.olen := rfl
@[simp] theorem takeReport_err : (takeReport s t).err = t.err := rfl
@[simp] theorem takeReport_einfo0 : (takeReport s t).einfo0 = t.einfo0 := rfl
@[simp] theorem takeReport_einfo1 : (takeReport s t).einfo1 = t.einfo1 := rfl
@[simp] theorem takeReport_stage : (takeReport s t).stage = s.stage := rfl
@[simp] theorem takeReport_msg : (takeReport s t).msg = s.msg := rfl
@[simp] theorem takeReport_qst : (takeReport s t).qst = s.qst := rfl
@[simp] theorem takeReport_name : (takeReport s t).name = s.name := rfl
@[simp] theorem takeReport_nrec : (takeReport s t).nrec = s.nrec := rfl
@[simp] theorem takeReport_recs : (takeReport s t).recs = s.recs := rfl
@[simp] theorem takeReport_ibuf : (takeReport s t).ibuf = s.ibuf := rfl
@[simp] theorem takeReport_obuf : (takeReport s t).obuf = s.obuf := rfl
@[simp] theorem takeReport_hbuf : (takeReport s t).hbuf = s.hbuf := rfl
@[simp] theorem takeReport_req : (takeReport s t).req = s.req := rfl
end takeReport

/-! No group holds an input register, an input buffer, the command or the report. -/

section takeOutputs
@[simp] theorem takeOutputs_cmd : (takeOutputs g s t).cmd = s.cmd := by cases g <;> rfl
@[simp] theorem takeOutputs_ilen : (takeOutputs g s t).ilen = s.ilen := by cases g <;> rfl
@[simp] theorem takeOutputs_hlen : (takeOutputs g s t).hlen = s.hlen := by cases g <;> rfl
@[simp] theorem takeOutputs_txid : (takeOutputs g s t).txid = s.txid := by cases g <;> rfl
@[simp] theorem takeOutputs_arg : (takeOutputs g s t).arg = s.arg := by cases g <;> rfl
@[simp] theorem takeOutputs_err : (takeOutputs g s t).err = s.err := by cases g <;> rfl
@[simp] theorem takeOutputs_einfo0 : (takeOutputs g s t).einfo0 = s.einfo0 := by cases g <;> rfl
@[simp] theorem takeOutputs_einfo1 : (takeOutputs g s t).einfo1 = s.einfo1 := by cases g <;> rfl
@[simp] theorem takeOutputs_ibuf : (takeOutputs g s t).ibuf = s.ibuf := by cases g <;> rfl
@[simp] theorem takeOutputs_hbuf : (takeOutputs g s t).hbuf = s.hbuf := by cases g <;> rfl
@[simp] theorem takeOutputs_req : (takeOutputs g s t).req = s.req := by cases g <;> rfl
end takeOutputs

/-! Every other register belongs to the groups named. -/

section members
variable {g s t}
theorem takeOutputs_cur_of (h : g ∉ ([.field, .name, .question, .record, .message] : List OutputGroup)) :
    (takeOutputs g s t).cur = s.cur := by
  cases g <;> first | rfl | simp at h
theorem takeOutputs_hf_of (h : g ∉ ([.header, .opcode, .message] : List OutputGroup)) :
    (takeOutputs g s t).hf = s.hf := by
  cases g <;> first | rfl | simp at h
theorem takeOutputs_val_of (h : g ∉ ([.value, .field] : List OutputGroup)) :
    (takeOutputs g s t).val = s.val := by
  cases g <;> first | rfl | simp at h
theorem takeOutputs_olen_of (h : g ∉ ([.output] : List OutputGroup)) :
    (takeOutputs g s t).olen = s.olen := by
  cases g <;> first | rfl | simp at h
theorem takeOutputs_stage_of (h : g ∉ ([.message] : List OutputGroup)) :
    (takeOutputs g s t).stage = s.stage := by
  cases g <;> first | rfl | simp at h
theorem takeOutputs_msg_of (h : g ∉ ([.message] : List OutputGroup)) :
    (takeOutputs g s t).msg = s.msg := by
  cases g <;> first | rfl | simp at h
theorem takeOutputs_qst_of (h : g ∉ ([.question, .qclass, .message] : List OutputGroup)) :
    (takeOutputs g s t).qst = s.qst := by
  cases g <;> first | rfl | simp at h
theorem takeOutputs_name_of (h : g ∉ ([.name] : List OutputGroup)) :
    (takeOutputs g s t).name = s.name := by
  cases g <;> first | rfl | simp at h
theorem takeOutputs_nrec_of (h : g ∉ ([.record, .message] : List OutputGroup)) :
    (takeOutputs g s t).nrec = s.nrec := by
  cases g <;> first | rfl | simp at h
theorem takeOutputs_recs_of (h : g ∉ ([.record, .message] : List OutputGroup)) :
    (takeOutputs g s t).recs = s.recs := by
  cases g <;> first | rfl | simp at h
theorem takeOutputs_obuf_of (h : g ∉ ([.output] : List OutputGroup)) :
    (takeOutputs g s t).obuf = s.obuf := by
  cases g <;> first | rfl | simp at h
end members

variable {g s t}

/-- A command whose update writes nothing but the outputs of a group changes nothing else but the report. -/
theorem finish_onlyOutputsChanged {α : Type} {r : Run α} {put : Held α → State → State}
    (hp : ∀ v, put v s = takeOutputs g s (put v s)) (h : finish r put s = .next t) : onlyOutputsChanged g s t := by
  have hs : ∀ u : State, takeOutputs g s u.succeed = takeOutputs g s u := by
    intro u
    cases g <;> rfl
  have he : ∀ (u : State) (e : CodecError), takeOutputs g s (u.takeError e) = takeOutputs g s u := by
    intro u e
    cases g <;> rfl
  unfold onlyOutputsChanged
  rcases finish_next.mp h with ⟨v, -, rfl⟩ | ⟨e, -, rfl⟩
  · rw [hs, ← hp]
    rfl
  · rw [he, ← hp]
    rfl

/-- The inputs, `CMD` and the request are no output of any group. -/
theorem onlyOutputsChanged_inputs (h : onlyOutputsChanged g s t) :
    t.ibuf = s.ibuf ∧ t.hbuf = s.hbuf ∧ t.ilen = s.ilen ∧ t.hlen = s.hlen ∧ t.cmd = s.cmd ∧ t.txid = s.txid ∧
      t.arg = s.arg ∧ t.req = s.req := by
  unfold onlyOutputsChanged at h
  refine ⟨?_, ?_, ?_, ?_, ?_, ?_, ?_, ?_⟩ <;> rw [h] <;> simp

end Sys2Proof.Machine
end

