-- ==== Sys2Proof/Laws/HostPort.lean ====
section
/-! SUPPORT. What an act of the host does between commands and while a command waits (R54, R206). -/

namespace Sys2Proof.Machine

variable {s : State} {f : State → State}

/-- Between commands an act of the host has its effect. -/
@[simp] theorem State.hostAct_idle (h : s.req = .idle) : s.hostAct f = f s := by
  simp only [State.hostAct, h]

/-! Each act of the host by itself, between commands. -/

theorem State.hostWriteCmd_idle (c : BitVec 4) (h : s.req = .idle) :
    s.hostWriteCmd c = { s with cmd := c, req := .command } := State.hostAct_idle h

theorem State.hostWriteIlen_idle (n : Half) (h : s.req = .idle) :
    s.hostWriteIlen n = { s with ilen := n } := State.hostAct_idle h

theorem State.hostWriteHlen_idle (n : Half) (h : s.req = .idle) :
    s.hostWriteHlen n = { s with hlen := n } := State.hostAct_idle h

theorem State.hostWriteCur_idle (c : Half) (h : s.req = .idle) :
    s.hostWriteCur c = { s with cur := some c } := State.hostAct_idle h

theorem State.hostWriteTxid_idle (v : Half) (h : s.req = .idle) :
    s.hostWriteTxid v = { s with txid := some v } := State.hostAct_idle h

theorem State.hostWriteArg_idle (v : Half) (h : s.req = .idle) :
    s.hostWriteArg v = { s with arg := some v } := State.hostAct_idle h

theorem State.hostWriteHeader_idle (g : HeaderRegs → HeaderRegs) (h : s.req = .idle) :
    s.hostWriteHeader g = { s with hf := g s.hf } := State.hostAct_idle h

theorem State.hostLoadMessage_idle (bs : List Byte) (h : s.req = .idle) (hl : bs.length ≤ 65527) :
    s.hostLoadMessage bs =
      .next { s with ibuf := s.ibuf.writeFrom 0 bs, ilen := BitVec.ofNat 16 bs.length } := by
  rw [State.hostLoadMessage, if_pos (by exact hl), State.hostAct_idle h]

theorem State.hostLoadHostname_idle (bs : List Byte) (h : s.req = .idle) (hl : bs.length ≤ Config.hmax)
    (hc : bs.length < 65536) :
    s.hostLoadHostname bs =
      .next { s with hbuf := s.hbuf.writeFrom 0 bs, hlen := BitVec.ofNat 16 bs.length } := by
  rw [State.hostLoadHostname, if_pos ⟨hl, hc⟩, State.hostAct_idle h]

/-- A message longer than `IBUF` is refused, whatever the state. -/
theorem State.hostLoadMessage_tooLong (s : State) (bs : List Byte) (hl : 65527 < bs.length) :
    s.hostLoadMessage bs = .refused .ilenTooLong := if_neg (Nat.not_le.mpr hl)

/-- A hostname longer than `HBUF`, or than `HLEN` can count, is refused, whatever the state. -/
theorem State.hostLoadHostname_tooLong (s : State) (bs : List Byte) (hl : Config.hmax < bs.length ∨ 65536 ≤ bs.length) :
    s.hostLoadHostname bs = .refused .hlenTooLong :=
  if_neg fun h => hl.elim (Nat.not_lt.mpr h.1) (Nat.not_le.mpr h.2)

theorem State.hostReadOutput_idle (h : s.req = .idle) : s.hostReadOutput = s := State.hostAct_idle h

/-- While a command waits an act of the host breaks the run, and does nothing else. -/
theorem State.hostAct_busy (h : s.req ≠ .idle) : s.hostAct f = { s with req := .broken } := by
  unfold State.hostAct
  split
  · exact absurd ‹_› h
  · rfl

/-- A broken run is refused. -/
theorem step_broken (h : s.req = .broken) : step s = .refused .hostActedDuringCommand := by
  have hf : fetch s = none := by simp only [fetch, h]
  simp only [step, hf, h, if_true]

/-- A step after an act of the host that fell while a command waited is refused. -/
theorem step_hostAct_busy (h : s.req ≠ .idle) : step (s.hostAct f) = .refused .hostActedDuringCommand := by
  rw [State.hostAct_busy h]
  exact step_broken rfl

/-- All a step that answers a next state can do: nothing, with nothing asked, or the instruction that was asked for. -/
theorem step_next {t : State} (h : step s = .next t) :
    (s.req = .idle ∧ t = s) ∨ ∃ f bytes i rest, fetch s = some (f, bytes) ∧ decode f bytes = .ok (i, rest) ∧
      exec i s.consume = .next t := by
  unfold step at h
  split at h
  · split at h
    · cases h
    · cases h
      refine .inl ⟨?_, rfl⟩
      cases hq : s.req <;> simp_all [fetch]
  · split at h
    · exact .inr ⟨_, _, _, _, ‹_›, ‹_›, h⟩
    · cases h

end Sys2Proof.Machine
end

