-- ==== Sys2Proof/Laws/PerInstr.lean ====
section
/-! SUPPORT. Laws made instruction by instruction: every row's encoding has the length of its format. -/

namespace Sys2Proof.Laws.EncodeLength

/-- The encoding of a row has as many bytes as a word of its format. -/
def Statement (i : Instr) : Prop := (encode i).length = formatBytes (formatOf i)

theorem pack16 : Statement .pack16 := rfl
theorem unpack16 : Statement .unpack16 := rfl
theorem unpack32 : Statement .unpack32 := rfl
theorem nameenc : Statement .nameenc := rfl
theorem namedec : Statement .namedec := rfl
theorem hdrenc : Statement .hdrenc := rfl
theorem hdrdec : Statement .hdrdec := rfl
theorem rcdec : Statement .rcdec := rfl
theorem rtdec : Statement .rtdec := rfl
theorem qparse : Statement .qparse := rfl
theorem rrparse : Statement .rrparse := rfl
theorem encq : Statement .encq := rfl
theorem decmsg : Statement .decmsg := rfl
theorem cmdUnassigned0 : Statement .cmdUnassigned0 := rfl
theorem cmdUnassignedE : Statement .cmdUnassignedE := rfl
theorem cmdUnassignedF : Statement .cmdUnassignedF := rfl
theorem lenEnd : Statement .lenEnd := rfl
theorem lenLabel (n : BitVec 6) : Statement (.lenLabel n) := rfl
theorem lenRsv01 (x : BitVec 6) : Statement (.lenRsv01 x) := rfl
theorem lenRsv10 (x : BitVec 6) : Statement (.lenRsv10 x) := rfl
theorem lenPtr (x : BitVec 6) : Statement (.lenPtr x) := rfl
theorem flags (q : BitVec 1) (o : BitVec 4) (a t d r : BitVec 1) (z : BitVec 3) (c : BitVec 4) : Statement (.flags q o a t d r z c) := rfl
theorem flagsQuery : Statement .flagsQuery := rfl
theorem opcodeStandardQuery : Statement .opcodeStandardQuery := rfl
theorem opcodeUnnamed (o : BitVec 4) : Statement (.opcodeUnnamed o) := rfl
theorem rcodeNoError : Statement .rcodeNoError := rfl
theorem rcodeFormatError : Statement .rcodeFormatError := rfl
theorem rcodeServerFailure : Statement .rcodeServerFailure := rfl
theorem rcodeNameError : Statement .rcodeNameError := rfl
theorem rcodeNotImplemented : Statement .rcodeNotImplemented := rfl
theorem rcodeRefused : Statement .rcodeRefused := rfl
theorem rcodeUnknown (c : BitVec 4) : Statement (.rcodeUnknown c) := rfl
theorem rtypeA : Statement .rtypeA := rfl
theorem rtypeNs : Statement .rtypeNs := rfl
theorem rtypeCname : Statement .rtypeCname := rfl
theorem rtypeSoa : Statement .rtypeSoa := rfl
theorem rtypeWks : Statement .rtypeWks := rfl
theorem rtypePtr : Statement .rtypePtr := rfl
theorem rtypeMx : Statement .rtypeMx := rfl
theorem rtypeTxt : Statement .rtypeTxt := rfl
theorem rtypeUnknown (t : Half) : Statement (.rtypeUnknown t) := rfl
theorem classIn : Statement .classIn := rfl
theorem classOther (c : Half) : Statement (.classOther c) := rfl

end Sys2Proof.Laws.EncodeLength
end

