-- ==== Sys2Proof/Laws/Stops.lean ====
section
/-! SUPPORT. Bytes without a value (R29): a function that reaches one is refused at the first it reaches, read by read and
parser by parser. -/

namespace Sys2Proof.Machine

variable {inp : Input} {len a c n : Nat} {m : Memory}

/-! ### One field -/

theorem bytesAt_stops {sp : Space} (hca : c ≤ a) (han : a < c + n) (hr : m.read a = none)
    (hb : ∀ b, c ≤ b → b < a → m.read b ≠ none) :
    bytesAt sp m c n = .error (.refused (.noValue (.byteOf sp a))) := by
  induction n generalizing c with
  | zero => omega
  | succ n ih =>
    rcases Nat.eq_or_lt_of_le hca with rfl | hlt
    · simp only [bytesAt, byteAt, hr, readHeld_none, error_bind]
    · obtain ⟨v, hv⟩ := Option.ne_none_iff_exists'.mp (hb c (Nat.le_refl c) hlt)
      have ht := ih (c := c + 1) (by omega) (by omega) fun b h1 h2 => hb b (by omega) h2
      simp only [bytesAt, byteAt, hv, readHeld_some, ok_bind, ht, error_bind]

variable (h : stopsIn inp.buf inp.len a c n)
include h

theorem need_of_stopsIn : need inp c n = .ok () := need_ok.mpr h.1

theorem byteAt_stops (hca : c = a) : byteAt .ibuf inp.buf c = .error (.refused (.noValue (.byteOf .ibuf a))) := by
  subst hca
  simp only [byteAt, h.2.2.2.1, readHeld_none]

theorem byteAt_of_stopsIn {b : Nat} (hcb : c ≤ b) (hba : b < a) : ∃ v, byteAt .ibuf inp.buf b = .ok v := by
  obtain ⟨v, hv⟩ := Option.ne_none_iff_exists'.mp (h.2.2.2.2 b hcb hba)
  exact ⟨v, byteAt_ok.mpr hv⟩

theorem rdbytes_stops : rdbytes inp c n = .error (.refused (.noValue (.byteOf .ibuf a))) := by
  simp only [rdbytes, need_of_stopsIn h, ok_bind, bytesAt_stops h.2.1 h.2.2.1 h.2.2.2.1 h.2.2.2.2, error_bind]

end Sys2Proof.Machine

namespace Sys2Proof.Machine

variable {inp : Input} {a c : Nat}

theorem rd8_stops (h : stopsIn inp.buf inp.len a c 1) : rd8 inp c = .error (.refused (.noValue (.byteOf .ibuf a))) := by
  have := h.2.2.1
  have := h.2.1
  simp only [rd8, need_of_stopsIn h, ok_bind, byteAt_stops h (by omega), error_bind]

theorem rd16_stops (h : stopsIn inp.buf inp.len a c 2) : rd16 inp c = .error (.refused (.noValue (.byteOf .ibuf a))) := by
  have h2 := h.2.2.1
  have h1 := h.2.1
  have hr : byteAt .ibuf inp.buf a = .error (.refused (.noValue (.byteOf .ibuf a))) :=
    byteAt_error.mpr ⟨h.2.2.2.1, rfl⟩
  simp only [rd16, need_of_stopsIn h, ok_bind]
  obtain rfl | rfl : a = c ∨ a = c + 1 := by omega
  · rw [hr]
    rfl
  · obtain ⟨v, hv⟩ := byteAt_of_stopsIn h (Nat.le_refl c) (by omega)
    rw [hv, hr]
    rfl

theorem rd32_stops (h : stopsIn inp.buf inp.len a c 4) : rd32 inp c = .error (.refused (.noValue (.byteOf .ibuf a))) := by
  have h2 := h.2.2.1
  have h1 := h.2.1
  have hr : byteAt .ibuf inp.buf a = .error (.refused (.noValue (.byteOf .ibuf a))) :=
    byteAt_error.mpr ⟨h.2.2.2.1, rfl⟩
  simp only [rd32, need_of_stopsIn h, ok_bind]
  obtain rfl | rfl | rfl | rfl : a = c ∨ a = c + 1 ∨ a = c + 2 ∨ a = c + 3 := by omega
  · rw [hr]
    rfl
  · obtain ⟨v, hv⟩ := byteAt_of_stopsIn h (Nat.le_refl c) (by omega)
    rw [hv, hr]
    rfl
  · obtain ⟨v, hv⟩ := byteAt_of_stopsIn h (Nat.le_refl c) (by omega)
    obtain ⟨w, hw⟩ := byteAt_of_stopsIn h (by omega : c ≤ c + 1) (by omega)
    rw [hv, hw, hr]
    rfl
  · obtain ⟨v, hv⟩ := byteAt_of_stopsIn h (Nat.le_refl c) (by omega)
    obtain ⟨w, hw⟩ := byteAt_of_stopsIn h (by omega : c ≤ c + 1) (by omega)
    obtain ⟨x, hx⟩ := byteAt_of_stopsIn h (by omega : c ≤ c + 2) (by omega)
    rw [hv, hw, hx, hr]
    rfl

/-! ### Several fields -/

variable {m : Memory} {len : Nat} {fs gs : List (List Byte)} {ls : List Label} {q : Question} {r : Record}
  {rs : List Record} {hd : MessageHeader}

theorem stopsAt_append :
    stopsAt m len a c (fs ++ gs) ↔
      stopsAt m len a c fs ∨ (m.holds c fs.flatten ∧ stopsAt m len a (c + fs.flatten.length) gs) := by
  induction fs generalizing c with
  | nil => simp [stopsAt]
  | cons f fs ih =>
    simp only [List.cons_append, stopsAt, ih, List.flatten_cons, Memory.holds_append, List.length_append, Nat.add_assoc]
    tauto

/-- The place from which fields stop lies below the bound. -/
theorem le_of_stopsAt (h : stopsAt m len a c fs) : c ≤ len := by
  induction fs generalizing c with
  | nil => exact h.elim
  | cons f fs ih =>
    rcases h with h | ⟨-, h⟩
    · have := h.1
      omega
    · have := ih h
      omega

theorem nameFields_cons (l : Label) (ls : List Label) :
    nameFields (l :: ls) = [BitVec.ofNat 8 l.length] :: l :: nameFields ls := rfl

@[simp] theorem nameFields_flatten (ls : List Label) : (nameFields ls).flatten = wireName ls := by
  induction ls with
  | nil => rfl
  | cons l ls ih => rw [nameFields_cons, List.flatten_cons, List.flatten_cons, ih, wireName_cons]; rfl

@[simp] theorem questionFields_flatten (q : Question) : (questionFields q).flatten = wireQuestion q := by
  simp [questionFields, wireQuestion]

@[simp] theorem recordFields_flatten (r : Record) : (recordFields r).flatten = wireRecord r := by
  simp [recordFields, wireRecord, wireRecordFixed]

theorem nameDecode_stops (hls : legalName ls) (h : stopsAt inp.buf inp.len a c (nameFields ls)) :
    nameDecode inp c = .error (.refused (.noValue (.byteOf .ibuf a))) := by
  induction ls generalizing c with
  | nil =>
    rcases h with h | ⟨-, h⟩
    · rw [nameDecode_eq, rd8_stops h]
      rfl
    · exact h.elim
  | cons l ls ih =>
    have hl := hls l (by simp)
    rw [nameFields_cons] at h
    rcases h with h | ⟨h0, h | ⟨h1, h⟩⟩
    · rw [nameDecode_eq, rd8_stops h]
      rfl
    · have hn : (BitVec.ofNat 8 l.length).toNat = l.length := by
        simp only [legalLabel] at hl
        simp only [BitVec.toNat_ofNat]
        omega
      have hle := h.1
      have h8 : rd8 inp c = .ok (BitVec.ofNat 8 l.length, c + 1) :=
        rd8_ok.mpr ⟨by simp only [List.length_singleton] at hle; omega, h0.1, rfl⟩
      have ht := rdbytes_stops (c := c + 1) h
      rw [nameDecode_eq]
      simp only [h8, ok_bind, lenTurn_label _ _ _ (by rw [hn]; exact hl), hn, ht, error_bind]
    · have hle := le_of_stopsAt h
      have hw : c + (wireLabel l).length = c + [BitVec.ofNat 8 l.length].length + l.length := by
        simp only [wireLabel_length, List.length_singleton]
        omega
      rw [nameDecode_label hl ⟨h0.1, h1⟩ (by omega), hw, ih (fun x hx => hls x (by simp [hx])) h]
      rfl

theorem questionParse_stops (hq : legalQuestion q) (h : stopsAt inp.buf inp.len a c (questionFields q)) :
    questionParse inp c = .error (.refused (.noValue (.byteOf .ibuf a))) := by
  rw [questionFields, stopsAt_append, nameFields_flatten] at h
  rcases h with h | ⟨hn, h⟩
  · simp only [questionParse, nameDecode_stops hq.1 h, error_bind]
  · have hd := nameDecode_ok.mpr ⟨hq.1, hn, rfl, le_of_stopsAt h⟩
    simp only [questionParse, hd, ok_bind]
    rcases h with h | ⟨ht, h⟩
    · simp only [rd16_stops h, error_bind]
    · rw [rd16_ok.mpr ⟨le_of_stopsAt h, ht, rfl⟩, ok_bind, rtypeDecode_ok.mpr ⟨rfl, hq.2⟩, ok_bind]
      rcases h with h | ⟨-, h⟩
      · simp only [be16_length] at h
        simp only [rd16_stops h, error_bind]
      · exact h.elim

theorem rrParse_stops (hr : legalRecord r) (h : stopsAt inp.buf inp.len a c (recordFields r)) :
    rrParse inp c = .error (.refused (.noValue (.byteOf .ibuf a))) := by
  rw [recordFields, stopsAt_append, nameFields_flatten] at h
  rcases h with h | ⟨hn, h⟩
  · simp only [rrParse, nameDecode_stops hr.1 h, error_bind]
  · have hd := nameDecode_ok.mpr ⟨hr.1, hn, rfl, le_of_stopsAt h⟩
    simp only [rrParse, hd, ok_bind]
    rcases h with h | ⟨h1, h⟩
    · simp only [rd16_stops h, error_bind]
    rw [rd16_ok.mpr ⟨le_of_stopsAt h, h1, rfl⟩, ok_bind, rtypeDecode_ok.mpr ⟨rfl, hr.2.1⟩, ok_bind]
    simp only [be16_length] at h ⊢
    rcases h with h | ⟨h2, h⟩
    · simp only [be16_length] at h
      simp only [rd16_stops h, error_bind]
    simp only [be16_length] at h
    rw [rd16_ok.mpr ⟨le_of_stopsAt h, h2, rfl⟩, ok_bind]
    rcases h with h | ⟨h3, h⟩
    · simp only [rd32_stops h, error_bind]
    rw [rd32_ok.mpr ⟨le_of_stopsAt h, h3, rfl⟩, ok_bind]
    simp only [be32_length] at h ⊢
    rcases h with h | ⟨h4, h⟩
    · simp only [be16_length] at h
      simp only [rd16_stops h, error_bind]
    simp only [be16_length] at h
    rw [rd16_ok.mpr ⟨le_of_stopsAt h, h4, rfl⟩, ok_bind]
    rcases h with h | ⟨-, h⟩
    · rw [hr.2.2] at h
      simp only [rdbytes_stops h, error_bind]
    · exact h.elim

theorem parseRecords_stops {n : Nat} (hrs : ∀ r ∈ rs, legalRecord r) (hn : rs.length ≤ n)
    (h : stopsAt inp.buf inp.len a c (rs.flatMap recordFields)) :
    parseRecords inp n c = .error (.refused (.noValue (.byteOf .ibuf a))) := by
  induction rs generalizing c n with
  | nil => exact h.elim
  | cons r rs ih =>
    obtain ⟨n, rfl⟩ : ∃ k, n = k + 1 := ⟨n - 1, by simp only [List.length_cons] at hn; omega⟩
    simp only [List.length_cons, Nat.add_le_add_iff_right] at hn
    rw [List.flatMap_cons, stopsAt_append, recordFields_flatten] at h
    rcases h with h | ⟨hr, h⟩
    · simp only [parseRecords, rrParse_stops (hrs r (by simp)) h, error_bind]
    · have h1 := rrParse_ok.mpr ⟨hrs r (by simp), hr, rfl, le_of_stopsAt h⟩
      have h2 := ih (fun x hx => hrs x (by simp [hx])) hn h
      simp only [parseRecords, h1, ok_bind, h2, error_bind]

/-- Whatever the stage, DECMSG's function is refused at the first byte it reaches that holds no value. -/
theorem decodeMessage_stops (hrc : (hdrDecode hd.flags).rcode.toNat ≤ 5) (hq : legalQuestion q)
    (hrs : ∀ r ∈ rs, legalRecord r) (hn : rs.length ≤ promisedRecords hd)
    (h : stopsAt inp.buf inp.len a 0 (messageFields hd q rs)) :
    ∃ st, decodeMessage .counts hd.id inp = .error (st, .refused (.noValue (.byteOf .ibuf a))) := by
  rw [messageFields, stopsAt_append] at h
  rcases h with h | ⟨hh, h⟩
  · have hi : checkId hd.id hd.id = .ok () := checkId_ok.mpr rfl
    have hc : rcodeDecode ((hdrDecode hd.flags).rcode.setWidth 16) = .ok (hdrDecode hd.flags).rcode := by
      refine rcodeDecode_ok.mpr ⟨rfl, ?_⟩
      have := (hdrDecode hd.flags).rcode.isLt
      simp only [BitVec.toNat_setWidth]
      omega
    rcases h with h | ⟨h0, h⟩
    · exact ⟨.transactionIdCheck, by simp only [decodeMessage, rd16_stops (c := 0) h, inStage, error_bind]⟩
    have r0 : rd16 inp 0 = .ok (hd.id, 2) := rd16_ok.mpr ⟨le_of_stopsAt h, h0, rfl⟩
    refine ⟨.header, ?_⟩
    simp only [decodeMessage, r0, hi, inStage, ok_bind]
    rcases h with h | ⟨h1, h⟩
    · simp only [rd16_stops (c := 2) h, error_bind]
    have r1 : rd16 inp 2 = .ok (hd.flags, 4) := rd16_ok.mpr ⟨le_of_stopsAt h, h1, rfl⟩
    simp only [r1, hc, ok_bind]
    rcases h with h | ⟨h2, h⟩
    · simp only [rd16_stops (c := 4) h, error_bind]
    have r2 : rd16 inp 4 = .ok (hd.qdcount, 6) := rd16_ok.mpr ⟨le_of_stopsAt h, h2, rfl⟩
    simp only [r2, ok_bind]
    rcases h with h | ⟨h3, h⟩
    · simp only [rd16_stops (c := 6) h, error_bind]
    have r3 : rd16 inp 6 = .ok (hd.ancount, 8) := rd16_ok.mpr ⟨le_of_stopsAt h, h3, rfl⟩
    simp only [r3, ok_bind]
    rcases h with h | ⟨h4, h⟩
    · simp only [rd16_stops (c := 8) h, error_bind]
    have r4 : rd16 inp 8 = .ok (hd.nscount, 10) := rd16_ok.mpr ⟨le_of_stopsAt h, h4, rfl⟩
    simp only [r4, ok_bind]
    rcases h with h | ⟨h5, h⟩
    · simp only [rd16_stops (c := 10) h, error_bind]
    exact h.elim
  · have hh : inp.buf.holds 0 (wireHeader hd) := by simpa [wireHeader] using hh
    have h : stopsAt inp.buf inp.len a 12 (questionFields q ++ rs.flatMap recordFields) := h
    rw [decodeMessage_behindHeader _ hrc hh (le_of_stopsAt h)]
    rw [stopsAt_append, questionFields_flatten] at h
    rcases h with h | ⟨hw, h⟩
    · exact ⟨.question, by rw [questionParse_stops hq h]; rfl⟩
    · rw [questionParse_ok.mpr ⟨hq, hw, rfl, le_of_stopsAt h⟩]
      refine ⟨.records, ?_⟩
      show (inStage .records (parseRecords inp (promisedRecords hd) _) >>= _) = _
      rw [parseRecords_stops hrs hn h]
      rfl

end Sys2Proof.Machine
end

