-- ==== Sys2Proof/Tests/Slice0.lean ====
section
/-! SUPPORT. Tests: the ill-formed terms, every row's decoding from a word written out from the table's encoding, one-step
tests from the vectors of 95_test_vectors.md, and a witness for the hypotheses of every statement. -/

namespace Sys2Proof.Tests

open Sys2Proof.Machine

-- one theorem at a time: each of these waits for the kernel, and together they would need a thread each
set_option Elab.async false

/-! ### Helpers -/

/-- Whether an outcome is a next state with a property. -/
def after (o : Host.Outcome State Fault Refusal) (p : State → Bool) : Bool :=
  match o with
  | .next t => p t
  | _ => false

/-- Whether an outcome is the given refusal. -/
def refuses (o : Host.Outcome State Fault Refusal) (r : Refusal) : Bool :=
  match o with
  | .refused why => decide (why = r)
  | _ => false

/-- Whether an outcome is the given fault. -/
def faults (o : Host.Outcome State Fault Refusal) (f : Fault) : Bool :=
  match o with
  | .fault f' => decide (f' = f)
  | _ => false

/-- Whether a function raises the given error. -/
def raises (r : Run (List Byte)) (e : CodecError) : Bool :=
  match r with
  | .error (.raised e') => decide (e' = e)
  | _ => false

theorem next_of_after {o : Host.Outcome State Fault Refusal} {p : State → Bool} (h : after o p = true) :
    ∃ t, o = .next t ∧ p t = true := by
  rcases o with t | f | r
  · exact ⟨t, rfl, h⟩
  · cases h
  · cases h

/-- Reset, with a message in IBUF. -/
def message (bytes : List Byte) : State :=
  { State.reset with ibuf := State.reset.ibuf.writeFrom 0 bytes, ilen := BitVec.ofNat 16 bytes.length }

/-- Reset, with a hostname in HBUF. -/
def hostname (bytes : List Byte) : State :=
  { State.reset with hbuf := State.reset.hbuf.writeFrom 0 bytes, hlen := BitVec.ofNat 16 bytes.length }

/-- Both are what the host's loads give, for bytes that fit. -/
theorem message_loads (bytes : List Byte) (h : bytes.length ≤ 65527) :
    State.reset.hostLoadMessage bytes = .next (message bytes) := State.hostLoadMessage_idle bytes rfl h

theorem hostname_loads (bytes : List Byte) (h : bytes.length ≤ Config.hmax) (hc : bytes.length < 65536) :
    State.reset.hostLoadHostname bytes = .next (hostname bytes) := State.hostLoadHostname_idle bytes rfl h hc

/-- Reset, with a message in IBUF, a cursor and a transaction id. -/
def input (bytes : List Byte) (cur : Half) : State := ((message bytes).hostWriteCur cur).hostWriteTxid 0x0709

/-- Reset, with a hostname in HBUF, a type and a transaction id. -/
def host (bytes : List Byte) (v : Half) : State := ((hostname bytes).hostWriteArg v).hostWriteTxid 0x0709

/-- Reset, with ARG. -/
def arg (v : Half) : State := State.reset.hostWriteArg v

/-- Reset, with every field of HF. -/
def header (f : FlagFields) : State := State.reset.putHeader (some f)

def example_com : List Byte := [0x65, 0x78, 0x61, 0x6D, 0x70, 0x6C, 0x65, 0x2E, 0x63, 0x6F, 0x6D]

def name13 : List Byte :=
  [0x07, 0x65, 0x78, 0x61, 0x6D, 0x70, 0x6C, 0x65, 0x03, 0x63, 0x6F, 0x6D, 0x00]

/-- The labels "example", "com". -/
def exampleLabels : List Label := [[0x65, 0x78, 0x61, 0x6D, 0x70, 0x6C, 0x65], [0x63, 0x6F, 0x6D]]

def hdrq : List Byte := [0x07, 0x09, 0x81, 0x80, 0x00, 0x01, 0x00, 0x00, 0x00, 0x00, 0x00, 0x00]

/-- Program P2's response, 56 bytes. -/
def resp56 : List Byte :=
  [0x07, 0x09, 0x81, 0x80, 0x00, 0x01, 0x00, 0x01, 0x00, 0x00, 0x00, 0x00] ++ name13 ++ [0x00, 0x01, 0x00, 0x01] ++
    name13 ++ [0x00, 0x01, 0x00, 0x01, 0x00, 0x00, 0x0E, 0x10, 0x00, 0x04, 0x5D, 0xB8, 0xD8, 0x22]

/-- Its record, 27 bytes. -/
def record27 : List Byte := resp56.drop 29

def theRecord : Record := ⟨exampleLabels, 1, 1, 3600, 4, [0x5D, 0xB8, 0xD8, 0x22]⟩

/-- The bytes of vectors INT10 to INT21. -/
def ints : List Byte := [0x07, 0x09, 0x81, 0x80, 0x00, 0x01, 0x0E, 0x10, 0xFF, 0xFF, 0xFF, 0xFF]

/-! ### Ill-formed terms, one for each check of WellFormed -/

theorem test_illformed_label_zero : WellFormed (.lenLabel 0) = false := by decide
theorem test_illformed_flags_query : WellFormed (.flags 0 0 0 0 1 0 0 0) = false := by decide
theorem test_illformed_opcode_zero : WellFormed (.opcodeUnnamed 0) = false := by decide
theorem test_illformed_rcode_three : WellFormed (.rcodeUnknown 3) = false := by decide
theorem test_illformed_rtype_a : WellFormed (.rtypeUnknown 1) = false := by decide
theorem test_illformed_class_in : WellFormed (.classOther 1) = false := by decide

/-! ### Every row's decoding, from the table's encoding -/

theorem test_decode_pack16 : decode .cmd [0b00000001] = .ok (.pack16, []) := rfl
theorem test_decode_unpack16 : decode .cmd [0b00000010] = .ok (.unpack16, []) := rfl
theorem test_decode_unpack32 : decode .cmd [0b00000011] = .ok (.unpack32, []) := rfl
theorem test_decode_nameenc : decode .cmd [0b00000100] = .ok (.nameenc, []) := rfl
theorem test_decode_namedec : decode .cmd [0b00000101] = .ok (.namedec, []) := rfl
theorem test_decode_hdrenc : decode .cmd [0b00000110] = .ok (.hdrenc, []) := rfl
theorem test_decode_hdrdec : decode .cmd [0b00000111] = .ok (.hdrdec, []) := rfl
theorem test_decode_rcdec : decode .cmd [0b00001000] = .ok (.rcdec, []) := rfl
theorem test_decode_rtdec : decode .cmd [0b00001001] = .ok (.rtdec, []) := rfl
theorem test_decode_qparse : decode .cmd [0b00001010] = .ok (.qparse, []) := rfl
theorem test_decode_rrparse : decode .cmd [0b00001011] = .ok (.rrparse, []) := rfl
theorem test_decode_encq : decode .cmd [0b00001100] = .ok (.encq, []) := rfl
theorem test_decode_decmsg : decode .cmd [0b00001101] = .ok (.decmsg, []) := rfl
theorem test_decode_cmdUnassigned0 : decode .cmd [0b00000000] = .ok (.cmdUnassigned0, []) := rfl
theorem test_decode_cmdUnassignedE : decode .cmd [0b00001110] = .ok (.cmdUnassignedE, []) := rfl
theorem test_decode_cmdUnassignedF : decode .cmd [0b00001111] = .ok (.cmdUnassignedF, []) := rfl
theorem test_decode_lenEnd : decode .len8 [0b00000000] = .ok (.lenEnd, []) := rfl
theorem test_decode_lenLabel : decode .len8 [0b00111111] = .ok (.lenLabel 0b111111, []) := rfl
theorem test_decode_lenRsv01 : decode .len8 [0b01000001] = .ok (.lenRsv01 0b000001, []) := rfl
theorem test_decode_lenRsv10 : decode .len8 [0b10111110] = .ok (.lenRsv10 0b111110, []) := rfl
theorem test_decode_lenPtr : decode .len8 [0b11001100] = .ok (.lenPtr 0b001100, []) := rfl
theorem test_decode_flags :
    decode .flags16 [0b10010110, 0b11010011] = .ok (.flags 1 0b0010 1 1 0 1 0b101 0b0011, []) := rfl
theorem test_decode_flagsQuery : decode .flags16 [0b00000001, 0b00000000] = .ok (.flagsQuery, []) := rfl
theorem test_decode_opcodeStandardQuery : decode .opcode4 [0b00000000] = .ok (.opcodeStandardQuery, []) := rfl
theorem test_decode_opcodeUnnamed : decode .opcode4 [0b00000101] = .ok (.opcodeUnnamed 0b0101, []) := rfl
theorem test_decode_rcodeNoError : decode .rcode4 [0b00000000] = .ok (.rcodeNoError, []) := rfl
theorem test_decode_rcodeFormatError : decode .rcode4 [0b00000001] = .ok (.rcodeFormatError, []) := rfl
theorem test_decode_rcodeServerFailure : decode .rcode4 [0b00000010] = .ok (.rcodeServerFailure, []) := rfl
theorem test_decode_rcodeNameError : decode .rcode4 [0b00000011] = .ok (.rcodeNameError, []) := rfl
theorem test_decode_rcodeNotImplemented : decode .rcode4 [0b00000100] = .ok (.rcodeNotImplemented, []) := rfl
theorem test_decode_rcodeRefused : decode .rcode4 [0b00000101] = .ok (.rcodeRefused, []) := rfl
theorem test_decode_rcodeUnknown : decode .rcode4 [0b00000110] = .ok (.rcodeUnknown 6, []) := rfl
theorem test_decode_rtypeA : decode .rtype16 [0b00000000, 0b00000001] = .ok (.rtypeA, []) := rfl
theorem test_decode_rtypeNs : decode .rtype16 [0b00000000, 0b00000010] = .ok (.rtypeNs, []) := rfl
theorem test_decode_rtypeCname : decode .rtype16 [0b00000000, 0b00000101] = .ok (.rtypeCname, []) := rfl
theorem test_decode_rtypeSoa : decode .rtype16 [0b00000000, 0b00000110] = .ok (.rtypeSoa, []) := rfl
theorem test_decode_rtypeWks : decode .rtype16 [0b00000000, 0b00001011] = .ok (.rtypeWks, []) := rfl
theorem test_decode_rtypePtr : decode .rtype16 [0b00000000, 0b00001100] = .ok (.rtypePtr, []) := rfl
theorem test_decode_rtypeMx : decode .rtype16 [0b00000000, 0b00001111] = .ok (.rtypeMx, []) := rfl
theorem test_decode_rtypeTxt : decode .rtype16 [0b00000000, 0b00010000] = .ok (.rtypeTxt, []) := rfl
theorem test_decode_rtypeUnknown : decode .rtype16 [0b00000001, 0b00000001] = .ok (.rtypeUnknown 0x0101, []) := rfl
theorem test_decode_classIn : decode .class16 [0b00000000, 0b00000001] = .ok (.classIn, []) := rfl
theorem test_decode_classOther : decode .class16 [0b00000001, 0b00000000] = .ok (.classOther 0x0100, []) := rfl
theorem test_decode_upper_bits : decode .cmd [0b00010001] = .error (.notFourBits 0x11) := rfl
theorem test_decode_short : decode .flags16 [0b00000001] = .error .tooShort := rfl

/-! ### Table words -/

theorem test_table_command : decodeTableWord 8 0xD = some .decmsg := by decide
theorem test_table_length : decodeTableWord 8 0x41 = some (.lenRsv01 1) := by decide
theorem test_table_flags : decodeTableWord 16 0x8180 = some (.flags 1 0 0 0 1 1 0 0) := by decide
theorem test_table_rtype : decodeTableWord 16 16 = some .rtypeTxt := by decide
theorem test_table_too_wide : decodeTableWord 24 1 = none := by decide

/-- A placed command is the very next step. -/
theorem test_placed_command : after (step (State.reset.withFetchWord 8 0x4)) (fun t =>
    decide (t.cmd = 4 ∧ t.obuf = [(0, 0x00)] ∧ t.olen = some 1 ∧ t.req = .idle)) = true := by decide +kernel

/-- A placed wire pattern is the very next step. -/
theorem test_placed_pattern : after (step (State.reset.withFetchWord 16 0x8180)) (fun t =>
    decide (t.hf.qr = some 1 ∧ t.hf.ra = some 1 ∧ t.req = .idle)) = true := by decide +kernel

theorem test_placed_unassigned :
    refuses (step (State.reset.withFetchWord 8 0xE)) (.unassignedCommand 0xE) = true := by decide +kernel

/-! ### One step each, from the vectors of 95_test_vectors.md -/

/-- INT4. -/
theorem test_pack16_order : after (step ((arg 0x0709).hostWriteCmd 0x1)) (fun t =>
    decide (t.obuf = [(0, 0x07), (1, 0x09)] ∧ t.olen = some 2 ∧ t.err = 0 ∧ t.arg = some 0x0709)) = true := by decide +kernel

/-- INT7. -/
theorem test_pack16_high_byte : after (step ((arg 0xFF00).hostWriteCmd 0x1)) (fun t =>
    decide (t.obuf = [(0, 0xFF), (1, 0x00)])) = true := by decide +kernel

/-- INT11. -/
theorem test_unpack16_odd_address : after (step ((input ints 1).hostWriteCmd 0x2)) (fun t =>
    decide (t.val = some 0x00000981 ∧ t.cur = some 3 ∧ t.err = 0)) = true := by decide +kernel

/-- INT19. -/
theorem test_unpack16_one_byte_left : after (step ((input ints 11).hostWriteCmd 0x2)) (fun t =>
    decide (t.err = 1 ∧ t.val = none ∧ t.cur = none)) = true := by decide +kernel

/-- INT16. -/
theorem test_unpack32_all_ones : after (step ((input ints 8).hostWriteCmd 0x3)) (fun t =>
    decide (t.val = some 0xFFFFFFFF ∧ t.cur = some 12 ∧ t.err = 0)) = true := by decide +kernel

/-- INT17. -/
theorem test_unpack32_three_bytes_left : after (step ((input ints 9).hostWriteCmd 0x3)) (fun t =>
    decide (t.err = 1 ∧ t.val = none ∧ t.cur = none)) = true := by decide +kernel

/-- S1. -/
theorem test_nameenc_example : after (step ((host example_com 1).hostWriteCmd 0x4)) (fun t =>
    decide (t.obuf.bytes = name13 ∧ t.olen = some 13 ∧ t.err = 0)) = true := by decide +kernel

/-- NE13. -/
theorem test_nameenc_long_label : after (step ((host (List.replicate 64 0x61) 1).hostWriteCmd 0x4)) (fun t =>
    decide (t.err = 2 ∧ t.obuf = [] ∧ t.olen = none)) = true := by decide +kernel

/-- ND4. -/
theorem test_namedec_mid_buffer : after (step ((input [0xFF, 0xFF, 0x01, 0x61, 0x00, 0xAA] 2).hostWriteCmd 0x5)) (fun t =>
    decide (t.name = some [[0x61]] ∧ t.cur = some 5 ∧ t.err = 0)) = true := by decide +kernel

/-- ND16. -/
theorem test_namedec_pointer : after (step ((input [0xC0] 0).hostWriteCmd 0x5)) (fun t =>
    decide (t.err = 4 ∧ t.name = none ∧ t.cur = none)) = true := by decide +kernel

/-- HW24. -/
theorem test_hdrenc_all_but_z : after (step ((header ⟨1, 15, 1, 1, 1, 1, 7, 15⟩).hostWriteCmd 0x6)) (fun t =>
    decide (t.val = some 0x0000FF8F ∧ t.hf.z = some 7)) = true := by decide +kernel

/-- HW23. -/
theorem test_hdrenc_opcode : after (step ((header ⟨0, 2, 0, 0, 0, 0, 0, 0⟩).hostWriteCmd 0x6)) (fun t =>
    decide (t.val = some 0x00001000)) = true := by decide +kernel

/-- S3. -/
theorem test_hdrdec_response : after (step ((arg 0x8180).hostWriteCmd 0x7)) (fun t =>
    decide (t.hf = ⟨some 1, some 0, some 0, some 0, some 1, some 1, some 0, some 0⟩ ∧ t.err = 0)) = true := by decide +kernel

/-- HW13. -/
theorem test_hdrdec_z : after (step ((arg 0x0070).hostWriteCmd 0x7)) (fun t =>
    decide (t.hf.z = some 7 ∧ t.hf.rcode = some 0 ∧ t.err = 0)) = true := by decide +kernel

/-- RC6. -/
theorem test_rcdec_refused : after (step ((arg 5).hostWriteCmd 0x8)) (fun t =>
    decide (t.val = some 5 ∧ t.err = 0)) = true := by decide +kernel

/-- RC10. -/
theorem test_rcdec_not_masked : after (step ((arg 0x0103).hostWriteCmd 0x8)) (fun t =>
    decide (t.err = 6 ∧ t.einfo0 = some 0x0103 ∧ t.einfo1 = none ∧ t.val = none)) = true := by decide +kernel

/-- RT7. -/
theorem test_rtdec_mx : after (step ((arg 15).hostWriteCmd 0x9)) (fun t =>
    decide (t.val = some 15 ∧ t.err = 0)) = true := by decide +kernel

/-- RT15. -/
theorem test_rtdec_high_byte : after (step ((arg 0x0101).hostWriteCmd 0x9)) (fun t =>
    decide (t.err = 5 ∧ t.einfo0 = some 0x0101 ∧ t.val = none)) = true := by decide +kernel

/-- P3, step 9. -/
theorem test_qparse_question : after (step ((input resp56 12).hostWriteCmd 0xA)) (fun t =>
    decide (t.qst = ⟨some exampleLabels, some 1, some 1⟩ ∧ t.cur = some 29 ∧ t.err = 0)) = true := by decide +kernel

/-- rule R130: a bad type is raised with the class missing. -/
theorem test_qparse_type_before_class : after (step ((input (name13 ++ [0x00, 0x63]) 0).hostWriteCmd 0xA)) (fun t =>
    decide (t.err = 5 ∧ t.einfo0 = some 0x63 ∧ t.qst = ⟨none, none, none⟩ ∧ t.cur = none)) = true := by decide +kernel

/-- P3, step 10. -/
theorem test_rrparse_record : after (step ((input resp56 29).hostWriteCmd 0xB)) (fun t =>
    decide (t.nrec = some 1 ∧ t.recs = [theRecord] ∧ t.cur = some 56 ∧ t.err = 0)) = true := by decide +kernel

/-- S4 (a), the record alone. -/
theorem test_rrparse_short_rdata : after (step ((input (record27.take 26) 0).hostWriteCmd 0xB)) (fun t =>
    decide (t.err = 1 ∧ t.recs = [] ∧ t.nrec = none ∧ t.cur = none)) = true := by decide +kernel

/-- S2. -/
theorem test_encq_example : after (step ((host example_com 1).hostWriteCmd 0xC)) (fun t =>
    decide (t.obuf.bytes = [0x07, 0x09, 0x01, 0x00, 0x00, 0x01, 0x00, 0x00, 0x00, 0x00, 0x00, 0x00] ++ name13 ++
      [0x00, 0x01, 0x00, 0x01] ∧ t.olen = some 29 ∧ t.err = 0)) = true := by decide +kernel

/-- EQ8. -/
theorem test_encq_name_before_type : after (step ((host (List.replicate 64 0x61) 99).hostWriteCmd 0xC)) (fun t =>
    decide (t.err = 2 ∧ t.einfo0 = none ∧ t.olen = none)) = true := by decide +kernel

/-- P2. -/
theorem test_decmsg_response : after (step ((input resp56 0).hostWriteCmd 0xD)) (fun t =>
    decide (t.msg = ⟨some 0x0709, some 0x8180, some 1, some 1, some 0, some 0⟩ ∧ t.recs = [theRecord] ∧
      t.qst = ⟨some exampleLabels, some 1, some 1⟩ ∧ t.cur = some 56 ∧ t.stage = 5 ∧ t.err = 0)) = true := by decide +kernel

/-- DM20. -/
theorem test_decmsg_id_first : after (step ((input [0x12, 0x34, 0x81, 0x89, 0, 0, 0, 0, 0, 0, 0, 0] 0).hostWriteCmd 0xD)) (fun t =>
    decide (t.err = 7 ∧ t.einfo0 = some 0x0709 ∧ t.einfo1 = some 0x1234 ∧ t.stage = 1 ∧ t.cur = none)) = true := by decide +kernel

/-- rule R64: the octet ends the name. -/
theorem test_lenEnd : after (exec .lenEnd (input [0x00] 1)) (fun t =>
    decide (t.name = some [] ∧ t.cur = some 1 ∧ t.err = 0)) = true := by decide +kernel

/-- rule R103: the next n bytes are the label. -/
theorem test_lenLabel : after (exec (.lenLabel 2) (input [0x02, 0x61, 0x62] 1)) (fun t =>
    decide (t.name = some [[0x61, 0x62]] ∧ t.cur = some 3 ∧ t.err = 0)) = true := by decide +kernel

/-- ND10. -/
theorem test_lenLabel_short : after (exec (.lenLabel 3) (input [0x03, 0x63] 1)) (fun t =>
    decide (t.err = 1 ∧ t.name = none)) = true := by decide +kernel

/-- ND12. -/
theorem test_lenRsv01 : after (exec (.lenRsv01 0) (input [0x40] 1)) (fun t =>
    decide (t.err = 4 ∧ t.name = none ∧ t.cur = none)) = true := by decide +kernel

/-- ND13. -/
theorem test_lenRsv10 : after (exec (.lenRsv10 0) (input [0x80] 1)) (fun t =>
    decide (t.err = 4 ∧ t.name = none)) = true := by decide +kernel

/-- ND15. -/
theorem test_lenPtr : after (exec (.lenPtr 0) (input [0xC0, 0x0C] 1)) (fun t =>
    decide (t.err = 4 ∧ t.name = none)) = true := by decide +kernel

/-- HW6. -/
theorem test_flags : after (exec (.flags 1 0 1 0 1 1 0 0) State.reset) (fun t =>
    decide (t.hf = ⟨some 1, some 0, some 1, some 0, some 1, some 1, some 0, some 0⟩)) = true := by decide +kernel

/-- HW2. -/
theorem test_flagsQuery : after (exec .flagsQuery State.reset) (fun t =>
    decide (t.hf = ⟨some 0, some 0, some 0, some 0, some 1, some 0, some 0, some 0⟩)) = true := by decide +kernel

/-- rule R66. -/
theorem test_opcodeStandardQuery : after (exec .opcodeStandardQuery State.reset) (fun t =>
    decide (t.hf.opcode = some 0 ∧ t.hf.qr = none ∧ t.err = 0)) = true := by decide +kernel

/-- HW12: any value is returned. -/
theorem test_opcodeUnnamed : after (exec (.opcodeUnnamed 15) State.reset) (fun t =>
    decide (t.hf.opcode = some 15 ∧ t.err = 0)) = true := by decide +kernel

/-- RC1. -/
theorem test_rcodeNoError : after (exec .rcodeNoError State.reset) (fun t =>
    decide (t.val = some 0 ∧ t.err = 0)) = true := by decide +kernel

/-- RC2. -/
theorem test_rcodeFormatError : after (exec .rcodeFormatError State.reset) (fun t =>
    decide (t.val = some 1 ∧ t.err = 0)) = true := by decide +kernel

/-- RC3. -/
theorem test_rcodeServerFailure : after (exec .rcodeServerFailure State.reset) (fun t =>
    decide (t.val = some 2 ∧ t.err = 0)) = true := by decide +kernel

/-- RC4. -/
theorem test_rcodeNameError : after (exec .rcodeNameError State.reset) (fun t =>
    decide (t.val = some 3 ∧ t.err = 0)) = true := by decide +kernel

/-- RC5. -/
theorem test_rcodeNotImplemented : after (exec .rcodeNotImplemented State.reset) (fun t =>
    decide (t.val = some 4 ∧ t.err = 0)) = true := by decide +kernel

/-- RC6. -/
theorem test_rcodeRefused : after (exec .rcodeRefused State.reset) (fun t =>
    decide (t.val = some 5 ∧ t.err = 0)) = true := by decide +kernel

/-- RC8. -/
theorem test_rcodeUnknown : after (exec (.rcodeUnknown 15) State.reset) (fun t =>
    decide (t.err = 6 ∧ t.einfo0 = some 15 ∧ t.val = none)) = true := by decide +kernel

/-- RT1. -/
theorem test_rtypeA : after (exec .rtypeA State.reset) (fun t =>
    decide (t.val = some 1 ∧ t.err = 0)) = true := by decide +kernel

/-- RT2. -/
theorem test_rtypeNs : after (exec .rtypeNs State.reset) (fun t =>
    decide (t.val = some 2 ∧ t.err = 0)) = true := by decide +kernel

/-- RT3. -/
theorem test_rtypeCname : after (exec .rtypeCname State.reset) (fun t =>
    decide (t.val = some 5 ∧ t.err = 0)) = true := by decide +kernel

/-- RT4. -/
theorem test_rtypeSoa : after (exec .rtypeSoa State.reset) (fun t =>
    decide (t.val = some 6 ∧ t.err = 0)) = true := by decide +kernel

/-- RT5. -/
theorem test_rtypeWks : after (exec .rtypeWks State.reset) (fun t =>
    decide (t.val = some 11 ∧ t.err = 0)) = true := by decide +kernel

/-- RT6. -/
theorem test_rtypePtr : after (exec .rtypePtr State.reset) (fun t =>
    decide (t.val = some 12 ∧ t.err = 0)) = true := by decide +kernel

/-- RT7. -/
theorem test_rtypeMx : after (exec .rtypeMx State.reset) (fun t =>
    decide (t.val = some 15 ∧ t.err = 0)) = true := by decide +kernel

/-- RT8. -/
theorem test_rtypeTxt : after (exec .rtypeTxt State.reset) (fun t =>
    decide (t.val = some 16 ∧ t.err = 0)) = true := by decide +kernel

/-- RT12. -/
theorem test_rtypeUnknown : after (exec (.rtypeUnknown 99) State.reset) (fun t =>
    decide (t.err = 5 ∧ t.einfo0 = some 99 ∧ t.val = none)) = true := by decide +kernel

/-- rule R69. -/
theorem test_classIn : after (exec .classIn State.reset) (fun t =>
    decide (t.qst.qclass = some 1 ∧ t.err = 0)) = true := by decide +kernel

/-- DM11: any class is accepted. -/
theorem test_classOther : after (exec (.classOther 0x00FF) State.reset) (fun t =>
    decide (t.qst.qclass = some 0x00FF ∧ t.err = 0)) = true := by decide +kernel

/-- NE15: the encoding would be 256 bytes. -/
theorem test_name_too_long : raises (nameEncode (List.replicate 63 0x61 ++ [dot] ++ List.replicate 63 0x62 ++ [dot] ++
    List.replicate 63 0x63 ++ [dot] ++ List.replicate 62 0x64)) .nameTooLong = true := by decide +kernel

/-- Rule R29: an input that holds no value is refused. -/
theorem test_no_value : refuses (step (State.reset.hostWriteCmd 0x1)) (.noValue .arg) = true := by decide +kernel

/-- Decision D14: ILEN above 65527 is refused. -/
theorem test_ilen_too_long :
    refuses (step (((input ints 0).hostWriteIlen 65528).hostWriteCmd 0x2)) .ilenTooLong = true := by decide +kernel

/-- Rule R40: the buffers end where they end. -/
theorem test_host_write_outside :
    faults (State.reset.hostWriteIbuf 65527 0) (.noSuchAddress .ibuf 65527) = true := by decide +kernel

/-- Rule R26: the last byte of IBUF. -/
theorem test_host_write_last : after (State.reset.hostWriteIbuf 65526 0xAA) (fun t =>
    decide (t.ibuf = [(65526, 0xAA)])) = true := by decide +kernel

/-! ### Witnesses: the hypotheses of every statement are met, clause by clause, at the ends of their ranges -/

/-- DecodingAnEncodedInstructionGivesItBack. -/
theorem witness_well_formed :
    WellFormed (.lenLabel 1) = true ∧ WellFormed (.lenLabel 63) = true ∧ WellFormed (.flags 1 15 1 1 1 1 7 15) = true ∧
    WellFormed (.opcodeUnnamed 1) = true ∧ WellFormed (.rcodeUnknown 6) = true ∧ WellFormed (.rtypeUnknown 0) = true ∧
    WellFormed (.classOther 0xFFFF) = true ∧ WellFormed .decmsg = true := by decide

/-- EveryDecodedWordIsTheEncodingOfItsInstruction. -/
theorem witness_decodes : decode .len8 [0x3F, 0x61] = .ok (.lenLabel 63, [0x61]) := rfl

/-- StepRunsTheDecodedInstruction. -/
theorem witness_requests :
    State.reset.req = .idle ∧ (State.reset.hostWriteCmd 1).req = .command ∧
    (State.reset.withFetchWord 16 0x8180).req = .pattern .flags16 0x8180 ∧
    fetch (State.reset.hostWriteCmd 1) = some (.cmd, [0x01]) ∧ decode .cmd [0x01] = .ok (.pack16, []) ∧
    ((State.reset.hostWriteCmd 1).hostWriteCmd 2).req = .broken :=
  ⟨rfl, rfl, by decide, rfl, rfl, rfl⟩

/-- R206: an operand written while the command waits is not what the command reads; the step is refused. -/
theorem test_late_operand :
    refuses (step (((arg 0x0709).hostWriteCmd 0x1).hostWriteArg 0x1234)) .hostActedDuringCommand = true := by decide

/-- HostActsDuringACommandHaveNoMeaning: both sides of its premise, and the last address of each buffer. -/
theorem witness_host_acts :
    State.reset.req = .idle ∧ (State.reset.hostWriteCmd 1).req ≠ .idle ∧
    ((State.reset.hostWriteCmd 1).hostWriteArg 7).req ≠ .idle ∧ 65526 < 65527 ∧ 252 < Config.hmax :=
  ⟨rfl, by decide, by decide, by decide, Nat.lt_of_lt_of_le (by decide : 252 < 253) hmax_ge⟩

/-- WritingCmdStartsTheCommand, EncodedNamesDecodeBack, DecodedQueriesMatchTheEncoder,
SuccessfulParsersRunTheirLeafCommands, LeafCommandsMakeUpTheirParsers: the loaded states of the witnesses below are
between commands. -/
theorem witness_idle (bytes : List Byte) (v : Half) :
    (input bytes v).req = .idle ∧ (host bytes v).req = .idle ∧ (arg v).req = .idle := ⟨rfl, rfl, rfl⟩

/-- WritingCmdStartsTheCommand. -/
theorem witness_codes :
    ((0xD : BitVec 4), Instr.decmsg) ∈ [((0x1 : BitVec 4), Instr.pack16), (0xD, .decmsg)] ∧
    (0xF : BitVec 4) ∈ [(0x0 : BitVec 4), 0xE, 0xF] := by decide

/-- EveryStepKeepsTheBlockInvariant. -/
theorem witness_block_invariant :
    ∃ s t, BlockInv s ∧ s.req = .command ∧ step s = .next t ∧ t.olen = some 2 := by
  obtain ⟨t, ht, h⟩ := next_of_after (o := step ((arg 0x0709).hostWriteCmd 0x1))
    (p := fun t => decide (t.olen = some 2)) (by decide +kernel)
  refine ⟨(arg 0x0709).hostWriteCmd 0x1, t, ?_, rfl, ht, of_decide_eq_true h⟩
  constructor
  case report => exact ⟨none, rfl, rfl, rfl⟩
  case message => exact .inr ⟨rfl, by decide⟩
  case within => exact ⟨fun _ _ => rfl, fun _ _ => rfl⟩
  all_goals simp [arg, State.reset, State.hostWriteArg, State.hostWriteCmd, State.hostAct]

/-- InputBuffersAreNeverWrittenAndOutputIsWhole, OnlyDeclaredOutputsChange, RepeatingACommandGivesTheSameResult,
ReportsFollowTheErrorTable: a storing command in success. -/
theorem witness_store_succeeds : ∃ s t, exec .pack16 s = .next t ∧ t.err = 0 := by
  obtain ⟨t, ht, h⟩ := next_of_after (o := exec .pack16 (arg 0x0709)) (p := fun t => decide (t.err = 0)) (by decide +kernel)
  exact ⟨_, t, ht, of_decide_eq_true h⟩

/-- The same, and AFailedCommandLeavesNoResult: a storing command in an error. -/
theorem witness_store_fails : ∃ s t, exec .nameenc s = .next t ∧ t.err ≠ 0 := by
  obtain ⟨t, ht, h⟩ := next_of_after (o := exec .nameenc (host (List.replicate 64 0x61) 1))
    (p := fun t => decide (t.err ≠ 0)) (by decide +kernel)
  exact ⟨_, t, ht, of_decide_eq_true h⟩

/-- The same, TheCursorOnlyMovesForward and StageNamesTheStageThatFailed: a command that stores nothing, in success. -/
theorem witness_read_succeeds : ∃ s t, exec .unpack16 s = .next t ∧ t.err = 0 ∧ s.cur = some 10 := by
  obtain ⟨t, ht, h⟩ := next_of_after (o := exec .unpack16 (input ints 10)) (p := fun t => decide (t.err = 0))
    (by decide +kernel)
  exact ⟨_, t, ht, of_decide_eq_true h, rfl⟩

/-- The same for DECMSG in an error, and StageNamesTheStageThatFailed. -/
theorem witness_decmsg_fails : ∃ s t, exec .decmsg s = .next t ∧ t.err ≠ 0 := by
  obtain ⟨t, ht, h⟩ := next_of_after (o := exec .decmsg (input hdrq 0)) (p := fun t => decide (t.err ≠ 0))
    (by decide +kernel)
  exact ⟨_, t, ht, of_decide_eq_true h⟩

/-- DecodedMessagesHaveTheirProperties, StageNamesTheStageThatFailed, TheCursorOnlyMovesForward. -/
theorem witness_decmsg_succeeds : ∃ s t, exec .decmsg s = .next t ∧ t.err = 0 := by
  obtain ⟨t, ht, h⟩ := next_of_after (o := exec .decmsg (input resp56 0)) (p := fun t => decide (t.err = 0))
    (by decide +kernel)
  exact ⟨_, t, ht, of_decide_eq_true h⟩

/-- OutcomesDependOnDeclaredInputsOnly: two different states that agree on the inputs of every group. -/
theorem witness_inputs_agree (g : InputGroup) :
    ∃ s t : State, s ≠ t ∧ inputsAgree g s t :=
  ⟨State.reset, { State.reset with val := some 1 }, by simp [State.reset], by
    cases g <;> simp [inputsAgree, agreeBelow, State.reset]⟩

/-- ReadyInputsAlwaysReachAnEnd: the inputs of every group. -/
theorem witness_inputs_ready (g : InputGroup) : ∃ s, inputsReady g s := by
  have h12 : filledBelow 12 (Memory.ofBytesAt 0 ints) := Memory.filledBelow_ofBytesAt ints
  have h11 : filledBelow 11 (Memory.ofBytesAt 0 example_com) := Memory.filledBelow_ofBytesAt example_com
  have hh := hmax_ge
  cases g
  case nothing => exact ⟨State.reset, trivial⟩
  case arg => exact ⟨Tests.arg 1, Option.some_ne_none _⟩
  case field => exact ⟨input ints 12, by decide, Option.some_ne_none _, h12⟩
  case hostname => exact ⟨host example_com 1, Nat.le_trans (by decide : 11 ≤ 253) hh, h11⟩
  case header => exact ⟨Tests.header (hdrDecode 0x8180), by simp [inputsReady, Tests.header, State.putHeader]⟩
  case query =>
    exact ⟨host example_com 1, Nat.le_trans (by decide : 11 ≤ 253) hh, h11,
      Option.some_ne_none _, Option.some_ne_none _⟩
  case message => exact ⟨input ints 0, by decide, h12, Option.some_ne_none _⟩

/-- InputsWithoutAValueAreRefused, clause by clause. -/
theorem witness_no_value :
    (State.reset.arg = none ∧ State.reset.txid = none ∧ State.reset.hf.qr = none ∧ State.reset.ilen.toNat ≤ 65527) ∧
    ({ State.reset with cur := none } : State).cur = none ∧
    ((hostname example_com).hlen.toNat ≤ Config.hmax ∧
      example_com.length = (hostname example_com).hlen.toNat ∧
      (hostname example_com).hbuf.holds 0 example_com ∧
      (hostname example_com).arg = none ∧
      ((hostname example_com).hostWriteArg 1).arg ≠ none ∧
      ((hostname example_com).hostWriteArg 1).txid = none) ∧
    ((State.reset.hostWriteHlen 253).hlen.toNat ≤ Config.hmax ∧ 252 < (State.reset.hostWriteHlen 253).hlen.toNat ∧
      (State.reset.hostWriteHlen 253).hbuf.read 252 = none) ∧
    ((State.reset.hostWriteIlen 2).cur = some 0 ∧ (State.reset.hostWriteIlen 2).ibuf.read (0 + 1) = none ∧
      0 + 2 ≤ (State.reset.hostWriteIlen 2).ilen.toNat ∧ 0 + 4 ≤ (State.reset.hostWriteIlen 4).ilen.toNat ∧
      (State.reset.hostWriteIlen 4).ibuf.read (0 + 3) = none) :=
  ⟨⟨rfl, rfl, rfl, by decide⟩, rfl,
    ⟨Nat.le_trans (by decide : 11 ≤ 253) hmax_ge, rfl, Memory.holds_writeFrom _ 0 _, rfl, by decide, rfl⟩,
    ⟨hmax_ge, by decide, rfl⟩, ⟨rfl, rfl, by decide, by decide, rfl⟩⟩

/-- OversizeLengthsAreRefused. HLEN has 16 bits, so it can exceed HMAX exactly when HMAX is below 65535. -/
theorem witness_oversize :
    65527 < (State.reset.hostWriteIlen 65528).ilen.toNat ∧
    ((∃ s : State, Config.hmax < s.hlen.toNat) ↔ Config.hmax < 65535) := by
  refine ⟨by decide, fun ⟨s, h⟩ => by omega, fun h => ⟨State.reset.hostWriteHlen 65535, h⟩⟩

/-- Pack16WritesTheTwoBytes, HdrdecSplitsTheWord, RcdecValidatesResponseCodes, RtdecValidatesRecordTypes. -/
theorem witness_arg (v : Half) : (arg v).arg = some v := rfl

/-- RcdecValidatesResponseCodes, RtdecValidatesRecordTypes: both clauses at their ends. -/
theorem witness_codes_known :
    (5 : Half).toNat ≤ 5 ∧ 6 ≤ (6 : Half).toNat ∧ (16 : Half) ∈ ([1, 2, 5, 6, 11, 12, 15, 16] : List Half) ∧
    (0 : Half) ∉ ([1, 2, 5, 6, 11, 12, 15, 16] : List Half) := by decide

/-- Unpack16ReadsTheFieldAtTheCursor: the last field of the buffer, and one byte too few. -/
theorem witness_unpack16 :
    (input ints 10).cur = some 10 ∧ (10 : Half).toNat + 2 ≤ (input ints 10).ilen.toNat ∧
    (input ints 10).ibuf.read 10 = some 0xFF ∧ (input ints 10).ibuf.read (10 + 1) = some 0xFF ∧
    (input ints 11).ilen.toNat < (11 : Half).toNat + 2 ∧ (input ints 11).ilen.toNat ≤ 65527 := by decide

/-- Unpack32ReadsTheFieldAtTheCursor: the last field of the buffer, and one byte too few. -/
theorem witness_unpack32 :
    (input ints 8).cur = some 8 ∧ (8 : Half).toNat + 4 ≤ (input ints 8).ilen.toNat ∧
    (input ints 8).ibuf.read 8 = some 0xFF ∧ (input ints 8).ibuf.read (8 + 1) = some 0xFF ∧
    (input ints 8).ibuf.read (8 + 2) = some 0xFF ∧ (input ints 8).ibuf.read (8 + 3) = some 0xFF ∧
    (input ints 9).ilen.toNat < (9 : Half).toNat + 4 := by decide

/-- NE14's hostname, 253 bytes: its encoding has 255. -/
def longest : List Byte :=
  List.replicate 63 0x61 ++ [dot] ++ List.replicate 63 0x62 ++ [dot] ++ List.replicate 63 0x63 ++ [dot] ++
    List.replicate 61 0x64

/-- NE15's hostname, 254 bytes: its encoding would have 256. -/
def tooLong : List Byte := longest ++ [0x64]

/-- R54: a load leaves the bytes behind the ones it writes. -/
theorem test_load_keeps_other_bytes :
    after ((input [0x01, 0x02, 0x03] 0).hostLoadMessage [0x09])
      (fun t => decide (t.ibuf = [(0, 0x09), (1, 0x02), (2, 0x03)])) = true := by decide

/-- TheHostStaysWithinTheBuffers: a message and an address at each side of the end of IBUF, a hostname HLEN cannot count,
and buffers in their form. -/
theorem witness_within :
    (List.replicate 65527 (0 : Byte)).length ≤ 65527 ∧ 65527 < (List.replicate 65528 (0 : Byte)).length ∧
    65526 < 65527 ∧ 65536 ≤ (List.replicate 65536 (0 : Byte)).length ∧
    Memory.wf State.reset.ibuf ∧ Memory.wf State.reset.hbuf ∧ buffersWithin State.reset := by
  simp only [List.length_replicate]
  exact ⟨by decide, by decide, by decide, by decide, .nil, .nil, fun _ _ => rfl, fun _ _ => rfl⟩

/-- HostActsDuringACommandHaveNoMeaning: the two loads, at the largest sizes HMAX grants. -/
theorem witness_loads :
    (List.replicate 65527 (0 : Byte)).length ≤ 65527 ∧
    (List.replicate 253 (0 : Byte)).length ≤ Config.hmax ∧ (List.replicate 253 (0 : Byte)).length < 65536 := by
  simp only [List.length_replicate]
  exact ⟨by decide, hmax_ge, by decide⟩

/-- D14: a message one byte too long is refused, not taken for a shorter one. -/
theorem test_load_too_long : State.reset.hostLoadMessage (List.replicate 65528 0) = .refused .ilenTooLong :=
  State.hostLoadMessage_tooLong _ _ (by rw [List.length_replicate]; decide)

theorem host_hlen (h : List Byte) (v : Half) (hl : h.length < 65536) : (host h v).hlen.toNat = h.length :=
  Nat.mod_eq_of_lt hl

theorem host_holds (h : List Byte) (v : Half) : (host h v).hbuf.holds 0 h := Memory.holds_writeFrom _ 0 h

theorem host_ready (h : List Byte) (hl : h.length ≤ 253) (v : Half) :
    (host h v).hlen.toNat ≤ Config.hmax ∧ h.length = (host h v).hlen.toNat ∧ (host h v).hbuf.holds 0 h ∧
      (host h v).arg = some v ∧ (host h v).txid = some 0x0709 := by
  have hm := host_hlen h v (by omega)
  have := hmax_ge
  exact ⟨by omega, hm.symm, host_holds h v, rfl, rfl⟩

/-- NameencWritesTheWireName, EncqBuildsTheQuery: the success clause and LabelTooLong, with `host_ready`. -/
theorem witness_hostnames :
    (longest.length = 253 ∧ (∀ l ∈ hostLabels longest, l.length ≤ 63) ∧ (wireName (hostLabels longest)).length = 255) ∧
    ((List.replicate 64 (0x61 : Byte)).length ≤ 253 ∧ ∃ l ∈ hostLabels (List.replicate 64 0x61), 63 < l.length) ∧
    ((16 : Half) ∈ ([1, 2, 5, 6, 11, 12, 15, 16] : List Half) ∧ (0 : Half) ∉ ([1, 2, 5, 6, 11, 12, 15, 16] : List Half)) := by
  decide +kernel

theorem tooLong_length : tooLong.length = 254 := by decide +kernel

/-- The NameTooLong clause of the same two: 254 bytes are needed, so HMAX has to be at least 254. -/
theorem witness_name_too_long (hm : 254 ≤ Config.hmax) :
    (host tooLong 1).hlen.toNat ≤ Config.hmax ∧ tooLong.length = (host tooLong 1).hlen.toNat ∧
    (host tooLong 1).hbuf.holds 0 tooLong ∧ (∀ l ∈ hostLabels tooLong, l.length ≤ 63) ∧
    255 < (wireName (hostLabels tooLong)).length :=
  have hl : (host tooLong 1).hlen.toNat = 254 :=
    (host_hlen tooLong 1 (by rw [tooLong_length]; decide)).trans tooLong_length
  ⟨by rw [hl]; exact hm, by rw [hl, tooLong_length], host_holds tooLong 1, by decide +kernel, by decide +kernel⟩

/-- EncodedNamesHaveTheirShape. -/
theorem witness_name_shape :
    nameEncode example_com = .ok name13 ∧ example_com ≠ [] ∧ [] ∉ splitDots example_com := ⟨rfl, by decide, by decide⟩

theorem example_legal : legalName exampleLabels := by
  simp [legalName, legalLabel, exampleLabels]

/-- NamedecAcceptsExactlyTheWireNames: a name that ends where the input does; the second clause is met by the outcome. -/
theorem witness_namedec_accepts :
    (input name13 0).cur = some 0 ∧ (input name13 0).ilen.toNat ≤ 65527 ∧ legalName exampleLabels ∧
    (input name13 0).ibuf.holds 0 (wireName exampleLabels) ∧
    0 + (wireName exampleLabels).length = (input name13 0).ilen.toNat ∧
    ∃ t, exec .namedec (input name13 0) = .next t ∧ t.err = 0 ∧ t.name = some exampleLabels := by
  obtain ⟨t, ht, h⟩ := next_of_after (o := exec .namedec (input name13 0))
    (p := fun t => decide (t.err = 0 ∧ t.name = some exampleLabels)) (by decide +kernel)
  exact ⟨rfl, by decide, example_legal, Memory.holds_writeFrom _ 0 name13, rfl, t, ht, of_decide_eq_true h⟩

/-- NamedecRaisesAtTheFirstBadOctet: a cursor past the end; a name that stops at the end (ND9); a label one byte short, with
the largest length; the smallest reserved octet. -/
theorem witness_namedec_raises :
    (input [0x00] 2).ilen.toNat < (2 : Half).toNat ∧
    ((input [0x03, 0x63, 0x6F, 0x6D] 0).ibuf.holds 0 (wireLabels [[0x63, 0x6F, 0x6D]]) ∧
      legalName [[0x63, 0x6F, 0x6D]] ∧
      0 + (wireLabels [[0x63, 0x6F, 0x6D]]).length = (input [0x03, 0x63, 0x6F, 0x6D] 0).ilen.toNat) ∧
    ((input (0x3F :: List.replicate 62 0x61) 0).ibuf.read 0 = some 0x3F ∧
      (input (0x3F :: List.replicate 62 0x61) 0).ilen.toNat = 0 + 1 + (0x3F : Byte).toNat - 1) ∧
    ((input [0x40] 0).ibuf.read 0 = some 0x40 ∧ 64 ≤ (0x40 : Byte).toNat ∧ 0 < (input [0x40] 0).ilen.toNat) := by
  refine ⟨by decide, ⟨Memory.holds_writeFrom _ 0 _, ?_, by decide⟩, by decide, by decide⟩
  simp [legalName, legalLabel]

/-- EncodedNamesDecodeBack: both directions. -/
theorem witness_names_decode_back :
    (∃ t, exec .nameenc (host example_com 1) = .next t ∧ t.err = 0) ∧
    nameDecode ⟨Memory.ofBytesAt 0 name13, 13⟩ 0 = .ok (exampleLabels, 13) ∧ (∀ l ∈ exampleLabels, dot ∉ l) := by
  obtain ⟨t, ht, h⟩ := next_of_after (o := exec .nameenc (host example_com 1)) (p := fun t => decide (t.err = 0))
    (by decide +kernel)
  exact ⟨⟨t, ht, of_decide_eq_true h⟩, rfl, by decide⟩

/-- HdrencPlacesTheFields. -/
theorem witness_header :
    (header (hdrDecode 0xFFFF)).hf =
      ⟨some 1, some 15, some 1, some 1, some 1, some 1, some 7, some 15⟩ := by decide

/-- QparseAcceptsExactlyTheWireQuestions: QP1. -/
theorem witness_qparse_accepts :
    legalQuestion ⟨[], 1, 1⟩ ∧ (input [0x00, 0x00, 0x01, 0x00, 0x01] 0).ibuf.holds 0 (wireQuestion ⟨[], 1, 1⟩) ∧
    0 + (wireQuestion ⟨[], 1, 1⟩).length = (input [0x00, 0x00, 0x01, 0x00, 0x01] 0).ilen.toNat ∧
    ∃ t, exec .qparse (input [0x00, 0x00, 0x01, 0x00, 0x01] 0) = .next t ∧ t.err = 0 ∧
      t.qst = ⟨some [], some 1, some 1⟩ := by
  obtain ⟨t, ht, h⟩ := next_of_after (o := exec .qparse (input [0x00, 0x00, 0x01, 0x00, 0x01] 0))
    (p := fun t => decide (t.err = 0 ∧ t.qst = ⟨some [], some 1, some 1⟩)) (by decide +kernel)
  exact ⟨⟨by simp [legalName], by simp [knownType]⟩, Memory.holds_writeFrom _ 0 _, by decide, t, ht, of_decide_eq_true h⟩

/-- QparseRaisesInWireOrder: QP8, then QP6's neighbours at each end, QP7, QP5. -/
theorem witness_qparse_raises :
    (∃ t, exec .namedec (input [0xC0, 0x0C] 0) = .next t ∧ t.err ≠ 0) ∧
    ((input name13 0).ibuf.holds 0 (wireName exampleLabels) ∧ legalName exampleLabels ∧
      (input name13 0).ilen.toNat < 13 + 2 ∧ 13 ≤ (input name13 0).ilen.toNat) ∧
    ((input (name13 ++ [0x00, 0x63]) 0).ilen.toNat = 13 + 2 ∧
      (input (name13 ++ [0x00, 0x63]) 0).ibuf.holds 13 (be16 0x63) ∧ ¬ knownType 0x63) ∧
    ((input (name13 ++ [0x00, 0x01, 0x00]) 0).ilen.toNat = 13 + 4 - 1 ∧
      (input (name13 ++ [0x00, 0x01, 0x00]) 0).ibuf.holds 13 (be16 1) ∧ knownType 1) := by
  obtain ⟨t, ht, h⟩ := next_of_after (o := exec .namedec (input [0xC0, 0x0C] 0)) (p := fun t => decide (t.err ≠ 0))
    (by decide +kernel)
  exact ⟨⟨t, ht, of_decide_eq_true h⟩, ⟨Memory.holds_writeFrom _ 0 name13, example_legal, by decide, by decide⟩,
    ⟨by decide, ⟨rfl, rfl, trivial⟩, by simp [knownType]⟩, by decide, ⟨rfl, rfl, trivial⟩, by simp [knownType]⟩

/-- RP2's record, the shortest. -/
def shortest : Record := ⟨[], 16, 1, 0xFFFFFFFF, 0, []⟩

/-- The bytes R15 of section 5. -/
def r15 : List Byte :=
  [0x00, 0x00, 0x01, 0x00, 0x01, 0x00, 0x00, 0x0E, 0x10, 0x00, 0x04, 0x5D, 0xB8, 0xD8, 0x22]

/-- RrparseAcceptsExactlyTheWireRecords: RP2. -/
theorem witness_rrparse_accepts :
    legalRecord shortest ∧ (input (wireRecord shortest) 0).ibuf.holds 0 (wireRecord shortest) ∧
    0 + (wireRecord shortest).length = (input (wireRecord shortest) 0).ilen.toNat ∧
    wireRecord shortest = [0x00, 0x00, 0x10, 0x00, 0x01, 0xFF, 0xFF, 0xFF, 0xFF, 0x00, 0x00] ∧
    ∃ t, exec .rrparse (input (wireRecord shortest) 0) = .next t ∧ t.err = 0 := by
  obtain ⟨t, ht, h⟩ := next_of_after (o := exec .rrparse (input (wireRecord shortest) 0))
    (p := fun t => decide (t.err = 0)) (by decide +kernel)
  exact ⟨⟨by simp [legalName, shortest], by simp [knownType, shortest], rfl⟩, Memory.holds_writeFrom _ 0 _, by decide,
    by decide, t, ht, of_decide_eq_true h⟩

/-- RrparseRaisesInWireOrder: the root name alone; RP8 cut after the type; RP5 and RP3. -/
theorem witness_rrparse_raises :
    (input [0x00] 0).ibuf.holds 0 (wireName []) ∧ (input [0x00] 0).ilen.toNat < 1 + 2 ∧
    ((input [0x00, 0x00, 0x63] 0).ibuf.holds 1 (be16 0x63) ∧ ¬ knownType 0x63 ∧
      (input [0x00, 0x00, 0x63] 0).ilen.toNat = 1 + 2) ∧
    ((input (r15.take 10) 0).ibuf.holds 1 (be16 1) ∧ knownType 1 ∧
      filledBelow (input (r15.take 10) 0).ilen.toNat (input (r15.take 10) 0).ibuf ∧
      (input (r15.take 10) 0).ilen.toNat = 1 + 10 - 1) ∧
    ((input (r15.take 14) 0).ibuf.holds (1 + 8) (be16 4) ∧
      filledBelow (input (r15.take 14) 0).ilen.toNat (input (r15.take 14) 0).ibuf ∧
      (input (r15.take 14) 0).ilen.toNat = 1 + 10 + (4 : Half).toNat - 1) :=
  ⟨Memory.holds_writeFrom _ 0 _, by decide, ⟨⟨rfl, rfl, trivial⟩, by simp [knownType], by decide⟩,
    ⟨⟨rfl, rfl, trivial⟩, by simp [knownType], Memory.filledBelow_ofBytesAt (r15.take 10), by decide⟩,
    ⟨rfl, rfl, trivial⟩, Memory.filledBelow_ofBytesAt (r15.take 14), by decide⟩

/-- QueryBytesDependOnTheirOperands, QueriesLoopBack. -/
theorem witness_query :
    (∃ out, encodeQuery example_com 1 0x0709 = .ok out) ∧ knownType 2 ∧
    ∃ t, exec .encq (host example_com 1) = .next t ∧ t.err = 0 := by
  obtain ⟨t, ht, h⟩ := next_of_after (o := exec .encq (host example_com 1)) (p := fun t => decide (t.err = 0))
    (by decide +kernel)
  exact ⟨⟨_, rfl⟩, by simp [knownType], t, ht, of_decide_eq_true h⟩

/-- DecmsgAcceptsExactlyTheWireMessages: P2, whose message ends where the input does. -/
theorem witness_decmsg_accepts :
    (input resp56 0).txid = some 0x0709 ∧ (input resp56 0).ilen.toNat ≤ 65527 ∧
    ((0x8180 : Half).extractLsb' 0 4).toNat ≤ 5 ∧ legalQuestion ⟨exampleLabels, 1, 1⟩ ∧ legalRecord theRecord ∧
    wireMessage ⟨0x0709, 0x8180, 1, 1, 0, 0⟩ ⟨exampleLabels, 1, 1⟩ [theRecord] = resp56 ∧
    (input resp56 0).ibuf.holds 0 resp56 ∧ resp56.length = (input resp56 0).ilen.toNat :=
  ⟨rfl, by decide, by decide, ⟨example_legal, by simp [knownType]⟩,
    ⟨example_legal, by simp [knownType, theRecord], rfl⟩, by decide +kernel, Memory.holds_writeFrom _ 0 _, by decide⟩

/-- The same with no record: DM3, the shortest message. -/
theorem witness_decmsg_shortest :
    wireMessage ⟨0x0709, 0x8180, 1, 0, 0, 0⟩ ⟨[], 1, 1⟩ [] = hdrq ++ [0x00, 0x00, 0x01, 0x00, 0x01] ∧
    legalQuestion ⟨[], 1, 1⟩ := ⟨by decide, by simp [legalName], by simp [knownType]⟩

/-- DecmsgChecksTheTransactionIdFirst: DM21 and DM23. -/
theorem witness_decmsg_id :
    (input [0x07] 0).ilen.toNat = 1 ∧ (input [0x07, 0x0A] 0).ilen.toNat = 2 ∧
    (input [0x07, 0x0A] 0).ibuf.holds 0 (be16 0x070A) ∧ (0x070A : Half) ≠ 0x0709 :=
  ⟨by decide, by decide, ⟨rfl, rfl, trivial⟩, by decide⟩

/-- DecmsgChecksTheResponseCodeBeforeTheCounts: DM26; DM9's word with nothing behind it; DM8's word with the last count cut
by one byte. -/
theorem witness_decmsg_header :
    ((input [0x07, 0x09, 0x81] 0).ibuf.holds 0 (be16 0x0709) ∧ (input [0x07, 0x09, 0x81] 0).ilen.toNat = 3) ∧
    ((input [0x07, 0x09, 0x81, 0x86] 0).ibuf.holds 2 (be16 0x8186) ∧
      (input [0x07, 0x09, 0x81, 0x86] 0).ilen.toNat = 4 ∧ 6 ≤ ((0x8186 : Half).extractLsb' 0 4).toNat) ∧
    ((input [0x07, 0x09, 0x81, 0x85, 0, 1, 0, 0, 0, 0, 0] 0).ilen.toNat = 11 ∧
      (input [0x07, 0x09, 0x81, 0x85, 0, 1, 0, 0, 0, 0, 0] 0).ibuf.holds 2 (be16 0x8185) ∧
      ((0x8185 : Half).extractLsb' 0 4).toNat ≤ 5 ∧
      filledBelow 11 (input [0x07, 0x09, 0x81, 0x85, 0, 1, 0, 0, 0, 0, 0] 0).ibuf) :=
  ⟨⟨⟨rfl, rfl, trivial⟩, by decide⟩, ⟨⟨rfl, rfl, trivial⟩, by decide, by decide⟩,
    by decide, ⟨rfl, rfl, trivial⟩, by decide, Memory.filledBelow_ofBytesAt [0x07, 0x09, 0x81, 0x85, 0, 1, 0, 0, 0, 0, 0]⟩

/-- A message of two promised records with one of them present. -/
def oneOfTwo : List Byte := wireMessage ⟨0x0709, 0x8180, 1, 1, 0, 1⟩ ⟨[], 1, 1⟩ [shortest]

/-- StageNamesTheStageThatFailed: a pointer in the question's place; the second record missing. -/
theorem witness_decmsg_stages :
    ((input (hdrq ++ [0xC0]) 0).txid = some 0x0709 ∧ 12 ≤ (input (hdrq ++ [0xC0]) 0).ilen.toNat ∧
      ((0x8180 : Half).extractLsb' 0 4).toNat ≤ 5 ∧
      (input (hdrq ++ [0xC0]) 0).ibuf.holds 0 (wireHeader ⟨0x0709, 0x8180, 1, 0, 0, 0⟩) ∧
      questionParse ⟨(input (hdrq ++ [0xC0]) 0).ibuf, (input (hdrq ++ [0xC0]) 0).ilen.toNat⟩ 12 =
        .error (.raised .invalidLabelLength)) ∧
    ((input oneOfTwo 0).ibuf.holds 0 oneOfTwo ∧ oneOfTwo.length = (input oneOfTwo 0).ilen.toNat ∧
      legalQuestion ⟨[], 1, 1⟩ ∧ legalRecord shortest ∧
      [shortest].length < (1 : Half).toNat + (0 : Half).toNat + (1 : Half).toNat ∧
      rrParse ⟨(input oneOfTwo 0).ibuf, (input oneOfTwo 0).ilen.toNat⟩ oneOfTwo.length =
        .error (.raised .unexpectedEndOfInput)) :=
  ⟨⟨rfl, by decide, by decide, ⟨rfl, rfl, rfl, rfl, rfl, rfl, rfl, rfl, rfl, rfl, rfl, rfl, trivial⟩, rfl⟩,
    Memory.holds_writeFrom _ 0 _, by decide, ⟨by simp [legalName], by simp [knownType]⟩,
    ⟨by simp [legalName, shortest], by simp [knownType, shortest], rfl⟩, by decide, rfl⟩

/-- BytesReachedWithoutAValueAreRefused: the second byte of a label, the second of TYPE, the last of RDATA, the first of
QDCOUNT, the first length octet of a message's question, and the same of its first record. -/
theorem witness_reached_bytes :
    stopsAt ((input [0x03, 0x63] 0).hostWriteIlen 4).ibuf 4 2 0 (nameFields [[0x63, 0x6F, 0x6D]]) ∧
    stopsAt ((input [0x00, 0x00] 0).hostWriteIlen 3).ibuf 3 2 0 (questionFields ⟨[], 1, 1⟩) ∧
    stopsAt ((input [0, 0, 1, 0, 1, 0, 0, 0, 0, 0, 1] 0).hostWriteIlen 12).ibuf 12 11 0
      (recordFields ⟨[], 1, 1, 0, 1, [0x00]⟩) ∧
    stopsAt ((input [0x07, 0x09, 0x81, 0x80] 0).hostWriteIlen 12).ibuf 12 4 0
      (messageFields ⟨0x0709, 0x8180, 1, 0, 0, 0⟩ ⟨[], 1, 1⟩ []) ∧
    stopsAt ((input hdrq 0).hostWriteIlen 13).ibuf 13 12 0
      (messageFields ⟨0x0709, 0x8180, 1, 0, 0, 0⟩ ⟨[], 1, 1⟩ []) ∧
    stopsAt ((input (wireMessage ⟨0x0709, 0x8180, 1, 1, 0, 0⟩ ⟨[], 1, 1⟩ []) 0).hostWriteIlen 18).ibuf 18 17 0
      (messageFields ⟨0x0709, 0x8180, 1, 1, 0, 0⟩ ⟨[], 1, 1⟩ [shortest]) := by
  refine ⟨?_, ?_, ?_, ?_, ?_, ?_⟩
  · refine .inr ⟨⟨rfl, trivial⟩, .inl ⟨by decide, by decide, by decide, rfl, fun b h1 h2 => ?_⟩⟩
    obtain rfl : b = 1 := by simp only [List.length_singleton] at h1; omega
    decide
  · refine .inr ⟨⟨rfl, trivial⟩, .inl ⟨by decide, by decide, by decide, rfl, fun b h1 h2 => ?_⟩⟩
    obtain rfl : b = 1 := by simp only [List.length_singleton] at h1; omega
    decide
  · refine .inr ⟨⟨rfl, trivial⟩, .inr ⟨⟨rfl, rfl, trivial⟩, .inr ⟨⟨rfl, rfl, trivial⟩,
      .inr ⟨⟨rfl, rfl, rfl, rfl, trivial⟩, .inr ⟨⟨rfl, rfl, trivial⟩, .inl ⟨by decide, by decide, by decide, rfl,
        fun b h1 h2 => ?_⟩⟩⟩⟩⟩⟩
    simp only [List.length_singleton, be16_length, be32_length] at h1
    omega
  · refine .inr ⟨⟨rfl, rfl, trivial⟩, .inr ⟨⟨rfl, rfl, trivial⟩, .inl ⟨by decide, by decide, by decide, rfl,
      fun b h1 h2 => ?_⟩⟩⟩
    simp only [be16_length] at h1
    omega
  · refine .inr ⟨⟨rfl, rfl, trivial⟩, .inr ⟨⟨rfl, rfl, trivial⟩, .inr ⟨⟨rfl, rfl, trivial⟩, .inr ⟨⟨rfl, rfl, trivial⟩,
      .inr ⟨⟨rfl, rfl, trivial⟩, .inr ⟨⟨rfl, rfl, trivial⟩, .inl ⟨by decide, by decide, by decide, rfl,
        fun b h1 h2 => ?_⟩⟩⟩⟩⟩⟩⟩
    simp only [be16_length] at h1
    omega
  · refine .inr ⟨⟨rfl, rfl, trivial⟩, .inr ⟨⟨rfl, rfl, trivial⟩, .inr ⟨⟨rfl, rfl, trivial⟩, .inr ⟨⟨rfl, rfl, trivial⟩,
      .inr ⟨⟨rfl, rfl, trivial⟩, .inr ⟨⟨rfl, rfl, trivial⟩, .inr ⟨⟨rfl, trivial⟩, .inr ⟨⟨rfl, rfl, trivial⟩,
        .inr ⟨⟨rfl, rfl, trivial⟩, .inl ⟨by decide, by decide, by decide, rfl, fun b h1 h2 => ?_⟩⟩⟩⟩⟩⟩⟩⟩⟩⟩
    simp only [be16_length, List.length_singleton] at h1
    omega

/-- ERR after each leaf command of RRPARSE, issued one by one up to the first that fails; RTDEC is given `ty`. -/
def leafErrs (ty : Half) : List Instr → State → List (BitVec 3)
  | [], _ => []
  | i :: is, s =>
    match exec i (if i = .rtdec then s.hostWriteArg ty else s) with
    | .next t => t.err :: (if t.err = 0 then leafErrs ty is t else [])
    | _ => []

def leaves : List Instr := [.namedec, .unpack16, .rtdec, .unpack16, .unpack32, .unpack16]

/-- LeafCommandsMakeUpTheirParsers: each leaf fails on some input, and all six succeed, with RDATA whole or short. -/
theorem witness_leaves :
    leafErrs 1 leaves (input [0xC0] 0) = [4] ∧
    leafErrs 1 leaves (input [0x00] 0) = [0, 1] ∧
    leafErrs 99 leaves (input [0x00, 0x00, 0x63] 0) = [0, 0, 5] ∧
    leafErrs 1 leaves (input (r15.take 3) 0) = [0, 0, 0, 1] ∧
    leafErrs 1 leaves (input (r15.take 5) 0) = [0, 0, 0, 0, 1] ∧
    leafErrs 1 leaves (input (r15.take 9) 0) = [0, 0, 0, 0, 0, 1] ∧
    leafErrs 1 leaves (input r15 0) = [0, 0, 0, 0, 0, 0] ∧ r15.length = 11 + 4 ∧
    (input r15 0).ibuf.holds 11 [0x5D, 0xB8, 0xD8, 0x22] ∧ (input (r15.take 14) 0).ilen.toNat < 11 + 4 := by
  refine ⟨?_, ?_, ?_, ?_, ?_, ?_, ?_, rfl, ⟨rfl, rfl, rfl, rfl, trivial⟩, by decide⟩ <;> decide +kernel

/-- The same run's values: name, type, class, TTL, RDLENGTH and the cursor behind it. -/
theorem witness_leaf_values :
    after (exec .namedec (input r15 0)) (fun s1 => decide (s1.name = some []) &&
      after (exec .unpack16 s1) (fun s2 => decide (s2.val = some ((1 : Half).setWidth 32)) &&
        after (exec .rtdec (s2.hostWriteArg 1)) (fun s3 =>
          after (exec .unpack16 s3) (fun s4 => decide (s4.val = some ((1 : Half).setWidth 32)) &&
            after (exec .unpack32 s4) (fun s5 => decide (s5.val = some 3600) &&
              after (exec .unpack16 s5) (fun s6 =>
                decide (s6.val = some ((4 : Half).setWidth 32) ∧ s6.cur = some 11))))))) = true := by
  decide +kernel

/-- BytesBehindTheMessageDoNotMatter: DM12, then the same message without its trailing bytes. -/
theorem witness_trailing_bytes :
    ∃ s t m, exec .decmsg s = .next t ∧ t.err = 0 ∧ t.cur = some 56 ∧ agreeBelow (56 : Half).toNat s.ibuf m ∧
      (56 : Half).toNat ≤ (56 : Half).toNat ∧ s.ilen = 58 := by
  obtain ⟨t, ht, h⟩ := next_of_after (o := exec .decmsg (input (resp56 ++ [0xDE, 0xAD]) 0))
    (p := fun t => decide (t.err = 0 ∧ t.cur = some 56)) (by decide +kernel)
  have h := of_decide_eq_true h
  refine ⟨_, t, Memory.ofBytesAt 0 resp56, ht, h.1, h.2, ?_, Nat.le_refl _, by decide⟩
  intro a ha
  have hl : a < resp56.length := ha
  show (Memory.ofBytesAt 0 (resp56 ++ [0xDE, 0xAD])).read a = _
  rw [Memory.read_ofBytesAt, Memory.read_ofBytesAt]
  simp [List.getElem?_append_left hl]

/-- SuccessfulParsersRunTheirLeafCommands, TheCursorOnlyMovesForward. -/
theorem witness_parsers :
    (∃ s t, exec .qparse s = .next t ∧ t.err = 0) ∧ ∃ s t, exec .rrparse s = .next t ∧ t.err = 0 := by
  obtain ⟨t, ht, h⟩ := next_of_after (o := exec .qparse (input resp56 12)) (p := fun t => decide (t.err = 0))
    (by decide +kernel)
  obtain ⟨u, hu, h'⟩ := next_of_after (o := exec .rrparse (input resp56 29)) (p := fun t => decide (t.err = 0))
    (by decide +kernel)
  exact ⟨⟨_, t, ht, of_decide_eq_true h⟩, _, u, hu, of_decide_eq_true h'⟩

/-- LengthOctetsEndOrConsumeALabel, ReservedLengthOctetsRaise: a label that ends where the input does, and one byte short. -/
theorem witness_length_octets :
    (input [0x02, 0x61, 0x62] 1).cur = some 1 ∧ (input [0x02, 0x61, 0x62] 1).ibuf.holds 1 [0x61, 0x62] ∧
    (1 : Half).toNat + (2 : BitVec 6).toNat = (input [0x02, 0x61, 0x62] 1).ilen.toNat ∧
    (input [0x02, 0x61, 0x62] 1).ilen.toNat < (1 : Half).toNat + (3 : BitVec 6).toNat ∧
    (input [0x02, 0x61, 0x62] 1).cur ≠ none :=
  ⟨rfl, ⟨rfl, rfl, trivial⟩, by decide, by decide, by decide⟩

/-- ResponseCodeRowsAreValidated, RecordTypeRowsAreValidated. -/
theorem witness_unknown_codes :
    6 ≤ (6 : BitVec 4).toNat ∧ (0 : Half) ∉ ([1, 2, 5, 6, 11, 12, 15, 16] : List Half) := by decide

/-- NamedecIsItsLengthOctetsOneByOne: a reserved octet, the terminator, and a label with the rest of the name behind it. -/
theorem witness_octet_by_octet :
    (∃ t, exec (decodeLen 0xC0) { input [0xC0] 0 with cur := some (0 + 1) } = .next t ∧ t.err ≠ 0) ∧
    (∃ t, exec (decodeLen 0x00) { input [0x00] 0 with cur := some (0 + 1) } = .next t ∧ decodeLen 0x00 = .lenEnd) ∧
    ∃ t u, exec (decodeLen 0x01) { input [0x01, 0x61, 0x00] 0 with cur := some (0 + 1) } = .next t ∧ t.err = 0 ∧
      t.name = some [[0x61]] ∧ exec .namedec t = .next u ∧ decodeLen 0x01 = .lenLabel 1 := by
  obtain ⟨t, ht, h⟩ := next_of_after (o := exec (decodeLen 0xC0) { input [0xC0] 0 with cur := some (0 + 1) })
    (p := fun t => decide (t.err ≠ 0)) (by decide +kernel)
  obtain ⟨t', ht', -⟩ := next_of_after (o := exec (decodeLen 0x00) { input [0x00] 0 with cur := some (0 + 1) })
    (p := fun _ => true) (by decide +kernel)
  obtain ⟨t2, ht2, h2⟩ := next_of_after
    (o := exec (decodeLen 0x01) { input [0x01, 0x61, 0x00] 0 with cur := some (0 + 1) })
    (p := fun t => decide (t.err = 0 ∧ t.name = some [[0x61]]) && after (exec .namedec t) (fun _ => true))
    (by decide +kernel)
  rw [Bool.and_eq_true] at h2
  obtain ⟨u, hu, -⟩ := next_of_after h2.2
  have h3 := of_decide_eq_true h2.1
  exact ⟨⟨t, ht, of_decide_eq_true h⟩, ⟨t', ht', rfl⟩, t2, u, ht2, h3.1, h3.2, hu, rfl⟩

/-- PatternRowsActAsTheirCommands. -/
theorem witness_pattern_rows :
    (∃ t, exec .hdrdec { State.reset with arg := some 0x8180 } = .next t) ∧
    (∃ t, exec .rcdec { State.reset with arg := some 9 } = .next t) ∧
    ∃ t, exec .rtdec { State.reset with arg := some 99 } = .next t := ⟨⟨_, rfl⟩, ⟨_, rfl⟩, _, rfl⟩


end Sys2Proof.Tests
end

section
/-! SUPPORT. Every row of the table writes its declared outputs and the report only, and depends on its declared inputs only
(R30, R12, R13, R17). -/

namespace Sys2Proof.Machine

/-- A row keeps to its declared inputs and outputs: it changes nothing but the outputs and the report, its outcome depends
on nothing but the inputs, and its report is one of R170's. -/
structure KeepsToDeclared (gi : InputGroup) (go : OutputGroup) (e : State → Host.Outcome State Fault Refusal) : Prop where
  frame : ∀ s t, e s = .next t → onlyOutputsChanged go s t
  agree : ∀ s t, inputsAgree gi s t → outcomesAgree go (e s) (e t)
  report : ∀ s t, e s = .next t → ∃ err, reports t err

variable {gi : InputGroup} {go : OutputGroup} {e : State → Host.Outcome State Fault Refusal}

/-- Every command that ends by `finish` reports success or one of the seven errors. -/
theorem finish_reports {α : Type} {r : Run α} {put : Held α → State → State} {s t : State}
    (h : finish r put s = .next t) : ∃ err, reports t err := by
  rcases finish_next.mp h with ⟨v, -, rfl⟩ | ⟨e, -, rfl⟩
  · exact ⟨none, rfl, rfl, rfl⟩
  · exact ⟨some e, rfl, rfl, rfl⟩

/-- A run that reads the inputs only, and an update that writes the outputs only, make a row that keeps to them. -/
theorem keepsToDeclared_finish {α : Type} {run : State → Run α} {put : Held α → State → State}
    (he : ∀ s, e s = finish (run s) put s) (hrun : ∀ s t, inputsAgree gi s t → run s = run t)
    (hframe : ∀ v s, put v s = takeOutputs go s (put v s)) (hput : ∀ v s t, outputsAgree go (put v s) (put v t)) :
    KeepsToDeclared gi go e where
  frame s _ h := finish_onlyOutputsChanged (fun v => hframe v s) ((he s).symm.trans h)
  agree s t h := by
    rw [he, he]
    exact finish_agree (hrun s t h) fun v => hput v s t
  report s _ h := finish_reports ((he s).symm.trans h)

/-- A row that is always refused for one reason keeps to any inputs and outputs. -/
theorem keepsToDeclared_refused (why : Refusal) : KeepsToDeclared gi go (fun _ => .refused why) where
  frame _ _ h := by cases h
  agree _ _ _ := rfl
  report _ _ h := by cases h

/-! ### The commands -/

theorem argOf_congr {s t : State} (h : inputsAgree .arg s t) : argOf s = argOf t := congrArg (readHeld .arg) h

theorem headerWordOf_congr {s t : State} (h : inputsAgree .header s t) : headerWordOf s = headerWordOf t := by
  obtain ⟨h1, h2, h3, h4, h5, h6, h7⟩ := h
  simp only [headerWordOf, h1, h2, h3, h4, h5, h6, h7]

/-- The operands of ENCQ are the hostname, `ARG` and `TXID`. -/
theorem queryOf_congr {s t : State} (h : inputsAgree .query s t) :
    (hostnameOf s >>= fun h => argOf s >>= fun t => txidOf s >>= fun id => encodeQuery h t id) =
      (hostnameOf t >>= fun h => argOf t >>= fun t' => txidOf t >>= fun id => encodeQuery h t' id) := by
  obtain ⟨hlen, hbuf, harg, htxid⟩ := h
  simp only [hostnameOf_congr hlen hbuf, argOf, txidOf, harg, htxid]

theorem decmsg_keepsToDeclared : KeepsToDeclared .message .message (exec .decmsg) where
  frame s _ h := finish_onlyOutputsChanged (fun _ => rfl) ((exec_decmsg s).symm.trans h)
  agree s t h := by
    rw [exec_decmsg, exec_decmsg, decodeFrom_congr h]
    exact finish_agree rfl fun v => ⟨rfl, rfl, rfl, rfl, rfl, rfl, rfl⟩
  report s _ h := finish_reports ((exec_decmsg s).symm.trans h)

/-! ### The wire patterns -/

theorem lengthOctet_keepsToDeclared (n : Byte) : KeepsToDeclared .field .name (lengthOctet n) :=
  keepsToDeclared_finish (fun s => lengthOctet_eq s n) (fun _ _ h => atCursor_congr h fun _ => lenTurn_congr h.2.2)
    (fun _ _ => rfl) fun _ _ _ => ⟨rfl, rfl⟩

theorem flagPattern_keepsToDeclared (f : FlagFields) : KeepsToDeclared .nothing .header (flagPattern f) :=
  keepsToDeclared_finish (fun _ => rfl) (fun _ _ _ => rfl) (fun _ _ => rfl) fun _ _ _ => rfl

theorem opcodePattern_keepsToDeclared (o : BitVec 4) : KeepsToDeclared .nothing .opcode (opcodePattern o) :=
  keepsToDeclared_finish (fun _ => rfl) (fun _ _ _ => rfl) (fun _ _ => rfl) fun _ _ _ => rfl

theorem rcodePattern_keepsToDeclared (c : BitVec 4) : KeepsToDeclared .nothing .value (rcodePattern c) :=
  keepsToDeclared_finish (fun s => rcodePattern_eq s c) (fun _ _ _ => rfl) (fun _ _ => rfl) fun _ _ _ => rfl

theorem rtypePattern_keepsToDeclared (t : Half) : KeepsToDeclared .nothing .value (rtypePattern t) :=
  keepsToDeclared_finish (fun s => rtypePattern_eq s t) (fun _ _ _ => rfl) (fun _ _ => rfl) fun _ _ _ => rfl

theorem classPattern_keepsToDeclared (c : Half) : KeepsToDeclared .nothing .qclass (classPattern c) :=
  keepsToDeclared_finish (fun _ => rfl) (fun _ _ _ => rfl) (fun _ _ => rfl) fun _ _ _ => rfl

/-- Every row of the table keeps to its declared inputs and outputs. -/
theorem exec_keepsToDeclared (i : Instr) : KeepsToDeclared (inputGroup i) (outputGroup i) (exec i) := by
  cases i with
  | pack16 =>
    exact keepsToDeclared_finish exec_pack16 (fun _ _ h => congrArg (· >>= _) (argOf_congr h)) (fun _ _ => rfl)
      fun _ _ _ => ⟨rfl, rfl⟩
  | unpack16 =>
    exact keepsToDeclared_finish exec_unpack16 (fun _ _ h => atCursor_congr h fun _ => rd16_congr h.2.2)
      (fun _ _ => rfl) fun _ _ _ => ⟨rfl, rfl⟩
  | unpack32 =>
    exact keepsToDeclared_finish exec_unpack32 (fun _ _ h => atCursor_congr h fun _ => rd32_congr h.2.2)
      (fun _ _ => rfl) fun _ _ _ => ⟨rfl, rfl⟩
  | nameenc =>
    exact keepsToDeclared_finish exec_nameenc (fun _ _ h => congrArg (· >>= _) (hostnameOf_congr h.1 h.2))
      (fun _ _ => rfl) fun _ _ _ => ⟨rfl, rfl⟩
  | namedec =>
    exact keepsToDeclared_finish exec_namedec (fun _ _ h => atCursor_congr h fun _ => nameDecode_congr h.2.2)
      (fun _ _ => rfl) fun _ _ _ => ⟨rfl, rfl⟩
  | hdrenc =>
    exact keepsToDeclared_finish exec_hdrenc (fun _ _ h => headerWordOf_congr h) (fun _ _ => rfl) fun _ _ _ => rfl
  | hdrdec =>
    exact keepsToDeclared_finish exec_hdrdec (fun _ _ h => congrArg (· >>= _) (argOf_congr h)) (fun _ _ => rfl)
      fun _ _ _ => rfl
  | rcdec =>
    exact keepsToDeclared_finish exec_rcdec (fun _ _ h => congrArg (· >>= _) (argOf_congr h)) (fun _ _ => rfl)
      fun _ _ _ => rfl
  | rtdec =>
    exact keepsToDeclared_finish exec_rtdec (fun _ _ h => congrArg (· >>= _) (argOf_congr h)) (fun _ _ => rfl)
      fun _ _ _ => rfl
  | qparse =>
    exact keepsToDeclared_finish exec_qparse (fun _ _ h => atCursor_congr h fun _ => questionParse_congr h.2.2)
      (fun _ _ => rfl) fun _ _ _ => ⟨rfl, rfl⟩
  | rrparse =>
    exact keepsToDeclared_finish exec_rrparse (fun _ _ h => atCursor_congr h fun _ => rrParse_congr h.2.2)
      (fun _ _ => rfl) fun _ _ _ => ⟨rfl, rfl, rfl⟩
  | encq =>
    exact keepsToDeclared_finish exec_encq (fun _ _ h => queryOf_congr h) (fun _ _ => rfl) fun _ _ _ => ⟨rfl, rfl⟩
  | decmsg => exact decmsg_keepsToDeclared
  | cmdUnassigned0 | cmdUnassignedE | cmdUnassignedF => exact keepsToDeclared_refused _
  | lenEnd | lenLabel | lenRsv01 | lenRsv10 | lenPtr => exact lengthOctet_keepsToDeclared _
  | flags | flagsQuery => exact flagPattern_keepsToDeclared _
  | opcodeStandardQuery | opcodeUnnamed => exact opcodePattern_keepsToDeclared _
  | rcodeNoError => exact rcodePattern_keepsToDeclared 0
  | rcodeFormatError => exact rcodePattern_keepsToDeclared 1
  | rcodeServerFailure => exact rcodePattern_keepsToDeclared 2
  | rcodeNameError => exact rcodePattern_keepsToDeclared 3
  | rcodeNotImplemented => exact rcodePattern_keepsToDeclared 4
  | rcodeRefused => exact rcodePattern_keepsToDeclared 5
  | rcodeUnknown c => exact rcodePattern_keepsToDeclared c
  | rtypeA => exact rtypePattern_keepsToDeclared 1
  | rtypeNs => exact rtypePattern_keepsToDeclared 2
  | rtypeCname => exact rtypePattern_keepsToDeclared 5
  | rtypeSoa => exact rtypePattern_keepsToDeclared 6
  | rtypeWks => exact rtypePattern_keepsToDeclared 11
  | rtypePtr => exact rtypePattern_keepsToDeclared 12
  | rtypeMx => exact rtypePattern_keepsToDeclared 15
  | rtypeTxt => exact rtypePattern_keepsToDeclared 16
  | rtypeUnknown t => exact rtypePattern_keepsToDeclared t
  | classIn | classOther => exact classPattern_keepsToDeclared _

/-- Settles O11: the frame of `exec_keepsToDeclared`. -/
theorem onlyDeclaredOutputsChange : Obligations.OnlyDeclaredOutputsChange :=
  fun i => (exec_keepsToDeclared i).frame

/-- Settles O12: the agreement of `exec_keepsToDeclared`. -/
theorem outcomesDependOnDeclaredInputsOnly : Obligations.OutcomesDependOnDeclaredInputsOnly :=
  fun i => (exec_keepsToDeclared i).agree

/-! ### Repeating a command (R13) -/

/-- Agreeing on the outputs of a group is giving the same outputs to take. -/
theorem takeOutputs_congr {g : OutputGroup} {t t' : State} (h : outputsAgree g t t') (u : State) :
    takeOutputs g u t = takeOutputs g u t' := by
  cases g <;> simp_all [outputsAgree, takeOutputs]

/-- Taking its own outputs leaves a state as it is. -/
theorem takeOutputs_self (g : OutputGroup) (t : State) : takeOutputs g t t = t := by
  cases g <;> rfl

/-- What a command has left it leaves again, from any state that agrees with the first on the inputs and differs from
what it left in the outputs only. -/
theorem exec_again {i : Instr} {s t u : State} (h : exec i s = .next t) (hin : inputsAgree (inputGroup i) s u)
    (hu : takeReport (takeOutputs (outputGroup i) u t) t = t) : exec i u = .next t := by
  have hag := (exec_keepsToDeclared i).agree s u hin
  rw [h] at hag
  cases hx : exec i u with
  | next t' =>
    rw [hx] at hag
    obtain ⟨hout, herr, hinfo0, hinfo1⟩ := hag
    have hf : t' = takeReport (takeOutputs (outputGroup i) u t') t' := (exec_keepsToDeclared i).frame u t' hx
    have ht : takeReport (takeOutputs (outputGroup i) u t') t' = takeReport (takeOutputs (outputGroup i) u t) t := by
      rw [takeOutputs_congr hout u]
      simp only [takeReport, herr, hinfo0, hinfo1]
    rw [hf, ht, hu]
  | fault | refused =>
    rw [hx] at hag
    exact hag.elim

/-- HDRENC, the one command whose inputs are `HF`, does not write it. -/
theorem outputGroup_of_header {i : Instr} (h : inputGroup i = .header) : outputGroup i = .value := by
  cases i with
  | hdrenc => rfl
  | _ => cases h

/-- No command writes an input of its own but `CUR`: with `CUR` restored its inputs are as they were. -/
theorem inputsAgree_restored {i : Instr} {s t : State} (h : exec i s = .next t) :
    inputsAgree (inputGroup i) s { t with cur := s.cur } := by
  have hf := (exec_keepsToDeclared i).frame s t h
  obtain ⟨hibuf, hhbuf, hilen, hhlen, -, htxid, harg, -⟩ := onlyOutputsChanged_inputs hf
  cases hg : inputGroup i with
  | header =>
    have hhf : t.hf = s.hf := by
      rw [show t = _ from hf, outputGroup_of_header hg]
      rfl
    simp [inputsAgree, hhf]
  | _ => simp [inputsAgree, agreeBelow, hibuf, hhbuf, hilen, hhlen, htxid, harg]

/-- Restoring `CUR` undoes an output or nothing. -/
theorem takeOutputs_restored {g : OutputGroup} {s t : State} (h : onlyOutputsChanged g s t) :
    takeReport (takeOutputs g { t with cur := s.cur } t) t = t := by
  by_cases hg : g ∈ ([.field, .name, .question, .record, .message] : List OutputGroup)
  · simp only [List.mem_cons, List.not_mem_nil, or_false] at hg
    rcases hg with rfl | rfl | rfl | rfl | rfl <;> rfl
  · have hcur : t.cur = s.cur := by
      rw [show t = _ from h, takeReport_cur, takeOutputs_cur_of hg]
    rw [← hcur]
    exact congrArg (takeReport · t) (takeOutputs_self g t)

/-- Settles O13: a command's inputs are still there once `CUR` is restored, so it gives its outputs again. -/
theorem repeatingACommandGivesTheSameResult : Obligations.RepeatingACommandGivesTheSameResult := by
  refine ⟨fun i s t h => ?_, fun s t h => ?_⟩
  · exact exec_again h (inputsAgree_restored h) (takeOutputs_restored ((exec_keepsToDeclared i).frame s t h))
  · have hin : inputsAgree .message s t := inputsAgree_restored h
    exact exec_again h hin (congrArg (takeReport · t) (takeOutputs_self _ t))

end Sys2Proof.Machine
end

section
/-! SUPPORT. The invariant every step keeps (R14 to R17, R22 to R28, R156): what each group of outputs may hold, that every
row leaves its outputs so, and that everything else of the invariant is a frame. -/

namespace Sys2Proof.Machine

/-! ### What the outputs may hold -/

/-- R15, R27: `OBUF` is canonical and holds a value exactly below `OLEN`, which is at most 271. -/
def outputLegal (t : State) : Prop :=
  Memory.wf t.obuf ∧ (∀ n, t.olen = some n → n.toNat ≤ 271 ∧ ∀ a, t.obuf.read a ≠ none ↔ a < n.toNat) ∧
    (t.olen = none → ∀ a, t.obuf.read a = none)

/-- R14: `CUR` is within the input. -/
def cursorLegal (ilen : Half) (t : State) : Prop := ∀ c, t.cur = some c → c.toNat ≤ ilen.toNat

/-- R24. -/
def nameLegal (t : State) : Prop := ∀ ls, t.name = some ls → legalName ls

/-- R23. -/
def questionRegsLegal (t : State) : Prop :=
  (∀ ls, t.qst.name = some ls → legalName ls) ∧ ∀ qt, t.qst.qtype = some qt → knownType qt

/-- R25, R156: the store has `NREC` legal records, at most 5955. -/
def storeLegal (t : State) : Prop :=
  (∀ n, t.nrec = some n → t.recs.length = n ∧ n ≤ 5955) ∧ (t.nrec = none → t.recs = []) ∧ ∀ r ∈ t.recs, legalRecord r

/-- R16, R22: the message registers hold values exactly in the stage Done. -/
def messageRegsLegal (t : State) : Prop :=
  t.stage.toNat ≤ 5 ∧
    ((∃ h : MessageHeader,
        t.msg = ⟨some h.id, some h.flags, some h.qdcount, some h.ancount, some h.nscount, some h.arcount⟩ ∧
        t.stage = 5 ∧ (hdrDecode h.flags).rcode.toNat ≤ 5) ∨
      (t.msg = ⟨none, none, none, none, none, none⟩ ∧ t.stage ≠ 5))

/-- What `BlockInv` asks of the outputs of a group, the input being `ilen` bytes long. -/
def outputsLegal (g : OutputGroup) (ilen : Half) (t : State) : Prop :=
  match g with
  | .nothing | .value | .header | .opcode | .qclass => True
  | .output => outputLegal t
  | .field => cursorLegal ilen t
  | .name => nameLegal t ∧ cursorLegal ilen t
  | .question => questionRegsLegal t ∧ cursorLegal ilen t
  | .record => storeLegal t ∧ cursorLegal ilen t
  | .message => messageRegsLegal t ∧ questionRegsLegal t ∧ storeLegal t ∧ cursorLegal ilen t

/-- A state that differs from a good one in legal outputs and a report only is good. -/
theorem BlockInv.of_frame {g : OutputGroup} {s t : State} (hs : BlockInv s) (hf : onlyOutputsChanged g s t)
    (hr : ∃ e, reports t e) (hl : outputsLegal g s.ilen t) : BlockInv t := by
  rw [show t = _ from hf]
  cases g with
  | nothing | value | header | opcode | qclass => exact { hs with report := hr }
  | output =>
    obtain ⟨hwf, hsome, hnone⟩ := hl
    exact { hs with report := hr, obuf_wf := hwf, output := hsome, no_output := hnone }
  | field => exact { hs with report := hr, cursor := hl }
  | name =>
    obtain ⟨hname, hcur⟩ := hl
    exact { hs with report := hr, name := hname, cursor := hcur }
  | question =>
    obtain ⟨⟨hname, htype⟩, hcur⟩ := hl
    exact { hs with report := hr, question_name := hname, question_type := htype, cursor := hcur }
  | record =>
    obtain ⟨⟨hsome, hnone, hrecs⟩, hcur⟩ := hl
    exact { hs with report := hr, store := hsome, no_store := hnone, records := hrecs, cursor := hcur }
  | message =>
    obtain ⟨⟨hstage, hmsg⟩, ⟨hname, htype⟩, ⟨hsome, hnone, hrecs⟩, hcur⟩ := hl
    exact { hs with
      report := hr, stage := hstage, message := hmsg, question_name := hname, question_type := htype,
      store := hsome, no_store := hnone, records := hrecs, cursor := hcur }

/-! ### The updates -/

section updates
variable {α : Type} {u : State} {v : Held α}

theorem outputLegal_putOutput {out : Held (List Byte)} (h : ∀ bs, out = some bs → bs.length ≤ 271) :
    outputLegal (u.putOutput out) := by
  refine ⟨Memory.ofBytesAt_wf _ _, ?_, ?_⟩
  · intro n hn
    obtain ⟨bs, rfl, rfl⟩ := Option.map_eq_some_iff.mp hn
    have hle := h bs rfl
    have hlen : (BitVec.ofNat 16 bs.length).toNat = bs.length := by
      simp only [BitVec.toNat_ofNat]
      omega
    rw [hlen]
    exact ⟨hle, fun a => by simp [Memory.read_ofBytesAt]⟩
  · intro hn a
    obtain rfl := Option.map_eq_none_iff.mp hn
    rfl

theorem cursorLegal_putCur {ilen : Half} {c : Held Nat} (h : ∀ k, c = some k → k ≤ ilen.toNat) :
    cursorLegal ilen (u.putCur c) := by
  intro x hx
  obtain ⟨k, rfl, rfl⟩ := Option.map_eq_some_iff.mp hx
  have hk := h k rfl
  rw [toCur_toNat (by omega)]
  exact hk

theorem nameLegal_putName {n : Held (List Label)} (h : ∀ ls, n = some ls → legalName ls) : nameLegal (u.putName n) := h

theorem questionRegsLegal_putQuestion {q : Held Question} (h : ∀ x, q = some x → legalQuestion x) :
    questionRegsLegal (u.putQuestion q) := by
  constructor
  · intro ls hls
    obtain ⟨x, rfl, rfl⟩ := Option.map_eq_some_iff.mp hls
    exact (h x rfl).1
  · intro t ht
    obtain ⟨x, rfl, rfl⟩ := Option.map_eq_some_iff.mp ht
    exact (h x rfl).2

theorem storeLegal_putRecords {rs : Held (List Record)}
    (h : ∀ x, rs = some x → x.length ≤ 5955 ∧ ∀ r ∈ x, legalRecord r) : storeLegal (u.putRecords rs) := by
  cases rs with
  | none => simp [storeLegal]
  | some x => simpa [storeLegal] using h x rfl

end updates

/-! ### The decoding functions -/

/-- A function that, where it succeeds, leaves its cursor beyond where it started and within the input (R14). -/
def MovesForward {α : Type} (f : Input → Nat → Run (α × Nat)) : Prop :=
  ∀ inp c v d, f inp c = .ok (v, d) → c < d ∧ d ≤ inp.len

theorem rd16_movesForward : MovesForward rd16 := by
  intro inp c v d h
  obtain ⟨hle, -, rfl⟩ := rd16_ok.mp h
  omega

theorem rd32_movesForward : MovesForward rd32 := by
  intro inp c v d h
  obtain ⟨hle, -, rfl⟩ := rd32_ok.mp h
  omega

theorem nameDecode_movesForward : MovesForward nameDecode := by
  intro inp c ls d h
  obtain ⟨-, -, rfl, hle⟩ := nameDecode_ok.mp h
  have := wireName_length_pos ls
  omega

/-- R61: a question takes at least 5 bytes. -/
theorem wireQuestion_length_ge (q : Question) : 5 ≤ (wireQuestion q).length := by
  have := wireName_length_pos q.name
  simp only [wireQuestion, List.length_append, be16_length]
  omega

theorem questionParse_movesForward : MovesForward questionParse := by
  intro inp c q d h
  obtain ⟨-, -, rfl, hle⟩ := questionParse_ok.mp h
  have := wireQuestion_length_ge q
  omega

theorem rrParse_movesForward : MovesForward rrParse := by
  intro inp c r d h
  obtain ⟨-, -, rfl, hle⟩ := rrParse_ok.mp h
  have := wireRecord_length_ge r
  omega

/-- R156: header and question take at least 17 bytes, each record at least 11. -/
theorem wireMessage_length_ge (h : MessageHeader) (q : Question) (rs : List Record) :
    17 + 11 * rs.length ≤ (wireMessage h q rs).length := by
  have hq := wireQuestion_length_ge q
  have hr := flatMap_wireRecord_length rs
  simp only [wireMessage, List.length_append, wireHeader_length]
  omega

/-- R27: a query's output is at most 12 + 255 + 4 bytes. -/
theorem encodeQuery_length {h : List Byte} {t id : Half} {out : List Byte} (he : encodeQuery h t id = .ok out) :
    out.length ≤ 271 := by
  obtain ⟨name, hn, he⟩ := bind_eq_ok.mp he
  obtain ⟨type, -, he⟩ := bind_eq_ok.mp he
  obtain ⟨-, -, hle⟩ := nameEncode_ok.mp hn
  simp only [pure_eq_ok, Except.ok.injEq] at he
  subst he
  simp only [List.length_append, be16_length]
  omega

/-! ### The rows -/

/-- Everything DECMSG can have done, a message it accepts being legal and within the input. -/
theorem execDecmsg_legal {s t : State} (h : exec .decmsg s = .next t) :
    (∃ hd q rs, s.ilen.toNat ≤ 65527 ∧ (hdrDecode hd.flags).rcode.toNat ≤ 5 ∧ legalQuestion q ∧
        (∀ r ∈ rs, legalRecord r) ∧ (wireMessage hd q rs).length ≤ s.ilen.toNat ∧ t = decodedState s hd q rs) ∨
      ∃ st e, decodeFrom s = .error (st, .raised e) ∧ t = undecodedState s st e := by
  rcases execDecmsg_next h with ⟨⟨hd, f, q, rs, d⟩, hm, rfl⟩ | herr
  · obtain ⟨x, hlen, -, hx⟩ := decodeFrom_ok hm
    obtain ⟨-, hrc, hf, hq, hrs, -, -, hend, hle⟩ := decodeMessage_ok.mp hx
    dsimp only at hf hend
    subst hf hend
    exact .inl ⟨hd, q, rs, hlen, hrc, hq, hrs, hle, putDecoded_eq s hd q rs⟩
  · exact .inr herr

/-- The value is the run's, or there is none, the run having raised an error. -/
def delivers {α : Type} (r : Run α) (v : Held α) : Prop := ∀ a, v = some a → r = .ok a

/-- A row leaves its outputs legal if its update does so with whatever its run delivers. -/
theorem finish_outputsLegal {α : Type} {g : OutputGroup} {n : Half} {r : Run α} {put : Held α → State → State}
    {s t : State} (h : finish r put s = .next t) (hput : ∀ v, delivers r v → outputsLegal g n (put v s)) :
    outputsLegal g n t := by
  rcases finish_next.mp h with ⟨v, rfl, rfl⟩ | ⟨e, rfl, rfl⟩
  · have hl := hput (some v) fun a ha => by cases ha; rfl
    cases g <;> exact hl
  · have hl := hput none fun a ha => by cases ha
    cases g <;> exact hl

/-- What a run from `CUR` delivers its function delivered. -/
theorem delivers_atCursor {α β : Type} {f : Input → Nat → Run α} {s : State} {v : Held α} {p : α → β} {b : β}
    (hv : delivers (atCursor f s) v) (hb : v.map p = some b) :
    ∃ a c, p a = b ∧ s.cur = some c ∧ f ⟨s.ibuf, s.ilen.toNat⟩ c.toNat = .ok a := by
  obtain ⟨a, ha, hp⟩ := Option.map_eq_some_iff.mp hb
  obtain ⟨-, c, hc, hf⟩ := atCursor_ok.mp (hv a ha)
  exact ⟨a, c, hp, hc, hf⟩

/-- R14: a cursor command whose function moves forward leaves `CUR` within the input. -/
theorem cursorLegal_atCursor {α : Type} {f : Input → Nat → Run (α × Nat)} {s u : State} {v : Held (α × Nat)}
    (hfwd : MovesForward f) (hv : delivers (atCursor f s) v) : cursorLegal s.ilen (u.putCur (v.map (·.2))) := by
  refine cursorLegal_putCur fun k hk => ?_
  obtain ⟨a, c, rfl, -, hf⟩ := delivers_atCursor hv hk
  exact (hfwd _ _ a.1 a.2 hf).2

/-- A length octet delivers a legal label or none, and leaves `CUR` within the input if it was there. -/
theorem lengthOctet_outputsLegal {n : Byte} {s t : State} (hs : cursorLegal s.ilen s)
    (h : lengthOctet n s = .next t) : outputsLegal .name s.ilen t := by
  rw [lengthOctet_eq] at h
  refine finish_outputsLegal h fun v hv => ⟨?_, ?_⟩
  · refine nameLegal_putName (u := s) fun ls hls => ?_
    obtain ⟨⟨lab, d⟩, c, rfl, -, hf⟩ := delivers_atCursor hv hls
    rcases lenTurn_ok.mp hf with ⟨-, rfl, -⟩ | ⟨l, rfl, hl, -⟩
    · simp [legalName]
    · simpa [legalName] using hl
  · refine cursorLegal_putCur fun k hk => ?_
    obtain ⟨⟨lab, d⟩, c, rfl, hc, hf⟩ := delivers_atCursor hv hk
    rcases lenTurn_ok.mp hf with ⟨-, -, rfl⟩ | ⟨l, -, -, -, hle, -, rfl⟩
    · exact hs c hc
    · exact hle

/-- R150, R156: what a successful DECMSG leaves is legal. -/
theorem decodedState_outputsLegal {s : State} {h : MessageHeader} {q : Question} {rs : List Record}
    (hrc : (hdrDecode h.flags).rcode.toNat ≤ 5) (hq : legalQuestion q) (hrs : ∀ r ∈ rs, legalRecord r)
    (hle : (wireMessage h q rs).length ≤ s.ilen.toNat) (hlen : s.ilen.toNat ≤ 65527) :
    outputsLegal .message s.ilen (decodedState s h q rs) := by
  have hge := wireMessage_length_ge h q rs
  refine ⟨⟨Nat.le_refl 5, .inl ⟨h, rfl, rfl, hrc⟩⟩, ⟨?_, ?_⟩, ⟨?_, ?_, hrs⟩, ?_⟩
  · rintro _ ⟨⟩
    exact hq.1
  · rintro _ ⟨⟩
    exact hq.2
  · rintro _ ⟨⟩
    exact ⟨rfl, by omega⟩
  · rintro ⟨⟩
  · rintro _ ⟨⟩
    rw [toCur_toNat (by omega)]
    exact hle

/-- R158: what a failed DECMSG leaves is legal; it never fails in the stage Done. -/
theorem undecodedState_outputsLegal {s : State} {st : Stage} {e : CodecError}
    (h : decodeFrom s = .error (st, .raised e)) : outputsLegal .message s.ilen (undecodedState s st e) := by
  obtain ⟨x, -, -, hd⟩ := decodeFrom_raised h
  have hst : (stageCode st).toNat ≤ 5 ∧ stageCode st ≠ 5 := by
    have herr := decodeMessage_raised hd
    cases st with
    | start | done => exact herr.elim
    | transactionIdCheck | header | question | records => decide
  refine ⟨⟨hst.1, .inr ⟨rfl, hst.2⟩⟩, ⟨?_, ?_⟩, ⟨?_, fun _ => rfl, ?_⟩, ?_⟩ <;> intro _ hx <;> cases hx

/-- From a state whose cursor is within the input every row leaves its outputs legal. -/
theorem exec_outputsLegal {i : Instr} {s t : State} (hs : cursorLegal s.ilen s) (h : exec i s = .next t) :
    outputsLegal (outputGroup i) s.ilen t := by
  cases i with
  | pack16 =>
    rw [exec_pack16] at h
    refine finish_outputsLegal h fun v hv => outputLegal_putOutput fun bs hbs => ?_
    obtain ⟨w, -, hw⟩ := bind_eq_ok.mp (hv bs hbs)
    cases hw
    rw [be16_length]
    omega
  | nameenc =>
    rw [exec_nameenc] at h
    refine finish_outputsLegal h fun v hv => outputLegal_putOutput fun bs hbs => ?_
    obtain ⟨name, -, hw⟩ := bind_eq_ok.mp (hv bs hbs)
    obtain ⟨-, -, hle⟩ := nameEncode_ok.mp hw
    omega
  | encq =>
    rw [exec_encq] at h
    refine finish_outputsLegal h fun v hv => outputLegal_putOutput fun bs hbs => ?_
    obtain ⟨name, -, hw⟩ := bind_eq_ok.mp (hv bs hbs)
    obtain ⟨type, -, hw⟩ := bind_eq_ok.mp hw
    obtain ⟨id, -, hw⟩ := bind_eq_ok.mp hw
    exact encodeQuery_length hw
  | unpack16 =>
    rw [exec_unpack16] at h
    exact finish_outputsLegal h fun v hv => cursorLegal_atCursor rd16_movesForward hv
  | unpack32 =>
    rw [exec_unpack32] at h
    exact finish_outputsLegal h fun v hv => cursorLegal_atCursor rd32_movesForward hv
  | namedec =>
    rw [exec_namedec] at h
    refine finish_outputsLegal h fun v hv => ⟨nameLegal_putName (u := s) fun ls hls => ?_,
      cursorLegal_atCursor nameDecode_movesForward hv⟩
    obtain ⟨⟨_, d⟩, c, rfl, -, hf⟩ := delivers_atCursor hv hls
    exact (nameDecode_ok.mp hf).1
  | qparse =>
    rw [exec_qparse] at h
    refine finish_outputsLegal h fun v hv => ⟨questionRegsLegal_putQuestion (u := s) fun q hq => ?_,
      cursorLegal_atCursor questionParse_movesForward hv⟩
    obtain ⟨⟨_, d⟩, c, rfl, -, hf⟩ := delivers_atCursor hv hq
    exact (questionParse_ok.mp hf).1
  | rrparse =>
    rw [exec_rrparse] at h
    refine finish_outputsLegal h fun v hv => ⟨storeLegal_putRecords (u := s) fun rs hrs => ?_,
      cursorLegal_atCursor rrParse_movesForward hv⟩
    obtain ⟨⟨r, d⟩, c, rfl, -, hf⟩ := delivers_atCursor hv hrs
    exact ⟨by simp, by simpa using (rrParse_ok.mp hf).1⟩
  | decmsg =>
    rcases execDecmsg_legal h with ⟨hd, q, rs, hlen, hrc, hq, hrs, hle, rfl⟩ | ⟨st, e, hd, rfl⟩
    · exact decodedState_outputsLegal hrc hq hrs hle hlen
    · exact undecodedState_outputsLegal hd
  | lenEnd | lenLabel | lenRsv01 | lenRsv10 | lenPtr => exact lengthOctet_outputsLegal hs h
  | _ => exact trivial

/-- Settles O8: a step is idle or a row, and a row changes its outputs, which it leaves legal, and the report. -/
theorem everyStepKeepsTheBlockInvariant : Obligations.EveryStepKeepsTheBlockInvariant := by
  intro s t hs h
  rcases step_next h with ⟨-, rfl⟩ | ⟨f, bytes, i, rest, -, -, hx⟩
  · exact hs
  · have hs' : BlockInv s.consume := { hs with }
    have hrow := exec_keepsToDeclared i
    exact hs'.of_frame (hrow.frame _ _ hx) (hrow.report _ _ hx) (exec_outputsLegal hs'.cursor hx)

/-- Settles O7: the buffers, the records and the registers the invariant speaks of are empty, and `OLEN` and `CUR` are 0. -/
theorem resetMeetsTheBlockInvariant : Obligations.ResetMeetsTheBlockInvariant where
  ibuf_wf := .nil
  hbuf_wf := .nil
  obuf_wf := .nil
  within := ⟨fun _ _ => rfl, fun _ _ => rfl⟩
  output n hn := by
    cases hn
    simp [State.reset]
  no_output _ _ := rfl
  cursor c hc := by
    cases hc
    exact Nat.le_refl 0
  store n hn := by
    cases hn
    exact ⟨rfl, by omega⟩
  no_store _ := rfl
  records _ hr := by cases hr
  name _ h := by cases h
  question_name _ h := by cases h
  question_type _ h := by cases h
  stage := by decide
  report := ⟨none, rfl, rfl, rfl⟩
  message := .inr ⟨rfl, by decide⟩

/-! ### The cursor (R14) -/

/-- A successful cursor command whose function moves forward moves `CUR` forward, within the input. -/
theorem finish_atCursor_movesForward {α : Type} {f : Input → Nat → Run (α × Nat)}
    {put : Held (α × Nat) → State → State} {s t : State} {c : Half} (h : finish (atCursor f s) put s = .next t)
    (hfwd : MovesForward f) (hput : ∀ v u, (put v u).cur = (v.map (·.2)).map toCur) (herr : t.err = 0)
    (hc : s.cur = some c) :
    ∃ c', t.cur = some c' ∧ c.toNat < c'.toNat ∧ c'.toNat ≤ s.ilen.toNat := by
  obtain ⟨hlen, c0, hc0, ⟨v, hv, rfl⟩ | ⟨e, -, rfl⟩⟩ := finish_atCursor_next h
  · obtain rfl : c0 = c := by simpa [hc0] using hc
    obtain ⟨hlt, hle⟩ := hfwd _ _ v.1 v.2 hv
    have hle : v.2 ≤ s.ilen.toNat := hle
    refine ⟨toCur v.2, by rw [State.succeed_cur, hput]; rfl, ?_⟩
    rw [toCur_toNat (by omega)]
    exact ⟨hlt, hle⟩
  · exact absurd herr (errorCode_ne_zero e)

/-- Settles O47: every function that reads from `CUR` moves forward, and a message is at least 17 bytes. -/
theorem theCursorOnlyMovesForward : Obligations.TheCursorOnlyMovesForward := by
  refine ⟨fun i s t c hi h herr hc => ?_, fun s t h herr => ?_⟩
  · simp only [List.mem_cons, List.not_mem_nil, or_false] at hi
    rcases hi with rfl | rfl | rfl | rfl | rfl
    · exact finish_atCursor_movesForward ((exec_unpack16 s).symm.trans h) rd16_movesForward (fun _ _ => rfl) herr hc
    · exact finish_atCursor_movesForward ((exec_unpack32 s).symm.trans h) rd32_movesForward (fun _ _ => rfl) herr hc
    · exact finish_atCursor_movesForward ((exec_namedec s).symm.trans h) nameDecode_movesForward (fun _ _ => rfl) herr hc
    · exact finish_atCursor_movesForward ((exec_qparse s).symm.trans h) questionParse_movesForward (fun _ _ => rfl) herr hc
    · exact finish_atCursor_movesForward ((exec_rrparse s).symm.trans h) rrParse_movesForward (fun _ _ => rfl) herr hc
  · rcases execDecmsg_legal h with ⟨hd, q, rs, hlen, -, -, -, hle, rfl⟩ | ⟨st, e, -, rfl⟩
    · have hge := wireMessage_length_ge hd q rs
      refine ⟨toCur (wireMessage hd q rs).length, rfl, ?_⟩
      rw [toCur_toNat (by omega)]
      omega
    · exact absurd herr (errorCode_ne_zero e)

end Sys2Proof.Machine
end

section
/-! SUPPORT. Where the model stops (R15, R29, R40, D14): operands without a value, lengths too large, bytes reached without a
value, and the host's acts beyond the buffers. -/

namespace Sys2Proof.Machine

/-- Settles O6. Every field of `State.reset` is R31's, an empty buffer holds no value, and with nothing asked a step changes
nothing. -/
theorem resetHoldsTheSpecsValues : Obligations.ResetHoldsTheSpecsValues :=
  ⟨rfl, rfl, rfl, rfl, rfl, rfl, rfl, rfl, rfl, rfl, rfl, rfl, rfl, rfl, rfl, rfl, rfl, rfl,
    fun a => ⟨Memory.read_nil a, Memory.read_nil a, Memory.read_nil a⟩, fun _ => rfl, rfl⟩

/-! ### Operands that cannot be read -/

section refusals
variable {α β : Type} {s : State} {f : Input → Nat → Run α} {put : Held α → State → State} {why : Refusal}

/-- A command whose operands are refused is refused. -/
theorem finish_bind_refused {x : Run β} {g : β → Run α} (hx : x = .error (.refused why)) :
    finish (x >>= g) put s = .refused why := by
  rw [hx, error_bind, finish_refused]

theorem argOf_none (h : s.arg = none) : argOf s = .error (.refused (.noValue .arg)) := by
  rw [argOf, h, readHeld_none]

theorem txidOf_none (h : s.txid = none) : txidOf s = .error (.refused (.noValue .txid)) := by
  rw [txidOf, h, readHeld_none]

theorem inputOf_long (h : 65527 < s.ilen.toNat) : inputOf s = .error (.refused .ilenTooLong) :=
  inputOf_error.mpr ⟨h, rfl⟩

/-- No cursor command reads anything while `ILEN` is above the capacity of `IBUF`. -/
theorem atCursor_long (h : 65527 < s.ilen.toNat) : atCursor f s = .error (.refused .ilenTooLong) := by
  rw [atCursor, inputOf_long h, error_bind]

/-- No cursor command reads a byte while `CUR` holds no value. -/
theorem atCursor_noCursor (hl : s.ilen.toNat ≤ 65527) (hc : s.cur = none) :
    atCursor f s = .error (.refused (.noValue .cur)) := by
  rw [atCursor, inputOf_eq hl, cursorOf, hc]
  rfl

/-- The cursor commands are refused where no function can be run from `CUR`. -/
theorem cursorCommand_refused {i : Instr} (hi : i ∈ ([.unpack16, .unpack32, .namedec, .qparse, .rrparse] : List Instr))
    (h : ∀ {α : Type} (f : Input → Nat → Run α), atCursor f s = .error (.refused why)) :
    exec i s = .refused why := by
  simp only [List.mem_cons, List.not_mem_nil, or_false] at hi
  rcases hi with rfl | rfl | rfl | rfl | rfl
  · exact (exec_unpack16 s).trans (finish_eq_refused.mpr (h _))
  · exact (exec_unpack32 s).trans (finish_eq_refused.mpr (h _))
  · exact (exec_namedec s).trans (finish_eq_refused.mpr (h _))
  · exact (exec_qparse s).trans (finish_eq_refused.mpr (h _))
  · exact (exec_rrparse s).trans (finish_eq_refused.mpr (h _))

/-- A cursor command is refused where its function is. -/
theorem finish_atCursor_refused {c : Half} (hl : s.ilen.toNat ≤ 65527) (hc : s.cur = some c)
    (hf : f ⟨s.ibuf, s.ilen.toNat⟩ c.toNat = .error (.refused why)) : finish (atCursor f s) put s = .refused why := by
  rw [atCursor_eq hl hc, hf, finish_refused]

/-- The encoding commands are refused where the hostname is. -/
theorem hostnameCommand_refused {i : Instr} (hi : i ∈ ([.nameenc, .encq] : List Instr))
    (h : hostnameOf s = .error (.refused why)) : exec i s = .refused why := by
  simp only [List.mem_cons, List.not_mem_nil, or_false] at hi
  rcases hi with rfl | rfl
  · exact (exec_nameenc s).trans (finish_bind_refused h)
  · exact (exec_encq s).trans (finish_bind_refused h)

/-- DECMSG is refused, in whatever stage its function is. -/
theorem execDecmsg_refused {st : Stage} (h : decodeFrom s = .error (st, .refused why)) :
    exec .decmsg s = .refused why := by
  rw [exec_decmsg, h, dropStage, finish_refused]

end refusals

/-- HDRENC reads seven registers, in R30's order, and is refused at the first that holds no value. -/
theorem headerWordOf_refused {s : State} (h : s.hf.qr = none ∨ s.hf.opcode = none ∨ s.hf.aa = none ∨ s.hf.tc = none ∨
    s.hf.rd = none ∨ s.hf.ra = none ∨ s.hf.rcode = none) :
    ∃ l ∈ ([.hfQr, .hfOpcode, .hfAa, .hfTc, .hfRd, .hfRa, .hfRcode] : List Loc),
      headerWordOf s = .error (.refused (.noValue l)) := by
  unfold headerWordOf
  cases hqr : s.hf.qr with
  | none => exact ⟨.hfQr, by decide, rfl⟩
  | some => cases hop : s.hf.opcode with
  | none => exact ⟨.hfOpcode, by decide, rfl⟩
  | some => cases haa : s.hf.aa with
  | none => exact ⟨.hfAa, by decide, rfl⟩
  | some => cases htc : s.hf.tc with
  | none => exact ⟨.hfTc, by decide, rfl⟩
  | some => cases hrd : s.hf.rd with
  | none => exact ⟨.hfRd, by decide, rfl⟩
  | some => cases hra : s.hf.ra with
  | none => exact ⟨.hfRa, by decide, rfl⟩
  | some =>
    have hrc : s.hf.rcode = none := by simpa [hqr, hop, haa, htc, hrd, hra] using h
    exact ⟨.hfRcode, by decide, by rw [hrc]; rfl⟩

/-! ### Bytes without a value -/

/-- Of the addresses of a field one of which holds no value, there is a first. -/
theorem exists_first_gap {m : Memory} {c k : Nat} (h : m.read (c + k) = none) :
    ∃ a, c ≤ a ∧ a ≤ c + k ∧ m.read a = none ∧ ∀ b, c ≤ b → b < a → m.read b ≠ none := by
  classical
  have hex : ∃ j, m.read (c + j) = none := ⟨k, h⟩
  refine ⟨c + Nat.find hex, by omega, Nat.add_le_add_left (Nat.find_min' hex h) c, Nat.find_spec hex, ?_⟩
  intro b hcb hlt hb
  have hmin := Nat.find_min hex (show b - c < Nat.find hex by omega)
  rw [Nat.add_sub_cancel' hcb] at hmin
  exact hmin hb

/-- The first gap of a field that lies within the input is where a read of the field stops. -/
theorem exists_stopsIn {m : Memory} {len c k n : Nat} (h : m.read (c + k) = none) (hk : k < n) (hle : c + n ≤ len) :
    ∃ a, stopsIn m len a c n := by
  obtain ⟨a, hca, hak, hr, hb⟩ := exists_first_gap h
  exact ⟨a, hle, hca, by omega, hr, hb⟩

/-- A hostname with a byte that holds no value is refused at the first such byte. -/
theorem hostnameOf_gap {s : State} {a : Nat} (hl : s.hlen.toNat ≤ Config.hmax) (ha : a < s.hlen.toNat)
    (hr : s.hbuf.read a = none) :
    ∃ b, hostnameOf s = .error (.refused (.noValue (.byteOf .hbuf b))) ∧ b ≤ a := by
  obtain ⟨b, -, hba, hb, hfirst⟩ := exists_first_gap (c := 0) (k := a) (by rwa [Nat.zero_add])
  refine ⟨b, ?_, by omega⟩
  rw [hostnameOf_eq hl]
  exact bytesAt_stops (Nat.zero_le b) (by omega) hb hfirst

/-- Settles O17: each operand read first is refused while it holds no value, then the bytes the command reaches. -/
theorem inputsWithoutAValueAreRefused : Obligations.InputsWithoutAValueAreRefused := by
  refine ⟨fun s harg i hi => ?_, fun s hcur hl i hi => ?_, fun s htxid hl => ?_, fun s hnone => ?_,
    fun s h hl hlen hb => ⟨fun harg => ?_, fun harg htxid => ?_⟩, fun s a hl ha hr i hi => ?_,
    fun s c k hl hc hr => ⟨fun hk hle => ?_, fun hk hle => ?_⟩⟩
  · simp only [List.mem_cons, List.not_mem_nil, or_false] at hi
    have harg := argOf_none harg
    rcases hi with rfl | rfl | rfl | rfl
    · exact (exec_pack16 s).trans (finish_bind_refused harg)
    · exact (exec_hdrdec s).trans (finish_bind_refused harg)
    · exact (exec_rcdec s).trans (finish_bind_refused harg)
    · exact (exec_rtdec s).trans (finish_bind_refused harg)
  · exact cursorCommand_refused hi fun _ => atCursor_noCursor hl hcur
  · refine execDecmsg_refused (st := .start) ?_
    simp only [decodeFrom, inputOf_eq hl, txidOf_none htxid, inStage, ok_bind, error_bind]
  · obtain ⟨l, hmem, hl⟩ := headerWordOf_refused hnone
    exact ⟨l, hmem, by rw [exec_hdrenc, hl, finish_refused]⟩
  · rw [exec_encq, hostnameOf_ok.mpr ⟨hl, hlen, hb⟩, ok_bind]
    exact finish_bind_refused (argOf_none harg)
  · obtain ⟨v, hv⟩ := Option.ne_none_iff_exists'.mp harg
    rw [exec_encq, hostnameOf_ok.mpr ⟨hl, hlen, hb⟩, ok_bind, argOf, hv, readHeld_some, ok_bind]
    exact finish_bind_refused (txidOf_none htxid)
  · obtain ⟨b, hb, hba⟩ := hostnameOf_gap hl ha hr
    exact ⟨b, hostnameCommand_refused hi hb, hba⟩
  · obtain ⟨a, ha⟩ := exists_stopsIn hr hk hle
    exact ⟨a, (exec_unpack16 s).trans (finish_atCursor_refused hl hc (rd16_stops ha))⟩
  · obtain ⟨a, ha⟩ := exists_stopsIn hr hk hle
    exact ⟨a, (exec_unpack32 s).trans (finish_atCursor_refused hl hc (rd32_stops ha))⟩

/-- Settles O57: each function stops at the first gap it reaches, and its command with it. -/
theorem bytesReachedWithoutAValueAreRefused : Obligations.BytesReachedWithoutAValueAreRefused := by
  refine fun s a hl => ⟨fun c hc => ⟨fun ls hls h => ?_, fun q hq h => ?_, fun r hr h => ?_⟩,
    fun hd q rs htxid hrc hq hrs hn h => ?_⟩
  · exact (exec_namedec s).trans (finish_atCursor_refused hl hc (nameDecode_stops hls h))
  · exact (exec_qparse s).trans (finish_atCursor_refused hl hc (questionParse_stops hq h))
  · exact (exec_rrparse s).trans (finish_atCursor_refused hl hc (rrParse_stops hr h))
  · obtain ⟨st, hst⟩ := decodeMessage_stops (inp := ⟨s.ibuf, s.ilen.toNat⟩) hrc hq hrs hn h
    exact execDecmsg_refused ((decodeFrom_eq hl htxid).trans hst)

/-! ### Lengths too large -/

/-- Settles O18: the length is looked at before anything else. -/
theorem oversizeLengthsAreRefused : Obligations.OversizeLengthsAreRefused := by
  refine ⟨fun s hl i hi => ?_, fun s hl i hi => ?_, hmax_ge⟩
  · rcases List.mem_append.mp (show i ∈ [.unpack16, .unpack32, .namedec, .qparse, .rrparse] ++ [.decmsg] from hi)
      with hi | hi
    · exact cursorCommand_refused hi fun _ => atCursor_long hl
    · obtain rfl := List.mem_singleton.mp hi
      refine execDecmsg_refused (st := .start) ?_
      simp only [decodeFrom, inputOf_long hl, inStage, error_bind]
  · exact hostnameCommand_refused hi (hostnameOf_long hl)

/-! ### The host (R40, R54) -/

/-- A run of writes that ends below a bound leaves no byte at or beyond it that was not there. -/
theorem Memory.writeFrom_within {m : Memory} {n a : Nat} {bs : List Byte} (hm : ∀ x, n ≤ x → m.read x = none)
    (hle : a + bs.length ≤ n) : ∀ x, n ≤ x → (m.writeFrom a bs).read x = none := by
  intro x hx
  rw [Memory.read_writeFrom, if_neg (by omega)]
  exact hm x hx

/-- The buffers the host writes are canonical and end where R26 and R28 end them. -/
def inputsWithin (s : State) : Prop := Memory.wf s.ibuf ∧ Memory.wf s.hbuf ∧ buffersWithin s

/-- An act of the host keeps the buffers' form if its effect does: while a command waits it has none. -/
theorem hostAct_inputsWithin {f : State → State} {s : State} (hs : inputsWithin s) (hf : inputsWithin (f s)) :
    inputsWithin (s.hostAct f) := by
  by_cases hreq : s.req = .idle
  · rwa [State.hostAct_idle hreq]
  · rwa [State.hostAct_busy hreq]

/-- Bytes stored in `IBUF` below its end keep the buffers' form. -/
theorem writeIbuf_inputsWithin {s : State} {a : Nat} {bs : List Byte} {n : Half} (hs : inputsWithin s)
    (hle : a + bs.length ≤ 65527) : inputsWithin { s with ibuf := s.ibuf.writeFrom a bs, ilen := n } := by
  obtain ⟨hi, hh, hwi, hwh⟩ := hs
  exact ⟨Memory.writeFrom_wf a bs hi, hh, Memory.writeFrom_within hwi hle, hwh⟩

/-- Bytes stored in `HBUF` below its end keep the buffers' form. -/
theorem writeHbuf_inputsWithin {s : State} {a : Nat} {bs : List Byte} {n : Half} (hs : inputsWithin s)
    (hle : a + bs.length ≤ Config.hmax) : inputsWithin { s with hbuf := s.hbuf.writeFrom a bs, hlen := n } := by
  obtain ⟨hi, hh, hwi, hwh⟩ := hs
  exact ⟨hi, Memory.writeFrom_wf a bs hh, hwi, Memory.writeFrom_within hwh hle⟩

section host
variable {s t : State} {a : Nat} {b : Byte} {bytes : List Byte} (hs : inputsWithin s)
include hs

theorem hostWriteIbuf_inputsWithin (h : s.hostWriteIbuf a b = .next t) : inputsWithin t := by
  unfold State.hostWriteIbuf at h
  split at h
  · rename_i ha
    cases h
    exact hostAct_inputsWithin hs (writeIbuf_inputsWithin (bs := [b]) hs ha)
  · cases h

theorem hostWriteHbuf_inputsWithin (h : s.hostWriteHbuf a b = .next t) : inputsWithin t := by
  unfold State.hostWriteHbuf at h
  split at h
  · rename_i ha
    cases h
    exact hostAct_inputsWithin hs (writeHbuf_inputsWithin (bs := [b]) hs ha)
  · cases h

theorem hostLoadMessage_inputsWithin (h : s.hostLoadMessage bytes = .next t) : inputsWithin t := by
  unfold State.hostLoadMessage at h
  split at h
  · rename_i hle
    cases h
    exact hostAct_inputsWithin hs (writeIbuf_inputsWithin hs (by rwa [Nat.zero_add]))
  · cases h

theorem hostLoadHostname_inputsWithin (h : s.hostLoadHostname bytes = .next t) : inputsWithin t := by
  unfold State.hostLoadHostname at h
  split at h
  · rename_i hle
    cases h
    exact hostAct_inputsWithin hs (writeHbuf_inputsWithin hs (by rw [Nat.zero_add]; exact hle.1))
  · cases h

end host

/-- Settles O60: the bounds are checked first, and what is stored lies below them. -/
theorem theHostStaysWithinTheBuffers : Obligations.TheHostStaysWithinTheBuffers := by
  intro s a b bytes
  refine ⟨fun h => if_neg (Nat.not_lt.mpr h), fun h => if_neg (Nat.not_lt.mpr h), State.hostLoadMessage_tooLong s bytes,
    State.hostLoadHostname_tooLong s bytes, fun hi hh hw o ho t h => ?_⟩
  have hs : inputsWithin s := ⟨hi, hh, hw⟩
  simp only [List.mem_cons, List.not_mem_nil, or_false] at ho
  rcases ho with rfl | rfl | rfl | rfl
  · exact hostWriteIbuf_inputsWithin hs h
  · exact hostWriteHbuf_inputsWithin hs h
  · exact hostLoadMessage_inputsWithin hs h
  · exact hostLoadHostname_inputsWithin hs h

end Sys2Proof.Machine
end

section
/-! SUPPORT. The buffers (R26, R27, R28, R45): what the rows and the acts of the host store in them, and what they leave. -/

namespace Sys2Proof.Machine

/-! ### What the rows store -/

/-- R27: PACK16, NAMEENC and ENCQ store the bytes a function delivers, at most 271 of them. -/
theorem storingRow_eq_finish {i : Instr} (hi : i ∈ ([.pack16, .nameenc, .encq] : List Instr)) (s : State) :
    ∃ r : Run (List Byte), exec i s = finish r (fun out s => s.putOutput out) s ∧
      ∀ bs, r = .ok bs → bs.length ≤ 271 := by
  simp only [List.mem_cons, List.not_mem_nil, or_false] at hi
  rcases hi with rfl | rfl | rfl
  · refine ⟨_, exec_pack16 s, fun bs h => ?_⟩
    obtain ⟨v, -, hv⟩ := bind_eq_ok.mp h
    cases hv
    rw [be16_length]
    omega
  · refine ⟨_, exec_nameenc s, fun bs h => ?_⟩
    obtain ⟨name, -, hn⟩ := bind_eq_ok.mp h
    obtain ⟨-, -, hle⟩ := nameEncode_ok.mp hn
    omega
  · refine ⟨_, exec_encq s, fun bs h => ?_⟩
    obtain ⟨name, -, h⟩ := bind_eq_ok.mp h
    obtain ⟨type, -, h⟩ := bind_eq_ok.mp h
    obtain ⟨id, -, h⟩ := bind_eq_ok.mp h
    exact encodeQuery_length h

/-- The rows whose outputs are `OBUF` and `OLEN` are PACK16, NAMEENC and ENCQ (R30). -/
theorem storingRow_of_outputGroup {i : Instr} (h : outputGroup i = .output) :
    i ∈ ([.pack16, .nameenc, .encq] : List Instr) := by
  cases i with
  | pack16 | nameenc | encq => simp
  | _ => cases h

/-- Where the group holds neither `OBUF` nor `OLEN`, both are as they were. -/
theorem onlyOutputsChanged_output {g : OutputGroup} {s t : State} (h : onlyOutputsChanged g s t) (hg : g ≠ .output) :
    t.obuf = s.obuf ∧ t.olen = s.olen := by
  have hg : g ∉ ([.output] : List OutputGroup) := by simpa using hg
  rw [show t = _ from h]
  exact ⟨takeOutputs_obuf_of hg, takeOutputs_olen_of hg⟩

/-- R27, R180: after success `OBUF` holds a value exactly below `OLEN`, after an error neither holds any. -/
theorem finish_putOutput_next {r : Run (List Byte)} {s t : State}
    (h : finish r (fun out s => s.putOutput out) s = .next t) (hr : ∀ bs, r = .ok bs → bs.length ≤ 271) :
    (t.err = 0 → ∃ n : Half, t.olen = some n ∧ n.toNat ≤ 271 ∧ ∀ a, t.obuf.read a ≠ none ↔ a < n.toNat) ∧
      (t.err ≠ 0 → t.olen = none ∧ ∀ a, t.obuf.read a = none) := by
  rcases finish_next.mp h with ⟨bs, hbs, rfl⟩ | ⟨e, -, rfl⟩
  · refine ⟨fun _ => ?_, fun herr => absurd rfl herr⟩
    obtain ⟨-, hsome, -⟩ := outputLegal_putOutput (u := s) (out := some bs) (by simpa using hr bs hbs)
    exact ⟨_, rfl, hsome _ rfl⟩
  · exact ⟨fun herr => absurd herr (errorCode_ne_zero e), fun _ => ⟨rfl, Memory.read_nil⟩⟩

/-- Settles O10: the frame every row keeps covers the inputs and the rows that store nothing; the three that store end by
writing a whole result or none. -/
theorem inputBuffersAreNeverWrittenAndOutputIsWhole : Obligations.InputBuffersAreNeverWrittenAndOutputIsWhole := by
  intro i s t h
  have hframe := (exec_keepsToDeclared i).frame s t h
  refine ⟨?_, fun hi => ?_, fun hi => ?_⟩
  · obtain ⟨hibuf, hhbuf, hregs⟩ := onlyOutputsChanged_inputs hframe
    exact ⟨fun a => by rw [hibuf], fun a => by rw [hhbuf], hregs⟩
  · obtain ⟨hobuf, holen⟩ := onlyOutputsChanged_output hframe (mt storingRow_of_outputGroup hi)
    exact ⟨fun a => by rw [hobuf], holen⟩
  · obtain ⟨r, hrow, hr⟩ := storingRow_eq_finish hi s
    exact finish_putOutput_next (hrow.symm.trans h) hr

/-! ### What the host stores -/

/-- What a buffer holds after one write: the byte written at its address, the rest as before. -/
theorem Memory.read_write (m : Memory) (a : Nat) (b : Byte) (d : Nat) :
    (m.write a b).read d = if d = a then some b else m.read d := by
  split
  · subst d
    exact Memory.read_write_same
  · exact Memory.read_write_other ‹_›

/-- What a buffer holds after a load from address 0. -/
theorem Memory.read_writeFrom_zero (m : Memory) (bs : List Byte) (d : Nat) :
    (m.writeFrom 0 bs).read d = if d < bs.length then bs[d]? else m.read d := by
  simp [Memory.read_writeFrom]

section host
variable {s : State} {a : Nat} {b : Byte} {bytes : List Byte}

/-! Each act of the host on a buffer, where it fits, is a `hostAct`. -/

theorem State.hostWriteIbuf_fits (h : a < 65527) :
    s.hostWriteIbuf a b = .next (s.hostAct fun s => { s with ibuf := Memory.write s.ibuf a b }) := if_pos h

theorem State.hostWriteHbuf_fits (h : a < Config.hmax) :
    s.hostWriteHbuf a b = .next (s.hostAct fun s => { s with hbuf := Memory.write s.hbuf a b }) := if_pos h

theorem State.hostLoadMessage_fits (h : bytes.length ≤ 65527) :
    s.hostLoadMessage bytes =
      .next (s.hostAct fun s => { s with ibuf := s.ibuf.writeFrom 0 bytes, ilen := BitVec.ofNat 16 bytes.length }) :=
  if_pos h

theorem State.hostLoadHostname_fits (h : bytes.length ≤ Config.hmax) (hc : bytes.length < 65536) :
    s.hostLoadHostname bytes =
      .next (s.hostAct fun s => { s with hbuf := s.hbuf.writeFrom 0 bytes, hlen := BitVec.ofNat 16 bytes.length }) :=
  if_pos ⟨h, hc⟩

theorem State.hostWriteIbuf_idle (hi : s.req = .idle) (h : a < 65527) :
    s.hostWriteIbuf a b = .next { s with ibuf := s.ibuf.write a b } := by
  rw [State.hostWriteIbuf_fits h, State.hostAct_idle hi]

theorem State.hostWriteHbuf_idle (hi : s.req = .idle) (h : a < Config.hmax) :
    s.hostWriteHbuf a b = .next { s with hbuf := s.hbuf.write a b } := by
  rw [State.hostWriteHbuf_fits h, State.hostAct_idle hi]

end host

/-- Settles O59: every act of the host is a `hostAct`, which between commands has its effect and otherwise breaks the run. -/
theorem hostActsDuringACommandHaveNoMeaning : Obligations.HostActsDuringACommandHaveNoMeaning := by
  intro s v c b a g bytes
  refine ⟨rfl, fun hi => ?_, fun hb => ?_⟩
  · refine ⟨State.hostReadOutput_idle hi, State.hostWriteCmd_idle c hi, State.hostWriteIlen_idle v hi,
      State.hostWriteHlen_idle v hi, State.hostWriteCur_idle v hi, State.hostWriteTxid_idle v hi,
      State.hostWriteArg_idle v hi, State.hostWriteHeader_idle g hi, fun ha => ?_, fun ha => ?_, fun hl => ?_,
      fun hl hc => ?_⟩
    · exact ⟨_, State.hostWriteIbuf_idle hi ha, Memory.read_write s.ibuf a b⟩
    · exact ⟨_, State.hostWriteHbuf_idle hi ha, Memory.read_write s.hbuf a b⟩
    · exact ⟨_, _, State.hostLoadMessage_idle bytes hi hl, Nat.mod_eq_of_lt (by omega),
        Memory.read_writeFrom_zero s.ibuf bytes⟩
    · exact ⟨_, _, State.hostLoadHostname_idle bytes hi hl hc, Nat.mod_eq_of_lt hc,
        Memory.read_writeFrom_zero s.hbuf bytes⟩
  · refine ⟨fun t ht => ?_, fun ha => ⟨_, State.hostWriteIbuf_fits ha, step_hostAct_busy hb⟩,
      fun ha => ⟨_, State.hostWriteHbuf_fits ha, step_hostAct_busy hb⟩,
      fun hl => ⟨_, State.hostLoadMessage_fits hl, step_hostAct_busy hb⟩,
      fun hl hc => ⟨_, State.hostLoadHostname_fits hl hc, step_hostAct_busy hb⟩⟩
    simp only [List.mem_cons, List.not_mem_nil, or_false] at ht
    rcases ht with rfl | rfl | rfl | rfl | rfl | rfl | rfl | rfl <;> exact step_hostAct_busy hb

end Sys2Proof.Machine
end

section
/-! SUPPORT. The command register (R18, R80), and the wire patterns presented by themselves (R64 to R69). -/

namespace Sys2Proof.Machine

variable {s : State}

/-! ### Writing `CMD` (R11, R80) -/

/-- Between commands the step after a write of `CMD` performs the row of the code written. -/
theorem step_hostWriteCmd (c : BitVec 4) (hidle : s.req = .idle) :
    step (s.hostWriteCmd c) = exec (decodeCmd c) { s with cmd := c, req := .idle } := by
  rw [State.hostWriteCmd_idle c hidle]
  exact step_command _ rfl

/-- The thirteen assigned codes of R80. -/
theorem decodeCmd_assigned : ∀ p ∈ ([(0x1, .pack16), (0x2, .unpack16), (0x3, .unpack32), (0x4, .nameenc),
    (0x5, .namedec), (0x6, .hdrenc), (0x7, .hdrdec), (0x8, .rcdec), (0x9, .rtdec), (0xA, .qparse), (0xB, .rrparse),
    (0xC, .encq), (0xD, .decmsg)] : List (BitVec 4 × Instr)), decodeCmd p.1 = p.2 := by decide

/-- R80: the three unassigned codes are refused by name. -/
theorem exec_unassigned {c : BitVec 4} (hc : c ∈ ([0x0, 0xE, 0xF] : List (BitVec 4))) (s : State) :
    exec (decodeCmd c) s = .refused (.unassignedCommand c) := by
  simp only [List.mem_cons, List.not_mem_nil, or_false] at hc
  rcases hc with rfl | rfl | rfl
  · exact exec_cmdUnassigned0 s
  · exact exec_cmdUnassignedE s
  · exact exec_cmdUnassignedF s

/-- Settles O5: the step performs what `decodeCmd` reads from the code written. -/
theorem writingCmdStartsTheCommand : Obligations.WritingCmdStartsTheCommand := by
  refine ⟨fun s i c hidle hi => ?_, fun s c hidle hc => ⟨?_, State.hostWriteCmd_idle c hidle⟩,
    fun s => ⟨exec_cmdUnassigned0 s, exec_cmdUnassignedE s, exec_cmdUnassignedF s⟩⟩
  · rw [step_hostWriteCmd c hidle, decodeCmd_assigned (c, i) hi]
  · rw [step_hostWriteCmd c hidle, exec_unassigned hc]

/-! ### Length octets (R64, R103) -/

section octets
variable {c : Half} (hl : s.ilen.toNat ≤ 65527) (hc : s.cur = some c)
include hl hc

theorem lengthOctet_of_ok {n : Byte} {lab : Option Label} {d : Nat}
    (h : lenTurn ⟨s.ibuf, s.ilen.toNat⟩ n c.toNat = .ok (lab, d)) :
    lengthOctet n s = .next { s with
      name := some lab.toList, cur := some (toCur d), err := 0, einfo0 := none, einfo1 := none } := by
  rw [lengthOctet_eq, atCursor_eq hl hc, h]
  rfl

theorem lengthOctet_of_raised {n : Byte} {e : CodecError}
    (h : lenTurn ⟨s.ibuf, s.ilen.toNat⟩ n c.toNat = .error (.raised e)) :
    lengthOctet n s = .next { s with
      name := none, cur := none, err := errorCode e, einfo0 := errorInfo0 e, einfo1 := errorInfo1 e } := by
  rw [lengthOctet_eq, atCursor_eq hl hc, h]
  rfl

/-- R64, decision D6: an octet from 64 on fails, whatever lies behind it. -/
theorem lengthOctet_reserved {n : Byte} (hn : 64 ≤ n.toNat) :
    lengthOctet n s = .next { s with name := none, cur := none, err := 4, einfo0 := none, einfo1 := none } :=
  lengthOctet_of_raised hl hc (lenTurn_invalid _ n _ hn)

end octets

/-- A label's octet is its length. -/
theorem labelOctet_toNat (n : BitVec 6) : (0b00#2 ++ n : Byte).toNat = n.toNat := by
  rw [BitVec.toNat_append]
  simp

theorem labelOctet_range {n : BitVec 6} (h : n ≠ 0) :
    1 ≤ (0b00#2 ++ n : Byte).toNat ∧ (0b00#2 ++ n : Byte).toNat ≤ 63 := by
  have h0 : n.toNat ≠ 0 := fun h0 => h (BitVec.eq_of_toNat_eq h0)
  rw [labelOctet_toNat]
  omega

/-- R64: the octets of the three reserved classes are 64 and above. -/
theorem reservedOctet_range : ∀ x : BitVec 6,
    64 ≤ (0b01#2 ++ x : Byte).toNat ∧ 64 ≤ (0b10#2 ++ x : Byte).toNat ∧ 64 ≤ (0b11#2 ++ x : Byte).toNat := by
  decide

/-- Settles O48: END takes no byte; LABEL takes its n bytes, or raises where they do not fit. -/
theorem lengthOctetsEndOrConsumeALabel : Obligations.LengthOctetsEndOrConsumeALabel := by
  refine fun s c hl hc => ⟨?_, fun n hn => ⟨fun l hlen hb hle => ?_, fun hlt => ?_⟩⟩
  · rw [exec_lenEnd, lengthOctet_of_ok hl hc (lenTurn_end _ _), toCur, BitVec.ofNat_toNat, BitVec.setWidth_eq, ← hc]
    rfl
  · have hrd : rdbytes ⟨s.ibuf, s.ilen.toNat⟩ c.toNat n.toNat = .ok (l, c.toNat + n.toNat) :=
      rdbytes_ok.mpr ⟨hle, hlen, hb, rfl⟩
    have hturn := lenTurn_label ⟨s.ibuf, s.ilen.toNat⟩ _ c.toNat (labelOctet_range hn)
    rw [labelOctet_toNat, hrd] at hturn
    rw [exec_lenLabel, lengthOctet_of_ok hl hc hturn, toCur_add, BitVec.ofNat_toNat]
    rfl
  · have hraise : lenTurn ⟨s.ibuf, s.ilen.toNat⟩ (0b00#2 ++ n) c.toNat = .error (.raised .unexpectedEndOfInput) :=
      lenTurn_raised.mpr (.inl ⟨rfl, labelOctet_range hn, by rwa [labelOctet_toNat]⟩)
    rw [exec_lenLabel, lengthOctet_of_raised hl hc hraise]
    rfl

/-- Settles O49: the octets of all three classes are reserved. -/
theorem reservedLengthOctetsRaise : Obligations.ReservedLengthOctetsRaise := by
  intro s x hl hcur i hi
  obtain ⟨c, hc⟩ := Option.ne_none_iff_exists'.mp hcur
  obtain ⟨h01, h10, h11⟩ := reservedOctet_range x
  simp only [List.mem_cons, List.not_mem_nil, or_false] at hi
  rcases hi with rfl | rfl | rfl
  · exact (exec_lenRsv01 s x).trans (lengthOctet_reserved hl hc h01)
  · exact (exec_lenRsv10 s x).trans (lengthOctet_reserved hl hc h10)
  · exact (exec_lenPtr s x).trans (lengthOctet_reserved hl hc h11)

/-! ### Fields taken raw (R65, R66, R69) -/

/-- R115: a query asks for recursion and every other field is 0. -/
theorem hdrDecode_queryWord : hdrDecode queryWord = ⟨0, 0, 0, 0, 1, 0, 0, 0⟩ := by decide

/-- Settles O50: the flag word's fields go to `HF` as they stand. -/
theorem flagWordsSplitIntoTheHeaderFields : Obligations.FlagWordsSplitIntoTheHeaderFields := by
  refine ⟨fun s q o a t d r z c => ?_, fun s => ?_, by decide, by decide⟩
  · rw [exec_flags, flagPattern_eq]
    rfl
  · rw [exec_flagsQuery, hdrDecode_queryWord, flagPattern_eq]
    rfl

/-- Settles O51: no opcode is checked. -/
theorem opcodesAreReturnedRaw : Obligations.OpcodesAreReturnedRaw := by
  refine fun s => ⟨?_, fun o => ?_⟩
  · rw [exec_opcodeStandardQuery, opcodePattern_eq]
    rfl
  · rw [exec_opcodeUnnamed, opcodePattern_eq]
    rfl

/-- Settles O54: no class is checked. -/
theorem classesAreStoredRaw : Obligations.ClassesAreStoredRaw := by
  refine fun s => ⟨?_, fun c => ?_⟩
  · rw [exec_classIn, classPattern_eq]
    rfl
  · rw [exec_classOther, classPattern_eq]
    rfl

/-! ### Fields that are checked (R67, R68) -/

section checked
variable (s : State)

/-- R116: a response code up to 5 is its own value. -/
theorem rcodePattern_known {c : BitVec 4} (h : c.toNat ≤ 5) :
    rcodePattern c s = .next { s with val := some (c.setWidth 32), err := 0, einfo0 := none, einfo1 := none } := by
  have hc : rcodeDecode (c.setWidth 16) = .ok c := rcodeDecode_ok.mpr ⟨rfl, by simpa using by omega⟩
  rw [rcodePattern_eq, hc]
  rfl

theorem rcodePattern_unknown {c : BitVec 4} (h : 6 ≤ c.toNat) :
    rcodePattern c s = .next { s with val := none, err := 6, einfo0 := some (c.setWidth 16), einfo1 := none } := by
  have hc : rcodeDecode (c.setWidth 16) = .error (.raised (.unknownResponseCode (c.setWidth 16))) :=
    rcodeDecode_error.mpr ⟨rfl, by simpa using by omega⟩
  rw [rcodePattern_eq, hc]
  rfl

/-- R118: a known record type is its own value. -/
theorem rtypePattern_known {t : Half} (h : knownType t) :
    rtypePattern t s = .next { s with val := some (t.setWidth 32), err := 0, einfo0 := none, einfo1 := none } := by
  rw [rtypePattern_eq, rtypeDecode_ok.mpr ⟨rfl, h⟩]
  rfl

theorem rtypePattern_unknown {t : Half} (h : ¬ knownType t) :
    rtypePattern t s = .next { s with val := none, err := 5, einfo0 := some t, einfo1 := none } := by
  rw [rtypePattern_eq, rtypeDecode_error.mpr ⟨rfl, h⟩]
  rfl

end checked

/-- Settles O52: the six named rows hold the codes up to 5. -/
theorem responseCodeRowsAreValidated : Obligations.ResponseCodeRowsAreValidated := by
  refine fun s => ⟨fun p hp => ?_, fun c hc => (exec_rcodeUnknown s c).trans (rcodePattern_unknown s hc)⟩
  simp only [List.mem_cons, List.not_mem_nil, or_false] at hp
  rcases hp with rfl | rfl | rfl | rfl | rfl | rfl
  · exact (exec_rcodeNoError s).trans (rcodePattern_known s (by decide))
  · exact (exec_rcodeFormatError s).trans (rcodePattern_known s (by decide))
  · exact (exec_rcodeServerFailure s).trans (rcodePattern_known s (by decide))
  · exact (exec_rcodeNameError s).trans (rcodePattern_known s (by decide))
  · exact (exec_rcodeNotImplemented s).trans (rcodePattern_known s (by decide))
  · exact (exec_rcodeRefused s).trans (rcodePattern_known s (by decide))

/-- Settles O53: the eight named rows hold the known types. -/
theorem recordTypeRowsAreValidated : Obligations.RecordTypeRowsAreValidated := by
  refine fun s => ⟨fun p hp => ?_, fun v hv => (exec_rtypeUnknown s v).trans (rtypePattern_unknown s hv)⟩
  simp only [List.mem_cons, List.not_mem_nil, or_false] at hp
  rcases hp with rfl | rfl | rfl | rfl | rfl | rfl | rfl | rfl
  · exact (exec_rtypeA s).trans (rtypePattern_known s (by simp [knownType]))
  · exact (exec_rtypeNs s).trans (rtypePattern_known s (by simp [knownType]))
  · exact (exec_rtypeCname s).trans (rtypePattern_known s (by simp [knownType]))
  · exact (exec_rtypeSoa s).trans (rtypePattern_known s (by simp [knownType]))
  · exact (exec_rtypeWks s).trans (rtypePattern_known s (by simp [knownType]))
  · exact (exec_rtypePtr s).trans (rtypePattern_known s (by simp [knownType]))
  · exact (exec_rtypeMx s).trans (rtypePattern_known s (by simp [knownType]))
  · exact (exec_rtypeTxt s).trans (rtypePattern_known s (by simp [knownType]))

end Sys2Proof.Machine
end

section
/-! SUPPORT. The leaf commands of the parsers (R83): NAMEDEC, UNPACK16, RTDEC and UNPACK32 issued one after another run the
functions QPARSE and RRPARSE are made of (R130, R132), each from the cursor the one before it left. -/

namespace Sys2Proof.Machine

variable {α β : Type} {inp : Input} {c d : Nat} {s t u : State}

/-! ### Between two leaf commands -/

/-- No command waits, and a cursor command would read `inp` from the cursor `c`. -/
structure ReadsAt (inp : Input) (c : Nat) (u : State) : Prop where
  idle : u.req = .idle
  input : inputOf u = .ok inp
  cursor : cursorOf u = .ok c

theorem cursorOf_ok : cursorOf u = .ok c ↔ ∃ k, u.cur = some k ∧ k.toNat = c := by
  simp only [cursorOf, bind_eq_ok, readHeld_eq_ok, pure_eq_ok, Except.ok.injEq]

theorem ReadsAt.atCursor_eq {f : Input → Nat → Run α} (h : ReadsAt inp c u) : atCursor f u = f inp c := by
  rw [atCursor, h.input, ok_bind, h.cursor, ok_bind]

theorem ReadsAt.cur_eq (h : ReadsAt inp c u) : u.cur = some (toCur c) := by
  obtain ⟨k, hk, rfl⟩ := cursorOf_ok.mp h.cursor
  rw [hk, toCur, BitVec.ofNat_toNat, BitVec.setWidth_eq]

theorem ReadsAt.toNat_eq {k : Half} (h : ReadsAt inp c u) (hk : u.cur = some k) : k.toNat = c := by
  obtain ⟨k', hk', rfl⟩ := cursorOf_ok.mp h.cursor
  rw [Option.some.inj (hk.symm.trans hk')]

theorem ReadsAt.input_eq (h : ReadsAt inp c u) : inp.buf = u.ibuf ∧ inp.len = u.ilen.toNat := by
  obtain ⟨-, rfl⟩ := inputOf_ok.mp h.input
  exact ⟨rfl, rfl⟩

/-- The host's write of `ARG` between two commands leaves the input and the cursor alone. -/
theorem ReadsAt.hostWriteArg (v : Half) (h : ReadsAt inp c u) : ReadsAt inp c (u.hostWriteArg v) := by
  rw [State.hostWriteArg_idle v h.idle]
  exact ⟨h.idle, h.input, h.cursor⟩

/-- Every row leaves the input and the request alone (R30), so only the cursor has to be looked at again. -/
theorem ReadsAt.after {i : Instr} (h : ReadsAt inp c u) (he : exec i u = .next t) (hc : cursorOf t = .ok d) :
    ReadsAt inp d t := by
  obtain ⟨hibuf, -, hilen, -, -, -, -, hreq⟩ := onlyOutputsChanged_inputs ((exec_keepsToDeclared i).frame u t he)
  refine ⟨hreq.trans h.idle, ?_, hc⟩
  rw [← h.input, inputOf, inputOf, hibuf, hilen]

/-- A cursor a function has moved to lies within the input (R14), so `CUR` holds it whole. -/
theorem ReadsAt.cursor_toCur (h : ReadsAt inp c u) (hd : d ≤ inp.len) (ht : t.cur = some (toCur d)) :
    cursorOf t = .ok d := by
  obtain ⟨hl, rfl⟩ := inputOf_ok.mp h.input
  exact cursorOf_ok.mpr ⟨_, ht, toCur_toNat (by have : d ≤ u.ilen.toNat := hd; omega)⟩

/-- A cursor command that has reached a next state had its operands. -/
theorem readsAt_of_next {f : Input → Nat → Run α} {put : Held α → State → State} (hidle : s.req = .idle)
    (h : finish (atCursor f s) put s = .next t) : ∃ inp c, ReadsAt inp c s := by
  obtain ⟨hl, k, hk, -⟩ := finish_atCursor_next h
  exact ⟨_, _, hidle, inputOf_eq hl, cursorOf_ok.mpr ⟨k, hk, rfl⟩⟩

/-- A cursor command that has succeeded has run its function to an end. -/
theorem cursorCommand_succeeded {f : Input → Nat → Run α} {put : Held α → State → State} (hidle : s.req = .idle)
    (h : finish (atCursor f s) put s = .next t) (herr : t.err = 0) :
    ∃ inp c v, ReadsAt inp c s ∧ f inp c = .ok v ∧ t = (put (some v) s).succeed := by
  obtain ⟨inp, c, hs⟩ := readsAt_of_next hidle h
  rw [hs.atCursor_eq] at h
  rcases finish_next.mp h with ⟨v, hv, ht⟩ | ⟨e, -, rfl⟩
  · exact ⟨inp, c, v, hs, hv, ht⟩
  · exact absurd herr (errorCode_ne_zero e)

/-! ### What a leaf command leaves -/

/-- A leaf command ends as its function does: with a value in its output `out`, the input as it was and `CUR` where the
function ended, or with the function's error and no value, or refused. -/
def LeafOutcome (inp : Input) (out : State → Held β) (g : α → β) (r : Run (α × Nat))
    (o : Host.Outcome State Fault Refusal) : Prop :=
  match r with
  | .ok (v, d) => ∃ t, o = .next t ∧ t.err = 0 ∧ out t = some (g v) ∧ ReadsAt inp d t
  | .error (.raised e) => ∃ t, o = .next t ∧ reports t (some e) ∧ out t = none
  | .error (.refused why) => o = .refused why

section outcome
variable {out : State → Held β} {g : α → β} {r : Run (α × Nat)} {o : Host.Outcome State Fault Refusal}

theorem LeafOutcome.of_ok {v : α} (h : LeafOutcome inp out g r o) (hr : r = .ok (v, d)) :
    ∃ t, o = .next t ∧ t.err = 0 ∧ out t = some (g v) ∧ ReadsAt inp d t := by
  subst hr
  exact h

variable (h : LeafOutcome inp out g r o) (ho : o = .next t)
include h ho

/-- All a leaf command that reached a next state can have done. -/
theorem LeafOutcome.cases :
    (∃ v d, r = .ok (v, d) ∧ t.err = 0 ∧ out t = some (g v) ∧ ReadsAt inp d t) ∨
      ∃ e, r = .error (.raised e) ∧ reports t (some e) ∧ out t = none := by
  subst ho
  rcases r with (e | why) | ⟨v, d⟩
  · obtain ⟨t, ⟨⟩, ht⟩ := h
    exact .inr ⟨e, rfl, ht⟩
  · cases h
  · obtain ⟨t, ⟨⟩, ht⟩ := h
    exact .inl ⟨v, d, rfl, ht⟩

theorem LeafOutcome.ok_of_err (he : t.err = 0) : ∃ v d, r = .ok (v, d) ∧ out t = some (g v) ∧ ReadsAt inp d t := by
  rcases h.cases ho with ⟨v, d, hr, -, hv, ht⟩ | ⟨e, -, hrep, -⟩
  · exact ⟨v, d, hr, hv, ht⟩
  · exact absurd (hrep.1.symm.trans he) (errorCode_ne_zero e)

/-- A leaf command that shows a value has succeeded. -/
theorem LeafOutcome.ok_of_out {b : β} (hb : out t = some b) : ∃ v d, r = .ok (v, d) ∧ g v = b ∧ ReadsAt inp d t := by
  rcases h.cases ho with ⟨v, d, hr, -, hv, ht⟩ | ⟨e, -, -, hnone⟩
  · exact ⟨v, d, hr, Option.some.inj (hv.symm.trans hb), ht⟩
  · cases hnone.symm.trans hb

theorem LeafOutcome.raised_of_err (he : t.err ≠ 0) : ∃ e, r = .error (.raised e) ∧ reports t (some e) := by
  rcases h.cases ho with ⟨v, d, -, h0, -⟩ | ⟨e, hr, hrep, -⟩
  · exact absurd h0 he
  · exact ⟨e, hr, hrep⟩

end outcome

/-- A row that runs a function from `CUR` and writes its value and its cursor is a leaf command. -/
theorem leafOutcome_atCursor {i : Instr} {f : Input → Nat → Run (α × Nat)} {put : Held (α × Nat) → State → State}
    {out : State → Held β} {g : α → β} (hi : exec i u = finish (atCursor f u) put u) (h : ReadsAt inp c u)
    (hf : MovesForward f) (hcur : ∀ v d, (put (some (v, d)) u).succeed.cur = some (toCur d))
    (hok : ∀ v d, out (put (some (v, d)) u).succeed = some (g v)) (herr : ∀ e, out ((put none u).takeError e) = none) :
    LeafOutcome inp out g (f inp c) (exec i u) := by
  rw [h.atCursor_eq] at hi
  rcases hr : f inp c with (e | why) | ⟨v, d⟩ <;> rw [hr] at hi
  · exact ⟨_, hi, ⟨rfl, rfl, rfl⟩, herr e⟩
  · exact hi
  · have hd := (hf inp c v d hr).2
    exact ⟨_, hi, rfl, hok v d, h.after hi (h.cursor_toCur hd (hcur v d))⟩

theorem namedec_leaf (h : ReadsAt inp c u) :
    LeafOutcome inp State.name id (nameDecode inp c) (exec .namedec u) :=
  leafOutcome_atCursor (exec_namedec u) h nameDecode_movesForward (fun _ _ => rfl) (fun _ _ => rfl) fun _ => rfl

theorem unpack16_leaf (h : ReadsAt inp c u) :
    LeafOutcome inp State.val (BitVec.setWidth 32) (rd16 inp c) (exec .unpack16 u) :=
  leafOutcome_atCursor (exec_unpack16 u) h rd16_movesForward (fun _ _ => rfl) (fun _ _ => rfl) fun _ => rfl

theorem unpack32_leaf (h : ReadsAt inp c u) : LeafOutcome inp State.val id (rd32 inp c) (exec .unpack32 u) :=
  leafOutcome_atCursor (exec_unpack32 u) h rd32_movesForward (fun _ _ => rfl) (fun _ _ => rfl) fun _ => rfl

/-- The check of a type as a field of its own, which takes no byte. -/
def typeField (v : Half) (cur : Nat) : Run (Half × Nat) := rtypeDecode v >>= fun t => .ok (t, cur)

theorem typeField_ok {v w : Half} : typeField v c = .ok (w, d) ↔ w = v ∧ knownType v ∧ d = c := by
  simp only [typeField, bind_eq_ok, rtypeDecode_ok, Except.ok.injEq, Prod.mk.injEq]
  constructor
  · rintro ⟨_, ⟨rfl, hk⟩, rfl, rfl⟩
    exact ⟨rfl, hk, rfl⟩
  · rintro ⟨rfl, hk, rfl⟩
    exact ⟨_, ⟨rfl, hk⟩, rfl, rfl⟩

theorem exec_rtdec_hostWriteArg (v : Half) (hidle : u.req = .idle) :
    exec .rtdec (u.hostWriteArg v) =
      finish (rtypeDecode v) (fun (t : Held Half) s => s.putVal (t.map (·.setWidth 32))) (u.hostWriteArg v) := by
  rw [State.hostWriteArg_idle v hidle]
  rfl

theorem rtdec_leaf (v : Half) (h : ReadsAt inp c u) :
    LeafOutcome inp State.val (BitVec.setWidth 32) (typeField v c) (exec .rtdec (u.hostWriteArg v)) := by
  have hi := exec_rtdec_hostWriteArg v h.idle
  unfold typeField
  rcases hr : rtypeDecode v with (e | why) | w <;> rw [hr] at hi
  · exact ⟨_, hi, ⟨rfl, rfl, rfl⟩, rfl⟩
  · exact hi
  · exact ⟨_, hi, rfl, rfl, (h.hostWriteArg v).after hi (h.hostWriteArg v).cursor⟩

/-! ### The parsers, leaf by leaf -/

/-- R130. -/
theorem questionParse_eq (inp : Input) (cur : Nat) :
    questionParse inp cur =
      (nameDecode inp cur >>= fun n => rd16 inp n.2 >>= fun t => typeField t.1 t.2 >>= fun y => rd16 inp y.2 >>= fun k =>
        .ok (⟨n.1, y.1, k.1⟩, k.2)) := by
  simp only [typeField, bind_assoc, ok_bind]
  rfl

/-- R132: a record begins as a question does. -/
theorem rrParse_eq (inp : Input) (cur : Nat) :
    rrParse inp cur =
      (questionParse inp cur >>= fun q => rd32 inp q.2 >>= fun ttl => rd16 inp ttl.2 >>= fun n =>
        rdbytes inp n.2 n.1.toNat >>= fun b =>
          .ok (⟨q.1.name, q.1.qtype, q.1.qclass, ttl.1, n.1, b.1⟩, b.2)) := by
  simp only [questionParse, bind_assoc, pure_eq_ok, ok_bind]
  rfl

section parsers
variable {q : Question} {e : CodecError}

/-- A parser whose function raises an error reports it as a leaf command that raised the same does. -/
theorem failsAlike_of_raised {i : Instr} {f : Input → Nat → Run α} {put : Held α → State → State}
    (hi : exec i s = finish (atCursor f s) put s) (h : ReadsAt inp c s) (hf : f inp c = .error (.raised e))
    (hu : reports u (some e)) : failsAlike i s u := by
  obtain ⟨herr, hinfo0, hinfo1⟩ := hu
  rw [h.atCursor_eq, hf] at hi
  exact ⟨_, hi, errorCode_ne_zero e, herr.symm, hinfo0.symm, hinfo1.symm⟩

theorem rrparse_failsAlike (h : ReadsAt inp c s) (hr : rrParse inp c = .error (.raised e)) (hu : reports u (some e)) :
    failsAlike .rrparse s u := failsAlike_of_raised (exec_rrparse s) h hr hu

/-- Where the question does not parse neither parser succeeds. -/
theorem parsers_failAlike (h : ReadsAt inp c s) (hq : questionParse inp c = .error (.raised e))
    (hu : reports u (some e)) : failsAlike .qparse s u ∧ failsAlike .rrparse s u :=
  ⟨failsAlike_of_raised (exec_qparse s) h hq hu, rrparse_failsAlike h (by rw [rrParse_eq, hq, error_bind]) hu⟩

/-- The four leaf commands of a question that parses. -/
theorem questionLeaves_succeed (h : ReadsAt inp c s) (hq : questionParse inp c = .ok (q, d)) :
    ∃ s1 s2 s3 s4 : State,
      (exec .namedec s = .next s1 ∧ s1.err = 0 ∧ s1.name = some q.name) ∧
      (exec .unpack16 s1 = .next s2 ∧ s2.err = 0 ∧ s2.val = some (q.qtype.setWidth 32)) ∧
      (exec .rtdec (s2.hostWriteArg q.qtype) = .next s3 ∧ s3.err = 0 ∧ s3.val = some (q.qtype.setWidth 32)) ∧
      (exec .unpack16 s3 = .next s4 ∧ s4.err = 0 ∧ s4.val = some (q.qclass.setWidth 32)) ∧ ReadsAt inp d s4 := by
  simp only [questionParse_eq, bind_eq_ok, Prod.exists, Except.ok.injEq, Prod.mk.injEq] at hq
  obtain ⟨ls, d1, hn, ty, d2, ht, ty', d3, hy, cl, d4, hk, rfl, rfl⟩ := hq
  obtain ⟨rfl, -, rfl⟩ := typeField_ok.mp hy
  obtain ⟨s1, h1, e1, v1, r1⟩ := (namedec_leaf h).of_ok hn
  obtain ⟨s2, h2, e2, v2, r2⟩ := (unpack16_leaf r1).of_ok ht
  obtain ⟨s3, h3, e3, v3, r3⟩ := (rtdec_leaf _ r2).of_ok hy
  obtain ⟨s4, h4, e4, v4, r4⟩ := (unpack16_leaf r3).of_ok hk
  exact ⟨s1, s2, s3, s4, ⟨h1, e1, v1⟩, ⟨h2, e2, v2⟩, ⟨h3, e3, v3⟩, ⟨h4, e4, v4⟩, r4⟩

/-- The state a question that parses leaves (R131). -/
theorem qparse_of_ok (h : ReadsAt inp c s) (hq : questionParse inp c = .ok (q, d)) :
    exec .qparse s = .next ((s.putQuestion (some q)).putCur (some d)).succeed := by
  rw [exec_qparse, h.atCursor_eq, hq]
  rfl

/-- The state a record that parses leaves (R133). -/
theorem rrparse_of_ok {r : Record} (h : ReadsAt inp c s) (hr : rrParse inp c = .ok (r, d)) :
    exec .rrparse s = .next ((s.putRecords (some [r])).putCur (some d)).succeed := by
  rw [exec_rrparse, h.atCursor_eq, hr]
  rfl

/-- The state a record that raises an error leaves (R180). -/
theorem rrparse_of_raised (h : ReadsAt inp c s) (hr : rrParse inp c = .error (.raised e)) :
    exec .rrparse s = .next (((s.putRecords none).putCur none).takeError e) := by
  rw [exec_rrparse, h.atCursor_eq, hr]
  rfl

end parsers

/-- Settles O46: a parser that succeeds has run each of its leaf functions to an end, so each leaf command succeeds. -/
theorem successfulParsersRunTheirLeafCommands : Obligations.SuccessfulParsersRunTheirLeafCommands := by
  refine ⟨fun s t hidle h herr => ?_, fun s t hidle h herr => ?_⟩
  · obtain ⟨inp, c, ⟨q, d⟩, hs, hq, rfl⟩ := cursorCommand_succeeded hidle ((exec_qparse s).symm.trans h) herr
    obtain ⟨s1, s2, s3, s4, ⟨h1, e1, v1⟩, ⟨h2, e2, v2⟩, ⟨h3, e3, v3⟩, ⟨h4, e4, v4⟩, r4⟩ := questionLeaves_succeed hs hq
    exact ⟨s1, s2, s3, s4, q.qtype, q.qclass, h1, e1, v1, h2, e2, v2, rfl, h3, e3, v3, h4, e4, v4, rfl, r4.cur_eq⟩
  · obtain ⟨inp, c, ⟨r, d⟩, hs, hr, rfl⟩ := cursorCommand_succeeded hidle ((exec_rrparse s).symm.trans h) herr
    simp only [rrParse_eq, bind_eq_ok, Prod.exists, Except.ok.injEq, Prod.mk.injEq] at hr
    obtain ⟨q, d4, hq, ttl, d5, httl, n, d6, hn, rdata, d7, hb, rfl, rfl⟩ := hr
    obtain ⟨s1, s2, s3, s4, ⟨h1, e1, v1⟩, ⟨h2, e2, v2⟩, ⟨h3, e3, -⟩, ⟨h4, e4, v4⟩, r4⟩ := questionLeaves_succeed hs hq
    obtain ⟨s5, h5, e5, v5, r5⟩ := (unpack32_leaf r4).of_ok httl
    obtain ⟨s6, h6, e6, v6, r6⟩ := (unpack16_leaf r5).of_ok hn
    obtain ⟨-, hlen, hholds, rfl⟩ := rdbytes_ok.mp hb
    have hp : (toCur d6).toNat = d6 := r6.toNat_eq r6.cur_eq
    refine ⟨_, s1, s2, s3, s4, s5, s6, toCur d6, rfl, h1, e1, v1, h2, e2, v2, h3, e3, h4, e4, v4, h5, e5, v5, h6, e6, v6,
      r6.cur_eq, ?_, ?_⟩
    · rw [hp, ← hs.input_eq.1]
      exact hholds
    · rw [hp, hlen]
      rfl

/-- `VAL` shows which 16 bits were read. -/
theorem setWidth_half_inj {v w : Half} (h : v.setWidth 32 = w.setWidth 32) : v = w := by
  have := congrArg BitVec.toNat h
  simp only [BitVec.toNat_setWidth] at this
  exact BitVec.eq_of_toNat_eq (by omega)

/-- Settles O58: QPARSE and RRPARSE are their leaf functions in sequence, so the first leaf command that fails fails as they
do, and behind the last only the RDATA is left to read. -/
theorem leafCommandsMakeUpTheirParsers : Obligations.LeafCommandsMakeUpTheirParsers := by
  intro s s1 hidle h1
  obtain ⟨inp, c, hs⟩ := readsAt_of_next hidle ((exec_namedec s).symm.trans h1)
  refine ⟨fun he => ?_, fun s2 he1 h2 => ?_⟩
  · obtain ⟨e, hn, hrep⟩ := (namedec_leaf hs).raised_of_err h1 he
    exact parsers_failAlike hs (by simp only [questionParse_eq, hn, error_bind]) hrep
  obtain ⟨ls, d1, hn, hname, r1⟩ := (namedec_leaf hs).ok_of_err h1 he1
  refine ⟨fun he => ?_, fun ty s3 hty h3 => ?_⟩
  · obtain ⟨e, ht, hrep⟩ := (unpack16_leaf r1).raised_of_err h2 he
    exact parsers_failAlike hs (by simp only [questionParse_eq, hn, ht, ok_bind, error_bind]) hrep
  obtain ⟨_, d2, ht, hw, r2⟩ := (unpack16_leaf r1).ok_of_out h2 hty
  obtain rfl := setWidth_half_inj hw
  refine ⟨fun he => ?_, fun s4 he3 h4 => ?_⟩
  · obtain ⟨e, hy, hrep⟩ := (rtdec_leaf _ r2).raised_of_err h3 he
    exact parsers_failAlike hs (by simp only [questionParse_eq, hn, ht, hy, ok_bind, error_bind]) hrep
  obtain ⟨ty, d3, hy, -, r3⟩ := (rtdec_leaf _ r2).ok_of_err h3 he3
  obtain ⟨rfl, -⟩ := typeField_ok.mp hy
  refine ⟨fun he => ?_, fun cl hcl => ?_⟩
  · obtain ⟨e, hk, hrep⟩ := (unpack16_leaf r3).raised_of_err h4 he
    exact parsers_failAlike hs (by simp only [questionParse_eq, hn, ht, hy, hk, ok_bind, error_bind]) hrep
  obtain ⟨cl', d4, hk, hw, r4⟩ := (unpack16_leaf r3).ok_of_out h4 hcl
  obtain rfl := setWidth_half_inj hw
  have hq : questionParse inp c = .ok (⟨ls, ty, cl'⟩, d4) := by simp only [questionParse_eq, hn, ht, hy, hk, ok_bind]
  refine ⟨?_, fun s5 h5 => ⟨fun he => ?_, fun ttl s6 httl h6 => ?_⟩⟩
  · rw [qparse_of_ok hs hq, hname, r4.cur_eq]
    rfl
  · obtain ⟨e, hl, hrep⟩ := (unpack32_leaf r4).raised_of_err h5 he
    exact rrparse_failsAlike hs (by simp only [rrParse_eq, hq, hl, ok_bind, error_bind]) hrep
  obtain ⟨_, d5, hl, rfl, r5⟩ := (unpack32_leaf r4).ok_of_out h5 httl
  refine ⟨fun he => ?_, fun n p ls' hlen hp hls => ?_⟩
  · obtain ⟨e, hm, hrep⟩ := (unpack16_leaf r5).raised_of_err h6 he
    exact rrparse_failsAlike hs (by simp only [rrParse_eq, hq, hl, hm, ok_bind, error_bind]) hrep
  obtain ⟨_, d6, hm, hw, r6⟩ := (unpack16_leaf r5).ok_of_out h6 hlen
  obtain rfl := setWidth_half_inj hw
  obtain rfl := r6.toNat_eq hp
  obtain rfl : ls = ls' := Option.some.inj (hname.symm.trans hls)
  obtain ⟨hbuf, hilen⟩ := hs.input_eq
  have hr := rrParse_eq inp c
  simp only [hq, hl, hm, ok_bind] at hr
  refine ⟨fun rdata hlr hle hb => ?_, fun hlt => ?_⟩
  · rw [rdbytes_ok.mpr ⟨hilen ▸ hle, hlr, hbuf ▸ hb, rfl⟩] at hr
    rw [rrparse_of_ok hs hr, State.putCur, Option.map_some, toCur_add, BitVec.ofNat_toNat, BitVec.setWidth_eq]
    rfl
  · rw [rdbytes_raised.mpr ⟨rfl, hilen ▸ hlt⟩] at hr
    rw [rrparse_of_raised hs hr]
    rfl

end Sys2Proof.Machine
end

section
/-! SUPPORT. The integer commands (R90 to R96): PACK16 of a held `ARG`, UNPACK16 and UNPACK32 of a field at the cursor. -/

namespace Sys2Proof.Machine

/-! ### Pack and unpack as bijections (R96) -/

/-- The bytes of a 32-bit value are `be32` of it, so no other four bytes have that value. -/
theorem unbe32_inj {b0 b1 b2 b3 c0 c1 c2 c3 : Byte} (h : unbe32 b0 b1 b2 b3 = unbe32 c0 c1 c2 c3) :
    b0 = c0 ∧ b1 = c1 ∧ b2 = c2 ∧ b3 = c3 := by
  have hbytes : [b0, b1, b2, b3] = [c0, c1, c2, c3] := by rw [← be32_unbe32, h, be32_unbe32]
  simpa using hbytes

/-- Settles O19: `be16` and `unbe16` undo each other, and so do `be32` and `unbe32`. -/
theorem integerPackAndUnpackAreInverse : Obligations.IntegerPackAndUnpackAreInverse :=
  ⟨fun v => ⟨_, _, rfl, unbe16_be16 v⟩, be16_unbe16, fun _ _ _ _ _ _ _ _ => unbe32_inj,
    fun v => ⟨_, _, _, _, unbe32_be32 v⟩⟩

/-! ### PACK16 (R93) -/

theorem argOf_some {s : State} {v : Half} (h : s.arg = some v) : argOf s = .ok v := by
  rw [argOf, h, readHeld_some]

/-- Settles O20: PACK16 stores `be16` of `ARG` at address 0. -/
theorem pack16WritesTheTwoBytes : Obligations.Pack16WritesTheTwoBytes := by
  refine ⟨rfl, fun s v harg => ?_⟩
  rw [exec_pack16, argOf_some harg, ok_bind, finish_ok]
  rfl

/-! ### UNPACK16 and UNPACK32 (R94, R95) -/

section fields
variable {inp : Input} {cur : Nat} {b0 b1 b2 b3 : Byte}

/-- R91: a 16-bit field of two held bytes. -/
theorem rd16_of_bytes (hle : cur + 2 ≤ inp.len) (h0 : inp.buf.read cur = some b0)
    (h1 : inp.buf.read (cur + 1) = some b1) : rd16 inp cur = .ok (unbe16 b0 b1, cur + 2) := by
  rw [rd16_ok, be16_unbe16]
  exact ⟨hle, ⟨h0, h1, trivial⟩, rfl⟩

/-- R92: a 32-bit field of four held bytes. -/
theorem rd32_of_bytes (hle : cur + 4 ≤ inp.len) (h0 : inp.buf.read cur = some b0)
    (h1 : inp.buf.read (cur + 1) = some b1) (h2 : inp.buf.read (cur + 2) = some b2)
    (h3 : inp.buf.read (cur + 3) = some b3) : rd32 inp cur = .ok (unbe32 b0 b1 b2 b3, cur + 4) := by
  rw [rd32_ok, be32_unbe32]
  exact ⟨hle, ⟨h0, h1, h2, h3, trivial⟩, rfl⟩

end fields

section cursorCommands
variable {α : Type} {f : Input → Nat → Run α} {put : Held α → State → State} {s : State} {c : Half}
  (hl : s.ilen.toNat ≤ 65527) (hc : s.cur = some c)
include hl hc

/-- A cursor command succeeds with what its function reads from `CUR`. -/
theorem finish_atCursor_ok {v : α} (hf : f ⟨s.ibuf, s.ilen.toNat⟩ c.toNat = .ok v) :
    finish (atCursor f s) put s = .next (put (some v) s).succeed := by
  rw [atCursor_eq hl hc, hf, finish_ok]

/-- A cursor command takes the error its function raises from `CUR`, and its outputs hold no value (R180). -/
theorem finish_atCursor_raised {e : CodecError} (hf : f ⟨s.ibuf, s.ilen.toNat⟩ c.toNat = .error (.raised e)) :
    finish (atCursor f s) put s = .next ((put none s).takeError e) := by
  rw [atCursor_eq hl hc, hf, finish_raised]

end cursorCommands

/-- A cursor moved on from `CUR` is `CUR` with as much added. -/
theorem State.putCur_add (s : State) (c : Half) (n : Nat) :
    s.putCur (some (c.toNat + n)) = { s with cur := some (c + BitVec.ofNat 16 n) } := by
  rw [State.putCur, Option.map_some, toCur_add]

/-- Settles O21: UNPACK16 ends as `rd16` does at the cursor. -/
theorem unpack16ReadsTheFieldAtTheCursor : Obligations.Unpack16ReadsTheFieldAtTheCursor := by
  refine ⟨rfl, fun s c hl hc => ⟨fun b0 b1 hle h0 h1 => ?_, fun hlt => ?_⟩⟩
  · rw [exec_unpack16, finish_atCursor_ok hl hc (rd16_of_bytes hle h0 h1)]
    simp only [Option.map_some, State.putCur_add]
    rfl
  · rw [exec_unpack16, finish_atCursor_raised hl hc (rd16_raised.mpr ⟨rfl, hlt⟩)]
    rfl

/-- Settles O22: UNPACK32 ends as `rd32` does at the cursor. -/
theorem unpack32ReadsTheFieldAtTheCursor : Obligations.Unpack32ReadsTheFieldAtTheCursor := by
  refine ⟨rfl, fun s c hl hc => ⟨fun b0 b1 b2 b3 hle h0 h1 h2 h3 => ?_, fun hlt => ?_⟩⟩
  · rw [exec_unpack32, finish_atCursor_ok hl hc (rd32_of_bytes hle h0 h1 h2 h3)]
    simp only [Option.map_some, State.putCur_add]
    rfl
  · rw [exec_unpack32, finish_atCursor_raised hl hc (rd32_raised.mpr ⟨rfl, hlt⟩)]
    rfl

end Sys2Proof.Machine
end

section
/-! SUPPORT. The name codec (R100 to R106): NAMEENC of a hostname, NAMEDEC at the cursor, and each undoing the other. -/

namespace Sys2Proof.Machine

variable {s t : State} {h h' : List Byte} {ls : List Label} {e : CodecError}

/-! ### The labels of a hostname (R100) -/

@[simp] theorem hostLabels_nil : hostLabels [] = [] := rfl

/-- A separator ends one label and begins the next, and leaves nothing else behind. -/
theorem hostLabels_append (a b : List Byte) : hostLabels (a ++ dot :: b) = hostLabels a ++ hostLabels b := by
  rw [hostLabels, splitDots_append, List.filter_append]
  rfl

@[simp] theorem hostLabels_dot (b : List Byte) : hostLabels (dot :: b) = hostLabels b := hostLabels_append [] b

theorem hostLabels_replicate_dot (n : Nat) : hostLabels (List.replicate n dot) = [] := by
  induction n with
  | zero => rfl
  | succ n ih => rw [List.replicate_succ, hostLabels_dot, ih]

/-- R106: legal labels without separators are the labels of the hostname they are joined to. -/
theorem hostLabels_joinDots (hls : legalName ls) (hdot : ∀ l ∈ ls, dot ∉ l) : hostLabels (joinDots ls) = ls := by
  by_cases hne : ls = []
  · rw [hne]
    rfl
  · have hsplit := splitDots_joinDots hne hdot
    refine (hostLabels_of_no_empty ?_).trans hsplit
    rw [hsplit]
    intro hmem
    exact absurd (hls [] hmem).1 (by decide)

/-! ### Encoding (R100, R102) -/

/-- The encoding of a hostname is decided by its labels. -/
theorem nameEncode_congr (hh : hostLabels h = hostLabels h') : nameEncode h = nameEncode h' := by
  rcases hr : nameEncode h with halt | out
  · exact (nameEncode_error.mpr (hh ▸ nameEncode_error.mp hr)).symm
  · exact (nameEncode_ok.mpr (hh ▸ nameEncode_ok.mp hr)).symm

theorem wireName_getLast? (ls : List Label) : (wireName ls).getLast? = some 0x00 := List.getLast?_concat

/-- R102: a hostname without empty pieces gains a length octet in front and the terminator. -/
theorem wireName_hostLabels_length (hne : [] ∉ splitDots h) : (wireName (hostLabels h)).length = h.length + 2 := by
  rw [wireName_length, hostLabels_of_no_empty hne, splitDots_length]
  omega

/-- Settles O24: a hostname's labels decide its encoding, and dots leave no label. -/
theorem encodedNamesHaveTheirShape : Obligations.EncodedNamesHaveTheirShape := by
  refine ⟨fun a b => ⟨?_, ?_, ?_⟩, fun n => ?_, fun h out hout => ?_, fun h _ hne => ⟨fun out hout => ?_, ?_⟩, rfl⟩
  · refine nameEncode_congr ?_
    simp only [List.append_assoc, List.cons_append, List.nil_append, hostLabels_append, hostLabels_dot]
  · exact nameEncode_congr (hostLabels_dot b)
  · refine nameEncode_congr ?_
    rw [hostLabels_append, hostLabels_nil, List.append_nil]
  · exact nameEncode_congr (h' := []) (hostLabels_replicate_dot n)
  · obtain ⟨hshort, rfl, hle⟩ := nameEncode_ok.mp hout
    exact ⟨rfl, hostLabels_legal hshort, wireName_getLast? _, wireName_length _, wireName_length_pos _, hle⟩
  · obtain ⟨-, rfl, -⟩ := nameEncode_ok.mp hout
    exact wireName_hostLabels_length hne
  · have hlen := wireName_hostLabels_length hne
    simp only [nameEncode_ok, hostLabels_of_no_empty hne] at hlen ⊢
    constructor
    · rintro ⟨_, hshort, rfl, hle⟩
      exact ⟨hshort, by omega⟩
    · rintro ⟨hshort, hle⟩
      exact ⟨_, hshort, rfl, by omega⟩

/-! ### NAMEENC (R101) -/

section nameenc
variable (hl : s.hlen.toNat ≤ Config.hmax) (hlen : h.length = s.hlen.toNat) (hb : s.hbuf.holds 0 h)
include hl hlen hb

/-- NAMEENC of a hostname that lies in `HBUF` ends as its encoding does. -/
theorem exec_nameenc_of_holds : exec .nameenc s = finish (nameEncode h) (fun out s => s.putOutput out) s := by
  rw [exec_nameenc, hostnameOf_ok.mpr ⟨hl, hlen, hb⟩, ok_bind]

theorem nameenc_of_ok {out : List Byte} (ho : nameEncode h = .ok out) :
    exec .nameenc s = .next { s with
      obuf := Memory.ofBytesAt 0 out, olen := some (BitVec.ofNat 16 out.length),
      err := 0, einfo0 := none, einfo1 := none } := by
  rw [exec_nameenc_of_holds hl hlen hb, ho]
  rfl

theorem nameenc_of_raised (ho : nameEncode h = .error (.raised e)) :
    exec .nameenc s = .next { s with
      obuf := [], olen := none, err := errorCode e, einfo0 := errorInfo0 e, einfo1 := errorInfo1 e } := by
  rw [exec_nameenc_of_holds hl hlen hb, ho]
  rfl

/-- NAMEENC succeeds only where the encoding does. -/
theorem nameEncode_ok_of_nameenc (hx : exec .nameenc s = .next t) (herr : t.err = 0) :
    ∃ out, nameEncode h = .ok out := by
  rw [exec_nameenc_of_holds hl hlen hb] at hx
  rcases finish_next.mp hx with ⟨out, ho, -⟩ | ⟨e, -, rfl⟩
  · exact ⟨out, ho⟩
  · exact absurd herr (errorCode_ne_zero e)

end nameenc

/-- Settles O23: the three ways `name_encode` ends are the three ways NAMEENC ends. -/
theorem nameencWritesTheWireName : Obligations.NameencWritesTheWireName := by
  refine ⟨rfl, fun s h hl hlen hb => ⟨fun hshort hle => ?_, fun hlong => ?_, fun hshort hlong => ?_⟩⟩
  · exact nameenc_of_ok hl hlen hb (nameEncode_ok.mpr ⟨hshort, rfl, hle⟩)
  · exact nameenc_of_raised hl hlen hb (nameEncode_error.mpr (.inl ⟨rfl, hlong⟩))
  · exact nameenc_of_raised hl hlen hb (nameEncode_error.mpr (.inr ⟨rfl, hshort, hlong⟩))

/-! ### NAMEDEC (R103, R104) -/

section namedec
variable {c : Half} (hl : s.ilen.toNat ≤ 65527) (hc : s.cur = some c)
include hl hc

theorem namedec_of_ok {d : Nat} (hd : nameDecode ⟨s.ibuf, s.ilen.toNat⟩ c.toNat = .ok (ls, d)) :
    exec .namedec s = .next { s with
      name := some ls, cur := some (toCur d), err := 0, einfo0 := none, einfo1 := none } :=
  (exec_namedec s).trans (finish_atCursor_ok hl hc hd)

theorem namedec_of_raised (hd : nameDecode ⟨s.ibuf, s.ilen.toNat⟩ c.toNat = .error (.raised e)) :
    exec .namedec s = .next { s with
      name := none, cur := none, err := errorCode e, einfo0 := errorInfo0 e, einfo1 := errorInfo1 e } :=
  (exec_namedec s).trans (finish_atCursor_raised hl hc hd)

end namedec

/-- Everything NAMEDEC from `CUR` can have done. -/
theorem namedec_next {c : Half} (hx : exec .namedec s = .next t) (hl : s.ilen.toNat ≤ 65527) (hc : s.cur = some c) :
    (∃ ls d, nameDecode ⟨s.ibuf, s.ilen.toNat⟩ c.toNat = .ok (ls, d) ∧
      t = { s with name := some ls, cur := some (toCur d), err := 0, einfo0 := none, einfo1 := none }) ∨
    ∃ e, nameDecode ⟨s.ibuf, s.ilen.toNat⟩ c.toNat = .error (.raised e) ∧
      t = { s with name := none, cur := none, err := errorCode e, einfo0 := errorInfo0 e, einfo1 := errorInfo1 e } := by
  rw [exec_namedec, atCursor_eq hl hc] at hx
  rcases finish_next.mp hx with ⟨⟨ls, d⟩, hd, rfl⟩ | ⟨e, hd, rfl⟩
  · exact .inl ⟨ls, d, hd, rfl⟩
  · exact .inr ⟨e, hd, rfl⟩

/-- Settles O25: NAMEDEC succeeds exactly where `name_decode` does. -/
theorem namedecAcceptsExactlyTheWireNames : Obligations.NamedecAcceptsExactlyTheWireNames := by
  refine ⟨rfl, fun s c ls hl hc => ⟨fun hls hb hle => ?_, fun t hx herr hname => ?_⟩⟩
  · exact namedec_of_ok hl hc (nameDecode_ok.mpr ⟨hls, hb, rfl, hle⟩)
  · rcases namedec_next hx hl hc with ⟨ls', d, hd, rfl⟩ | ⟨e, -, rfl⟩
    · obtain rfl : ls' = ls := Option.some.inj hname
      obtain ⟨hls, hb, rfl, hle⟩ := nameDecode_ok.mp hd
      exact ⟨hls, hb, hle⟩
    · exact absurd herr (errorCode_ne_zero e)

/-- Settles O26: each clause is one of the ways `name_decode` fails. -/
theorem namedecRaisesAtTheFirstBadOctet : Obligations.NamedecRaisesAtTheFirstBadOctet := by
  refine fun s c hl hc => ⟨fun hlt => ?_, ?_⟩
  · exact namedec_of_raised hl hc (nameDecode_raised.mpr (.inl ⟨rfl, hlt⟩))
  · rintro ls _ hls hb rfl
    refine ⟨fun hend => ?_, fun n hlt hr h1 h63 hshort => ?_, fun n hlt hr h64 => ?_⟩
    · exact namedec_of_raised hl hc (nameDecode_raised.mpr (.inr ⟨ls, hls, hb, hend.le, .inl ⟨rfl, hend⟩⟩))
    · exact namedec_of_raised hl hc (nameDecode_raised.mpr
        (.inr ⟨ls, hls, hb, hlt.le, .inr ⟨n, hlt, hr, .inl ⟨rfl, ⟨h1, h63⟩, hshort⟩⟩⟩))
    · exact namedec_of_raised hl hc (nameDecode_raised.mpr
        (.inr ⟨ls, hls, hb, hlt.le, .inr ⟨n, hlt, hr, .inr ⟨rfl, h64⟩⟩⟩))

/-! ### NAMEDEC, one length octet at a time (R103) -/

section octet
variable {inp : Input} {cur d : Nat} {n : Byte} (hlt : cur < inp.len) (hr : inp.buf.read cur = some n)
include hlt hr

theorem nameDecode_of_turn_end (ht : lenTurn inp n (cur + 1) = .ok (none, d)) : nameDecode inp cur = .ok ([], d) := by
  rw [nameDecode_eq, rd8_ok.mpr ⟨hlt, hr, rfl⟩, ok_bind, ht, ok_bind]

theorem nameDecode_of_turn_label {l : Label} (ht : lenTurn inp n (cur + 1) = .ok (some l, d)) :
    nameDecode inp cur = (nameDecode inp d >>= fun r => .ok (l :: r.1, r.2)) := by
  rw [nameDecode_eq, rd8_ok.mpr ⟨hlt, hr, rfl⟩, ok_bind, ht, ok_bind]

theorem nameDecode_of_turn_error {halt : Halt} (ht : lenTurn inp n (cur + 1) = .error halt) :
    nameDecode inp cur = .error halt := by
  rw [nameDecode_eq, rd8_ok.mpr ⟨hlt, hr, rfl⟩, ok_bind, ht, error_bind]

end octet

/-- Only the zero octet is the row LEN.END (R64). -/
theorem decodeLen_eq_lenEnd {n : Byte} (hn : decodeLen n = .lenEnd) : n = 0 := by
  rw [← lenClass_ending]
  unfold decodeLen at hn
  split at hn
  · assumption
  all_goals cases hn

/-- Everything a length octet's row can have done, run from the cursor behind the octet. -/
theorem decodeLen_next {c : Half} {n : Byte} (hx : exec (decodeLen n) { s with cur := some (c + 1) } = .next t)
    (hl : s.ilen.toNat ≤ 65527) (hlt : c.toNat < s.ilen.toNat) :
    (∃ lab d, lenTurn ⟨s.ibuf, s.ilen.toNat⟩ n (c.toNat + 1) = .ok (lab, d) ∧
      t = { s with name := some lab.toList, cur := some (toCur d), err := 0, einfo0 := none, einfo1 := none }) ∨
    ∃ e, lenTurn ⟨s.ibuf, s.ilen.toNat⟩ n (c.toNat + 1) = .error (.raised e) ∧
      t = { s with name := none, cur := none, err := errorCode e, einfo0 := errorInfo0 e, einfo1 := errorInfo1 e } := by
  have hc : (c + 1).toNat = c.toNat + 1 := by bv_omega
  rw [exec_decodeLen, lengthOctet_eq, atCursor_eq (s := { s with cur := some (c + 1) }) hl rfl, hc] at hx
  rcases finish_next.mp hx with ⟨⟨lab, d⟩, ht, rfl⟩ | ⟨e, ht, rfl⟩
  · exact .inl ⟨lab, d, ht, rfl⟩
  · exact .inr ⟨e, ht, rfl⟩

/-- A cursor behind a label is within the input, so `CUR` holds it whole. -/
theorem lenTurn_label_toCur {inp : Input} {cur d : Nat} {n : Byte} {l : Label} (hl : inp.len ≤ 65527)
    (ht : lenTurn inp n cur = .ok (some l, d)) : (toCur d).toNat = d := by
  rcases lenTurn_ok.mp ht with ⟨-, hlab, -⟩ | ⟨l', -, -, -, hle, -, rfl⟩
  · cases hlab
  · exact toCur_toNat (by omega)

/-- Settles O55: the row is the turn of the loop that begins `name_decode`, and a label leaves NAMEDEC the rest. -/
theorem namedecIsItsLengthOctetsOneByOne : Obligations.NamedecIsItsLengthOctetsOneByOne := by
  intro s t c n hl hc hlt hr hx
  rcases decodeLen_next hx hl hlt with ⟨lab, d, ht, rfl⟩ | ⟨e, ht, rfl⟩
  · refine ⟨fun herr => absurd rfl herr, fun hn => ?_, fun k l u _ _ hname hu => ?_⟩
    · obtain rfl := decodeLen_eq_lenEnd hn
      cases ht
      exact namedec_of_ok hl hc (nameDecode_of_turn_end hlt hr rfl)
    · obtain rfl : lab = some l := Option.toList_eq_singleton_iff.mp (Option.some.inj hname)
      have hrest := nameDecode_of_turn_label hlt hr ht
      have hd := lenTurn_label_toCur hl ht
      rcases namedec_next hu hl rfl with ⟨ls, d', hdec, rfl⟩ | ⟨e, hdec, rfl⟩ <;> rw [hd] at hdec
      · exact namedec_of_ok hl hc (hrest.trans (by rw [hdec, ok_bind]))
      · exact namedec_of_raised hl hc (hrest.trans (by rw [hdec, error_bind]))
  · have hraised := namedec_of_raised hl hc (nameDecode_of_turn_error hlt hr ht)
    exact ⟨fun _ => hraised, fun _ => hraised, fun k l u _ herr => absurd herr (errorCode_ne_zero e)⟩

/-! ### The round trip (R106) -/

/-- An encoded name that fits `IBUF`, loaded as the input, decodes whole from its start. -/
theorem namedec_of_loaded (hidle : s.req = .idle) (hls : legalName ls) (hle : (wireName ls).length ≤ 65527) :
    ∃ l v, s.hostLoadMessage (wireName ls) = .next l ∧ exec .namedec (l.hostWriteCur 0) = .next v ∧ v.err = 0 ∧
      v.name = some ls ∧ v.cur = some v.ilen ∧ v.ilen.toNat = (wireName ls).length := by
  have hlen : (BitVec.ofNat 16 (wireName ls).length).toNat = (wireName ls).length := toCur_toNat (by omega)
  exact ⟨_, _, State.hostLoadMessage_idle _ hidle hle,
    .trans (congrArg (exec .namedec) (State.hostWriteCur_idle 0 hidle)) (namedec_of_ok (hlen.trans_le hle) rfl
      (nameDecode_ok.mpr ⟨hls, Memory.holds_writeFrom _ 0 _, (Nat.zero_add _).symm, hlen.ge⟩)), rfl, rfl, rfl, hlen⟩

/-- Settles O27: the encoder's output is the wire form of the labels, which is what the decoder accepts. -/
theorem encodedNamesDecodeBack : Obligations.EncodedNamesDecodeBack := by
  refine ⟨fun s t h hidle hl hlen hb hx herr => ?_, fun inp ls hd hle hdot => ?_⟩
  · obtain ⟨out, hout⟩ := nameEncode_ok_of_nameenc hl hlen hb hx herr
    have ht := Host.Outcome.next.inj (hx.symm.trans (nameenc_of_ok hl hlen hb hout))
    have hreq : t.req = .idle := by rw [ht, hidle]
    have hbytes : t.obuf.bytes = out := by rw [ht, Memory.bytes_ofBytesAt]
    obtain ⟨hshort, rfl, hle⟩ := nameEncode_ok.mp hout
    rw [hbytes]
    obtain ⟨l, v, hload, hdec, hv, hname, hcur, hilen⟩ :=
      namedec_of_loaded hreq (hostLabels_legal hshort) (by omega)
    refine ⟨l, v, hload, hdec, hv, hname, hcur, hilen, fun hne => ?_, ?_⟩
    · exact ⟨hname.trans (congrArg some (hostLabels_of_no_empty hne)), joinDots_splitDots h⟩
    · rintro rfl
      exact hname
  · obtain ⟨hls, hb, hlen, -⟩ := nameDecode_ok.mp hd
    rw [Nat.zero_add] at hlen
    refine ⟨wireName ls, nameEncode_ok.mpr ?_, hlen.symm, hb⟩
    rw [hostLabels_joinDots hls hdot]
    exact ⟨fun l hl => (hls l hl).2, rfl, hlen.symm.trans_le hle⟩

end Sys2Proof.Machine
end

section
/-! SUPPORT. The header-flag commands (R110 to R119): the flag word as the concatenation of its eight fields, HDRENC and
HDRDEC on it, and the two checks RCDEC and RTDEC. -/

namespace Sys2Proof

/-! ### The flag word and its fields are in bijection (R114) -/

/-- R71: shifting every field to its place is writing the fields one behind the other, QR first; the concatenation's
width stands as the sum of the fields' widths, as `BitVec`'s rules for `++` need it. -/
theorem flagWord_eq_setWidth (f : FlagFields) :
    flagWord f = (f.qr ++ f.opcode ++ f.aa ++ f.tc ++ f.rd ++ f.ra ++ f.z ++ f.rcode).setWidth 16 := by
  simp only [BitVec.setWidth_append_eq_shiftLeft_setWidth_or, BitVec.shiftLeft_or_distrib, ← BitVec.shiftLeft_add]
  rfl

theorem flagWord_eq_append (f : FlagFields) :
    flagWord f = f.qr ++ f.opcode ++ f.aa ++ f.tc ++ f.rd ++ f.ra ++ f.z ++ f.rcode :=
  (flagWord_eq_setWidth f).trans (BitVec.setWidth_eq _)

/-- Neighbouring fields read from a word join to the bits they were read from. -/
theorem flagWord_hdrDecode (w : Half) : flagWord (hdrDecode w) = w := by
  rw [flagWord_eq_setWidth]
  simp only [hdrDecode, BitVec.extractLsb'_append_extractLsb'_eq_extractLsb']
  simp

/-- Every field is read at the place it was written to. -/
theorem hdrDecode_flagWord (f : FlagFields) : hdrDecode (flagWord f) = f := by
  rw [flagWord_eq_setWidth]
  simp (disch := decide) only [hdrDecode, BitVec.extractLsb'_setWidth_of_le, BitVec.extractLsb'_append_eq_of_le,
    BitVec.extractLsb'_append_eq_of_add_le]
  simp

theorem flagWord_inj {f g : FlagFields} : flagWord f = flagWord g ↔ f = g :=
  (Function.LeftInverse.injective hdrDecode_flagWord).eq_iff

/-- R110: `hdr_encode` is the flag word with Z as 0. -/
theorem hdrEncode_eq_flagWord (qr : BitVec 1) (opcode : BitVec 4) (aa tc rd ra : BitVec 1) (rcode : BitVec 4) :
    hdrEncode qr opcode aa tc rd ra rcode = flagWord ⟨qr, opcode, aa, tc, rd, ra, 0, rcode⟩ := by
  simp [hdrEncode, flagWord]

/-! ### Clearing Z -/

theorem FlagFields.clearZ_eq_self_iff (f : FlagFields) : { f with z := 0 } = f ↔ f.z = 0 := by
  constructor
  · intro h
    rw [← h]
  · intro h
    rw [← h]

/-- The mask holds the bits of every field but Z, and none of Z's. -/
theorem hdrDecode_and_mask (w : Half) : hdrDecode (w &&& 0xFF8F) = { hdrDecode w with z := 0 } := by
  have h1 (x : BitVec 1) : x &&& 1#1 = x := BitVec.and_allOnes
  have h4 (x : BitVec 4) : x &&& 15#4 = x := BitVec.and_allOnes
  simp [hdrDecode, BitVec.extractLsb'_and, h1, h4]

theorem flagWord_clearZ (w : Half) : flagWord { hdrDecode w with z := 0 } = w &&& 0xFF8F := by
  rw [← hdrDecode_and_mask, flagWord_hdrDecode]

theorem flagWord_clearZ_eq_self_iff (w : Half) : flagWord { hdrDecode w with z := 0 } = w ↔ (hdrDecode w).z = 0 := by
  conv_lhs => rhs; rw [← flagWord_hdrDecode w]
  rw [flagWord_inj, FlagFields.clearZ_eq_self_iff]

namespace Machine

/-- Settles O30: `flagWord` and `hdrDecode` undo each other, and `hdr_encode` is `flagWord` with Z as 0. -/
theorem headerWordsAndFieldsAreInverse : Obligations.HeaderWordsAndFieldsAreInverse := by
  refine ⟨fun w => ?_, fun qr opcode aa tc rd ra rcode => ?_, flagWord_hdrDecode, hdrDecode_flagWord⟩
  · simp only [hdrEncode_eq_flagWord]
    exact ⟨flagWord_clearZ w, flagWord_clearZ_eq_self_iff w⟩
  · rw [hdrEncode_eq_flagWord, hdrDecode_flagWord]

/-! ### HDRENC (R111) -/

/-- The encoded word widened by zeros, as `VAL` holds it. -/
theorem hdrEncode_setWidth (qr : BitVec 1) (opcode : BitVec 4) (aa tc rd ra : BitVec 1) (rcode : BitVec 4) :
    (hdrEncode qr opcode aa tc rd ra rcode).setWidth 32 =
      0#16 ++ qr ++ opcode ++ aa ++ tc ++ rd ++ ra ++ 0#3 ++ rcode := by
  rw [hdrEncode_eq_flagWord, flagWord_eq_append]
  refine Eq.trans ?_ (BitVec.setWidth_eq _)
  simp only [BitVec.setWidth_append_eq_shiftLeft_setWidth_or]
  simp

/-- Settles O28: HDRENC reads every field but Z, and each is held. -/
theorem hdrencPlacesTheFields : Obligations.HdrencPlacesTheFields := by
  refine ⟨rfl, fun s qr opcode aa tc rd ra rcode hqr hopcode haa htc hrd hra hrcode => ?_⟩
  have hword : headerWordOf s = .ok (hdrEncode qr opcode aa tc rd ra rcode) := by
    simp [headerWordOf, hqr, hopcode, haa, htc, hrd, hra, hrcode]
  rw [exec_hdrenc, hword, finish_ok, ← hdrEncode_setWidth]
  rfl

/-! ### The commands that read `ARG`: HDRDEC, RCDEC, RTDEC (R113, R117, R119) -/

section arg
variable {s : State} {v : Half} (harg : s.arg = some v)
include harg

/-- HDRDEC presents `ARG` as a flag word. -/
theorem exec_hdrdec_of_arg : exec .hdrdec s = flagPattern (hdrDecode v) s := by
  rw [exec_hdrdec, argOf_some harg, ok_bind]
  rfl

/-- RCDEC checks `ARG` as a response code. -/
theorem exec_rcdec_of_arg :
    exec .rcdec s = finish (rcodeDecode v) (fun (c : Held (BitVec 4)) s => s.putVal (c.map (·.setWidth 32))) s := by
  rw [exec_rcdec, argOf_some harg, ok_bind]

/-- RTDEC presents `ARG` as a record type. -/
theorem exec_rtdec_of_arg : exec .rtdec s = rtypePattern v s := by
  rw [exec_rtdec, argOf_some harg, ok_bind, rtypePattern_eq]

end arg

/-- Settles O29: `ARG` is the flag word of the eight fields, so `hdrDecode` gives them back. -/
theorem hdrdecSplitsTheWord : Obligations.HdrdecSplitsTheWord := by
  refine ⟨rfl, fun s qr opcode aa tc rd ra z rcode harg => ?_, fun w =>
    ⟨_, _, _, _, _, _, _, _, (flagWord_hdrDecode w).symm.trans (flagWord_eq_append _)⟩⟩
  rw [← flagWord_eq_append ⟨qr, opcode, aa, tc, rd, ra, z, rcode⟩] at harg
  rw [exec_hdrdec_of_arg harg, hdrDecode_flagWord, flagPattern_eq]
  rfl

/-- A value up to 5 is a response code of four bits, widened. -/
theorem exists_setWidth_of_le_five {v : Half} (hv : v.toNat ≤ 5) : ∃ c : BitVec 4, c.setWidth 16 = v := by
  obtain ⟨c, hc⟩ := Option.isSome_iff_exists.mp ((responseCodeOf_isSome v).mpr hv)
  exact ⟨_, responseCodeCode_of hc⟩

/-- Settles O31: RCDEC ends as `rcode_decode` does on all 16 bits of `ARG`. -/
theorem rcdecValidatesResponseCodes : Obligations.RcdecValidatesResponseCodes := by
  refine ⟨rfl, fun s v harg => ⟨fun hv => ?_, fun hv => ?_⟩⟩
  · obtain ⟨c, rfl⟩ := exists_setWidth_of_le_five hv
    rw [exec_rcdec_of_arg harg, rcodeDecode_ok.mpr ⟨rfl, hv⟩, finish_ok, BitVec.setWidth_setWidth (by omega)]
    rfl
  · rw [exec_rcdec_of_arg harg, rcodeDecode_error.mpr ⟨rfl, hv⟩, finish_raised]
    rfl

/-- Settles O32: RTDEC ends as the pattern of its word does, known type or not. -/
theorem rtdecValidatesRecordTypes : Obligations.RtdecValidatesRecordTypes := by
  refine ⟨rfl, fun s v harg => ⟨fun hv => ?_, fun hv => ?_⟩⟩
  · rw [exec_rtdec_of_arg harg, rtypePattern_known s hv]
  · rw [exec_rtdec_of_arg harg, rtypePattern_unknown s hv]

end Machine

end Sys2Proof
end

section
/-! SUPPORT. The record parser (R130 to R134): QPARSE and RRPARSE at the cursor, and each error where it stands in wire
order (R178). -/

namespace Sys2Proof.Machine

variable {s t : State} {inp : Input} {cur p d : Nat} {c v n : Half} {ls : List Label} {q q' : Question} {r : Record}
  {e : CodecError}

/-! ### What QPARSE and RRPARSE leave (R131, R133, R180) -/

section commands
variable (hl : s.ilen.toNat ≤ 65527) (hc : s.cur = some c)
include hl hc

theorem qparse_next_of_ok (hq : questionParse ⟨s.ibuf, s.ilen.toNat⟩ c.toNat = .ok (q, d)) :
    exec .qparse s = .next { s with
      qst := ⟨some q.name, some q.qtype, some q.qclass⟩, cur := some (toCur d), err := 0, einfo0 := none,
      einfo1 := none } :=
  (exec_qparse s).trans (finish_atCursor_ok hl hc hq)

theorem qparse_next_of_raised (hq : questionParse ⟨s.ibuf, s.ilen.toNat⟩ c.toNat = .error (.raised e)) :
    exec .qparse s = .next { s with
      qst := ⟨none, none, none⟩, cur := none, err := errorCode e, einfo0 := errorInfo0 e, einfo1 := errorInfo1 e } :=
  (exec_qparse s).trans (finish_atCursor_raised hl hc hq)

theorem rrparse_next_of_ok (hr : rrParse ⟨s.ibuf, s.ilen.toNat⟩ c.toNat = .ok (r, d)) :
    exec .rrparse s = .next { s with
      recs := [r], nrec := some 1, cur := some (toCur d), err := 0, einfo0 := none, einfo1 := none } :=
  (exec_rrparse s).trans (finish_atCursor_ok hl hc hr)

theorem rrparse_next_of_raised (hr : rrParse ⟨s.ibuf, s.ilen.toNat⟩ c.toNat = .error (.raised e)) :
    exec .rrparse s = .next { s with
      recs := [], nrec := none, cur := none, err := errorCode e, einfo0 := errorInfo0 e, einfo1 := errorInfo1 e } :=
  (exec_rrparse s).trans (finish_atCursor_raised hl hc hr)

/-- A cursor command that reports success has run its function from `CUR` to an end. -/
theorem ok_of_finish_atCursor {α : Type} {f : Input → Nat → Run α} {put : Held α → State → State}
    (hx : finish (atCursor f s) put s = .next t) (herr : t.err = 0) :
    ∃ v, f ⟨s.ibuf, s.ilen.toNat⟩ c.toNat = .ok v ∧ t = (put (some v) s).succeed := by
  rw [atCursor_eq hl hc] at hx
  rcases finish_next.mp hx with hok | ⟨e, -, rfl⟩
  · exact hok
  · exact absurd herr (errorCode_ne_zero e)

end commands

/-! ### Acceptance (R130, R134) -/

/-- The `Q` registers show every field of the question. -/
theorem State.putQuestion_qst_inj
    (h : (s.putQuestion (some q)).qst = ⟨some q'.name, some q'.qtype, some q'.qclass⟩) : q = q' := by
  cases q
  cases q'
  simpa using h

/-- Settles O33: QPARSE succeeds exactly where `question_parse` does. -/
theorem qparseAcceptsExactlyTheWireQuestions : Obligations.QparseAcceptsExactlyTheWireQuestions := by
  refine ⟨rfl, fun s c q hl hc => ⟨fun hq hb hle => ?_, fun t hx herr hqst => ?_⟩⟩
  · exact qparse_next_of_ok hl hc (questionParse_ok.mpr ⟨hq, hb, rfl, hle⟩)
  · obtain ⟨⟨q', d⟩, hok, rfl⟩ := ok_of_finish_atCursor hl hc ((exec_qparse s).symm.trans hx) herr
    obtain rfl : q' = q := State.putQuestion_qst_inj (s := s) hqst
    obtain ⟨hq, hb, rfl, hle⟩ := questionParse_ok.mp hok
    exact ⟨hq, hb, hle⟩

/-- Settles O35: RRPARSE succeeds exactly where `rr_parse` does. -/
theorem rrparseAcceptsExactlyTheWireRecords : Obligations.RrparseAcceptsExactlyTheWireRecords := by
  refine ⟨rfl, fun s c hl hc => ⟨fun r hr hb hle => ?_, fun t hx herr => ?_⟩⟩
  · have hlen := wireRecord_length r hr
    refine ⟨rrparse_next_of_ok hl hc (rrParse_ok.mpr ⟨hr, hb, ?_, ?_⟩), hlen ▸ wireRecord_length_ge r⟩
    · rw [hlen, Nat.add_assoc, Nat.add_assoc, Nat.add_assoc]
    · rwa [hlen, ← Nat.add_assoc, ← Nat.add_assoc] at hle
  · obtain ⟨⟨r, d⟩, hok, rfl⟩ := ok_of_finish_atCursor hl hc ((exec_rrparse s).symm.trans hx) herr
    obtain ⟨hr, hb, rfl, hle⟩ := rrParse_ok.mp hok
    exact ⟨r, rfl, hr, hb, hle⟩

/-! ### The errors in wire order (R130, R132, R178) -/

theorem questionParse_of_name_error {halt : Halt} (hn : nameDecode inp cur = .error halt) :
    questionParse inp cur = .error halt := by
  rw [questionParse_eq, hn, error_bind]

theorem rrParse_of_question_error {halt : Halt} (hq : questionParse inp cur = .error halt) :
    rrParse inp cur = .error halt := by
  rw [rrParse_eq, hq, error_bind]

theorem typeField_unknown (hv : ¬ knownType v) : typeField v cur = .error (.raised (.unknownRecordType v)) := by
  rw [typeField, rtypeDecode_error.mpr ⟨rfl, hv⟩, error_bind]

theorem rd16_of_holds (hle : cur + 2 ≤ inp.len) (hb : inp.buf.holds cur (be16 v)) :
    rd16 inp cur = .ok (v, cur + 2) :=
  rd16_ok.mpr ⟨hle, hb, rfl⟩

theorem rd16_short (hlt : inp.len < cur + 2) : rd16 inp cur = .error (.raised .unexpectedEndOfInput) :=
  rd16_raised.mpr ⟨rfl, hlt⟩

/-! A question behind a name that decodes. -/

section question
variable (hn : nameDecode inp cur = .ok (ls, p))
include hn

theorem questionParse_qtype_short (hlt : inp.len < p + 2) :
    questionParse inp cur = .error (.raised .unexpectedEndOfInput) := by
  rw [questionParse_eq, hn, ok_bind, rd16_short hlt, error_bind]

variable (hle : p + 2 ≤ inp.len) (hb : inp.buf.holds p (be16 v))
include hle hb

theorem questionParse_qtype_unknown (hv : ¬ knownType v) :
    questionParse inp cur = .error (.raised (.unknownRecordType v)) := by
  rw [questionParse_eq, hn, ok_bind, rd16_of_holds hle hb, ok_bind, typeField_unknown hv, error_bind]

/-- Behind a known type only the class is left to read. -/
theorem questionParse_qtype_known (hv : knownType v) :
    questionParse inp cur = (rd16 inp (p + 2) >>= fun k => .ok (⟨ls, v, k.1⟩, k.2)) := by
  rw [questionParse_eq, hn, ok_bind, rd16_of_holds hle hb, ok_bind, typeField_ok.mpr ⟨rfl, hv, rfl⟩, ok_bind]

theorem questionParse_qclass_short (hv : knownType v) (hlt : inp.len < p + 4) :
    questionParse inp cur = .error (.raised .unexpectedEndOfInput) := by
  rw [questionParse_qtype_known hn hle hb hv, rd16_short hlt, error_bind]

end question

/-- Settles O34: each clause is one of the ways `question_parse` fails. -/
theorem qparseRaisesInWireOrder : Obligations.QparseRaisesInWireOrder := by
  refine fun s c hl hc => ⟨fun t hx herr => ?_, ?_⟩
  · rcases namedec_next hx hl hc with ⟨ls, d, -, rfl⟩ | ⟨e, hn, rfl⟩
    · exact absurd rfl herr
    · exact qparse_next_of_raised hl hc (questionParse_of_name_error hn)
  · intro ls p hls hb hp hle
    have hn := (nameDecode_ok (inp := ⟨s.ibuf, s.ilen.toNat⟩)).mpr ⟨hls, hb, hp, hle⟩
    refine ⟨fun hlt => ?_, fun v hle2 hv => ⟨fun hunk => ?_, fun hkn hlt => ?_⟩⟩
    · exact qparse_next_of_raised hl hc (questionParse_qtype_short hn hlt)
    · exact qparse_next_of_raised hl hc (questionParse_qtype_unknown hn hle2 hv hunk)
    · exact qparse_next_of_raised hl hc (questionParse_qclass_short hn hle2 hv hkn hlt)

/-! A record whose bytes all hold a value: a field that fits is read, whatever it is. -/

theorem ok_of_neverRefuses {α : Type} {x : Run α} (hx : neverRefuses x) (hne : ∀ e, x ≠ .error (.raised e)) :
    ∃ a, x = .ok a := by
  rcases x with (e | why) | a
  · exact absurd rfl (hne e)
  · exact absurd rfl (hx why)
  · exact ⟨a, rfl⟩

section record
variable (hfill : filledBelow inp.len inp.buf)
include hfill

theorem rd16_of_filled (hle : cur + 2 ≤ inp.len) : ∃ v, rd16 inp cur = .ok (v, cur + 2) := by
  obtain ⟨⟨v, d⟩, hok⟩ := ok_of_neverRefuses (rd16_neverRefuses hfill)
    fun e he => Nat.not_lt.mpr hle (rd16_raised.mp he).2
  obtain ⟨-, -, rfl⟩ := rd16_ok.mp hok
  exact ⟨v, hok⟩

theorem rd32_of_filled (hle : cur + 4 ≤ inp.len) : ∃ v, rd32 inp cur = .ok (v, cur + 4) := by
  obtain ⟨⟨v, d⟩, hok⟩ := ok_of_neverRefuses (rd32_neverRefuses hfill)
    fun e he => Nat.not_lt.mpr hle (rd32_raised.mp he).2
  obtain ⟨-, -, rfl⟩ := rd32_ok.mp hok
  exact ⟨v, hok⟩

theorem questionParse_of_filled (hn : nameDecode inp cur = .ok (ls, p)) (hb : inp.buf.holds p (be16 v))
    (hv : knownType v) (hle : p + 4 ≤ inp.len) : ∃ q, questionParse inp cur = .ok (q, p + 4) := by
  obtain ⟨k, hk⟩ := rd16_of_filled (cur := p + 2) hfill hle
  exact ⟨_, by rw [questionParse_qtype_known hn (by omega) hb hv, hk, ok_bind]⟩

variable (hq : questionParse inp cur = .ok (q, d))
include hq

theorem rrParse_ttl_or_rdlength_short (hlt : inp.len < d + 6) :
    rrParse inp cur = .error (.raised .unexpectedEndOfInput) := by
  rw [rrParse_eq, hq, ok_bind]
  by_cases hle : d + 4 ≤ inp.len
  · obtain ⟨ttl, httl⟩ := rd32_of_filled hfill hle
    rw [httl, ok_bind, rd16_short hlt, error_bind]
  · rw [rd32_raised.mpr ⟨rfl, Nat.not_le.mp hle⟩, error_bind]

theorem rrParse_rdata_short (hle : d + 6 ≤ inp.len) (hb : inp.buf.holds (d + 4) (be16 n))
    (hlt : inp.len < d + 6 + n.toNat) : rrParse inp cur = .error (.raised .unexpectedEndOfInput) := by
  obtain ⟨ttl, httl⟩ := rd32_of_filled (cur := d) hfill (by omega)
  rw [rrParse_eq, hq, ok_bind, httl, ok_bind, rd16_of_holds hle hb, ok_bind, rdbytes_raised.mpr ⟨rfl, hlt⟩, error_bind]

end record

/-- A known type does not make a record whole: CLASS, TTL and RDLENGTH must be there too. -/
theorem rrParse_fixed_short (hfill : filledBelow inp.len inp.buf) (hn : nameDecode inp cur = .ok (ls, p))
    (hle : p + 2 ≤ inp.len) (hb : inp.buf.holds p (be16 v)) (hv : knownType v) (hlt : inp.len < p + 10) :
    rrParse inp cur = .error (.raised .unexpectedEndOfInput) := by
  by_cases hle4 : p + 4 ≤ inp.len
  · obtain ⟨q, hq⟩ := questionParse_of_filled hfill hn hb hv hle4
    exact rrParse_ttl_or_rdlength_short hfill hq hlt
  · exact rrParse_of_question_error (questionParse_qclass_short hn hle hb hv (Nat.not_le.mp hle4))

/-- Settles O36: a record fails as the question it begins with does, or where the rest of it ends too early. -/
theorem rrparseRaisesInWireOrder : Obligations.RrparseRaisesInWireOrder := by
  refine fun s c hl hc => ⟨fun t hx herr => ?_, ?_⟩
  · rcases namedec_next hx hl hc with ⟨ls, d, -, rfl⟩ | ⟨e, hn, rfl⟩
    · exact absurd rfl herr
    · exact rrparse_next_of_raised hl hc (rrParse_of_question_error (questionParse_of_name_error hn))
  · intro ls p hls hb hp hle
    have hn := (nameDecode_ok (inp := ⟨s.ibuf, s.ilen.toNat⟩)).mpr ⟨hls, hb, hp, hle⟩
    refine ⟨fun hlt => ?_, fun v hle2 hv => ⟨fun hunk => ?_, fun hkn hfill hlt => ?_,
      fun hkn hfill hle10 n hlen hlt => ?_⟩⟩
    · exact rrparse_next_of_raised hl hc (rrParse_of_question_error (questionParse_qtype_short hn hlt))
    · exact rrparse_next_of_raised hl hc (rrParse_of_question_error (questionParse_qtype_unknown hn hle2 hv hunk))
    · exact rrparse_next_of_raised hl hc (rrParse_fixed_short hfill hn hle2 hv hkn hlt)
    · obtain ⟨q, hq⟩ := questionParse_of_filled (inp := ⟨s.ibuf, s.ilen.toNat⟩) hfill hn hv hkn
        (Nat.le_trans (by omega) hle10)
      exact rrparse_next_of_raised hl hc (rrParse_rdata_short hfill hq hle10 hlen hlt)

end Sys2Proof.Machine
end

section
/-! SUPPORT. The message encoder (R140 to R142): the bytes of a query, what ENCQ leaves, and that DECMSG reads a query
back. -/

namespace Sys2Proof.Machine

variable {s t : State} {h out : List Byte} {v id : Half} {e : CodecError}

/-! ### The bytes of a query (R140) -/

/-- R140: the id, the query word and the four counts, the encoded name, the type, the class IN. -/
def queryBytes (name : List Byte) (v id : Half) : List Byte :=
  be16 id ++ [0x01, 0x00, 0x00, 0x01, 0x00, 0x00, 0x00, 0x00, 0x00, 0x00] ++ name ++ be16 v ++ [0x00, 0x01]

theorem queryBytes_length (name : List Byte) (v id : Half) : (queryBytes name v id).length = 12 + name.length + 4 := by
  simp only [queryBytes, List.length_append, be16_length, List.length_cons, List.length_nil]

/-- The id is the first two bytes and nothing else. -/
theorem queryBytes_eq_id_append (name : List Byte) (v id id' : Half) :
    queryBytes name v id' = be16 id' ++ (queryBytes name v id).drop 2 := rfl

theorem queryBytes_fixed (name : List Byte) (v id : Half) : ((queryBytes name v id).drop 2).take 10 =
    [0x01, 0x00, 0x00, 0x01, 0x00, 0x00, 0x00, 0x00, 0x00, 0x00] := rfl

theorem queryBytes_class (name : List Byte) (v id : Half) :
    (queryBytes name v id).drop ((queryBytes name v id).length - 2) = [0x00, 0x01] :=
  List.drop_left' (by simp [queryBytes, be16_length]; omega)

/-- The type is the two bytes before the last two and nothing else. -/
theorem queryBytes_eq_append_type (name : List Byte) (v v' id : Half) :
    queryBytes name v' id =
      (queryBytes name v id).take ((queryBytes name v id).length - 4) ++ be16 v' ++ [0x00, 0x01] := by
  have hsplit : queryBytes name v id =
      be16 id ++ [0x01, 0x00, 0x00, 0x01, 0x00, 0x00, 0x00, 0x00, 0x00, 0x00] ++ name ++ (be16 v ++ [0x00, 0x01]) :=
    List.append_assoc ..
  rw [queryBytes_length, hsplit, List.take_left' (by simp [be16_length]; omega)]
  rfl

/-- R140: a query is built of an acceptable hostname and a known type. -/
theorem encodeQuery_ok :
    encodeQuery h v id = .ok out ↔ ∃ name, nameEncode h = .ok name ∧ knownType v ∧ out = queryBytes name v id := by
  simp only [encodeQuery, bind_eq_ok, rtypeDecode_ok, pure_eq_ok, Except.ok.injEq]
  constructor
  · rintro ⟨name, hn, _, ⟨rfl, hv⟩, rfl⟩
    exact ⟨name, hn, hv, rfl⟩
  · rintro ⟨name, hn, hv, rfl⟩
    exact ⟨name, hn, v, ⟨rfl, hv⟩, rfl⟩

/-- R141, decision D8: the hostname's error comes before the type's. -/
theorem encodeQuery_error {halt : Halt} :
    encodeQuery h v id = .error halt ↔
      nameEncode h = .error halt ∨
      (∃ name, nameEncode h = .ok name) ∧ halt = .raised (.unknownRecordType v) ∧ ¬ knownType v := by
  simp only [encodeQuery, bind_eq_error, rtypeDecode_error, pure_eq_ok, reduceCtorEq, and_false, exists_false, or_false,
    exists_and_right]

/-- Settles O38: every part of a query stands at its place in `queryBytes`. -/
theorem queryBytesDependOnTheirOperands : Obligations.QueryBytesDependOnTheirOperands := by
  intro h out v id hout
  have hmax := encodeQuery_length hout
  obtain ⟨name, hn, hv, rfl⟩ := encodeQuery_ok.mp hout
  have hlen := queryBytes_length name v id
  obtain ⟨-, hname, -⟩ := nameEncode_ok.mp hn
  have hpos : 1 ≤ name.length := hname ▸ wireName_length_pos _
  refine ⟨⟨name, hn, hlen⟩, by omega, hmax, queryBytes_fixed name v id, queryBytes_class name v id, fun id' => ?_,
    fun v' hv' => ?_⟩
  · exact encodeQuery_ok.mpr ⟨name, hn, hv, (queryBytes_eq_id_append name v id id').symm⟩
  · exact encodeQuery_ok.mpr ⟨name, hn, hv', (queryBytes_eq_append_type name v v' id).symm⟩

/-! ### ENCQ (R141) -/

section encq
variable (hl : s.hlen.toNat ≤ Config.hmax) (hlen : h.length = s.hlen.toNat) (hb : s.hbuf.holds 0 h)
  (harg : s.arg = some v) (hid : s.txid = some id)
include hl hlen hb harg hid

/-- ENCQ with its operands held ends as the encoding of the query does. -/
theorem exec_encq_of_held : exec .encq s = finish (encodeQuery h v id) (fun out s => s.putOutput out) s := by
  rw [exec_encq, hostnameOf_ok.mpr ⟨hl, hlen, hb⟩, ok_bind, argOf_some harg, ok_bind, txidOf, hid,
    readHeld_some, ok_bind]

theorem encq_of_ok (ho : encodeQuery h v id = .ok out) :
    exec .encq s = .next { s with
      obuf := Memory.ofBytesAt 0 out, olen := some (BitVec.ofNat 16 out.length),
      err := 0, einfo0 := none, einfo1 := none } := by
  rw [exec_encq_of_held hl hlen hb harg hid, ho]
  rfl

theorem encq_of_raised (ho : encodeQuery h v id = .error (.raised e)) :
    exec .encq s = .next { s with
      obuf := [], olen := none, err := errorCode e, einfo0 := errorInfo0 e, einfo1 := errorInfo1 e } := by
  rw [exec_encq_of_held hl hlen hb harg hid, ho]
  rfl

/-- ENCQ succeeds only where the encoding does. -/
theorem encodeQuery_ok_of_encq (hx : exec .encq s = .next t) (herr : t.err = 0) :
    ∃ out, encodeQuery h v id = .ok out := by
  rw [exec_encq_of_held hl hlen hb harg hid] at hx
  rcases finish_next.mp hx with ⟨out, ho, -⟩ | ⟨e, -, rfl⟩
  · exact ⟨out, ho⟩
  · exact absurd herr (errorCode_ne_zero e)

end encq

/-- Settles O37: the four ways the encoding of a query ends are the four ways ENCQ ends. -/
theorem encqBuildsTheQuery : Obligations.EncqBuildsTheQuery := by
  refine ⟨rfl, fun s h v id hl hlen hb harg hid => ⟨fun hshort hle hv => ?_, fun hlong => ?_, fun hshort hlong => ?_,
    fun hshort hle hv => ?_⟩⟩
  · rw [← queryBytes_length _ v id]
    exact encq_of_ok hl hlen hb harg hid (encodeQuery_ok.mpr ⟨_, nameEncode_ok.mpr ⟨hshort, rfl, hle⟩, hv, rfl⟩)
  · exact encq_of_raised hl hlen hb harg hid (encodeQuery_error.mpr (.inl (nameEncode_error.mpr (.inl ⟨rfl, hlong⟩))))
  · exact encq_of_raised hl hlen hb harg hid
      (encodeQuery_error.mpr (.inl (nameEncode_error.mpr (.inr ⟨rfl, hshort, hlong⟩))))
  · exact encq_of_raised hl hlen hb harg hid
      (encodeQuery_error.mpr (.inr ⟨⟨_, nameEncode_ok.mpr ⟨hshort, rfl, hle⟩⟩, rfl, hv⟩))

/-! ### The round trip (R142) -/

section decmsg
variable {hd : MessageHeader} {q : Question} {rs : List Record} (hid : s.txid = some hd.id)
  (hrc : (hdrDecode hd.flags).rcode.toNat ≤ 5) (hn : rs.length = promisedRecords hd) (hq : legalQuestion q)
  (hrs : ∀ r ∈ rs, legalRecord r)
include hid hrc hn hq hrs

/-- R150, R151: DECMSG of a wire message that lies in `IBUF` within `ILEN` delivers it whole. -/
theorem decmsg_of_holds (hl : s.ilen.toNat ≤ 65527) (hb : s.ibuf.holds 0 (wireMessage hd q rs))
    (hle : (wireMessage hd q rs).length ≤ s.ilen.toNat) : exec .decmsg s = .next (decodedState s hd q rs) := by
  rw [← putDecoded_eq]
  exact execDecmsg_of_ok ((decodeFrom_eq hl hid).trans (decodeMessage_ok.mpr ⟨rfl, hrc, rfl, hq, hrs, hn, hb, rfl, hle⟩))

/-- A wire message that fits `IBUF`, loaded as the input, decodes whole. -/
theorem decmsg_of_loaded (hidle : s.req = .idle) (hle : (wireMessage hd q rs).length ≤ 65527) :
    ∃ l, s.hostLoadMessage (wireMessage hd q rs) = .next l ∧ exec .decmsg l = .next (decodedState l hd q rs) ∧
      l.ilen = toCur (wireMessage hd q rs).length := by
  have hlen := toCur_toNat (c := (wireMessage hd q rs).length) (by omega)
  exact ⟨_, State.hostLoadMessage_idle _ hidle hle,
    decmsg_of_holds hid hrc hn hq hrs (hlen.trans_le hle) (Memory.holds_writeFrom _ 0 _) hlen.ge, rfl⟩

end decmsg

/-- R140, R73: a query is the wire message of one question of class IN and no records. -/
theorem queryBytes_wireName (ls : List Label) (v id : Half) :
    queryBytes (wireName ls) v id = wireMessage ⟨id, 0x0100, 1, 0, 0, 0⟩ ⟨ls, v, 1⟩ [] := by
  simp only [queryBytes, wireMessage, wireHeader, wireQuestion, List.flatMap_nil, List.append_nil, List.append_assoc]
  rfl

/-- Settles O45: ENCQ's output is the wire form of the question, which is what DECMSG accepts. -/
theorem queriesLoopBack : Obligations.QueriesLoopBack := by
  intro s t h v id hidle hl hlen hb harg hid hx herr
  obtain ⟨out, hout⟩ := encodeQuery_ok_of_encq hl hlen hb harg hid hx herr
  have ht := Host.Outcome.next.inj (hx.symm.trans (encq_of_ok hl hlen hb harg hid hout))
  have hreq : t.req = .idle := by rw [ht, hidle]
  have htxid : t.txid = some id := by rw [ht, hid]
  have hbytes : t.obuf.bytes = out := by rw [ht, Memory.bytes_ofBytesAt]
  have hmax := encodeQuery_length hout
  obtain ⟨name, hname, hv, rfl⟩ := encodeQuery_ok.mp hout
  obtain ⟨hshort, rfl, -⟩ := nameEncode_ok.mp hname
  rw [queryBytes_wireName] at hbytes hmax
  rw [hbytes]
  have hrc : (hdrDecode 0x0100).rcode.toNat ≤ 5 := by decide
  obtain ⟨l, hload, hdec, hilen⟩ := decmsg_of_loaded (hd := ⟨id, 0x0100, 1, 0, 0, 0⟩) (q := ⟨hostLabels h, v, 1⟩)
    (rs := []) htxid hrc rfl ⟨hostLabels_legal hshort, hv⟩ (by simp) hreq (by omega)
  exact ⟨l, _, hload, hdec, rfl, rfl, rfl, rfl, rfl, rfl, congrArg some hilen.symm,
    (congrArg BitVec.toNat hilen).trans (toCur_toNat (by omega))⟩

end Sys2Proof.Machine
end

section
/-! SUPPORT. The message decoder (R150 to R160): what a successful DECMSG has found, the errors of its stages in the order
they are met, and the stage each leaves in `STAGE`. -/

namespace Sys2Proof.Machine

variable {s t : State} {inp : Input} {x w : Half} {p : RecordCountPolicy} {h : MessageHeader} {q : Question}
  {rs : List Record} {st : Stage} {e : CodecError}

/-! ### The messages accepted (R150, R156) -/

/-- What DECMSG asks for: its operands are readable and a legal message that carries `TXID`, a response code in 0..5 and as
many records as its counts promise lies in `IBUF` from address 0 within `ILEN`. -/
structure AcceptsMessage (s : State) (h : MessageHeader) (q : Question) (rs : List Record) : Prop where
  ilen_le : s.ilen.toNat ≤ 65527
  txid : s.txid = some h.id
  rcode_le : (hdrDecode h.flags).rcode.toNat ≤ 5
  length_eq : rs.length = promisedRecords h
  question : legalQuestion q
  records : ∀ r ∈ rs, legalRecord r
  holds : s.ibuf.holds 0 (wireMessage h q rs)
  fits : (wireMessage h q rs).length ≤ s.ilen.toNat

theorem AcceptsMessage.exec_decmsg (hm : AcceptsMessage s h q rs) : exec .decmsg s = .next (decodedState s h q rs) :=
  decmsg_of_holds hm.txid hm.rcode_le hm.length_eq hm.question hm.records hm.ilen_le hm.holds hm.fits

/-- A message that DECMSG delivers was there to be accepted. -/
theorem acceptsMessage_of_decmsg (hx : exec .decmsg s = .next t) (herr : t.err = 0) :
    ∃ h q rs, AcceptsMessage s h q rs ∧ t = decodedState s h q rs := by
  rcases execDecmsg_next hx with ⟨⟨h, f, q, rs, d⟩, hm, rfl⟩ | ⟨st, e, -, rfl⟩
  · obtain ⟨x, hl, htxid, hm⟩ := decodeFrom_ok hm
    obtain ⟨rfl, hrc, hf, hq, hrs, hn, hb, hend, hle⟩ := decodeMessage_ok.mp hm
    dsimp only at hf hend
    subst hf hend
    exact ⟨h, q, rs, ⟨hl, htxid, hrc, hn, hq, hrs, hb, hle⟩, putDecoded_eq s h q rs⟩
  · exact absurd herr (errorCode_ne_zero e)

/-- R14: the final cursor is the length of the message, which the 16 bits of `CUR` hold. -/
theorem AcceptsMessage.toCur_length (hm : AcceptsMessage s h q rs) :
    (toCur (wireMessage h q rs).length).toNat = (wireMessage h q rs).length :=
  toCur_toNat (by have := hm.ilen_le; have := hm.fits; omega)

/-- R157: what lies behind the message, and how far `ILEN` reaches beyond it, is not asked for. -/
theorem AcceptsMessage.of_agreeBelow {m : Memory} {n : Half} (hm : AcceptsMessage s h q rs)
    (hag : agreeBelow (wireMessage h q rs).length s.ibuf m) (hle : (wireMessage h q rs).length ≤ n.toNat)
    (hn : n.toNat ≤ 65527) : AcceptsMessage { s with ibuf := m, ilen := n } h q rs :=
  { hm with ilen_le := hn, holds := Memory.holds_of_agreeBelow hag (Nat.zero_add _).le hm.holds, fits := hle }

/-- Settles O39: what is accepted is delivered, and what is delivered was accepted. -/
theorem decmsgAcceptsExactlyTheWireMessages : Obligations.DecmsgAcceptsExactlyTheWireMessages := by
  refine ⟨rfl, fun s x hl hx => ⟨fun h q rs hid hrc hn hq hrs hb hle => ?_, fun t ht herr => ?_⟩⟩
  · exact AcceptsMessage.exec_decmsg ⟨hl, hid ▸ hx, hrc, hn, hq, hrs, hb, hle⟩
  · obtain ⟨h, q, rs, hm, rfl⟩ := acceptsMessage_of_decmsg ht herr
    have hid : h.id = x := Option.some.inj (hm.txid.symm.trans hx)
    exact ⟨h, q, rs, rfl, hid, hm.rcode_le, hm.length_eq, hm.question, hm.records, hm.holds, hm.fits⟩

/-- Settles O43: the properties are those of the message accepted, which is at least 17 bytes and 11 more per record. -/
theorem decodedMessagesHaveTheirProperties : Obligations.DecodedMessagesHaveTheirProperties := by
  intro s t hx herr
  obtain ⟨h, q, rs, hm, rfl⟩ := acceptsMessage_of_decmsg hx herr
  have hcur := hm.toCur_length
  have hge := wireMessage_length_ge h q rs
  have hfits := hm.fits
  have hl := hm.ilen_le
  obtain ⟨hname, htype⟩ := hm.question
  exact ⟨h.flags, h.ancount, h.nscount, h.arcount, q.qtype, toCur (wireMessage h q rs).length, q.name,
    hm.txid.symm, rfl, ⟨rfl, rfl, rfl, rfl, rfl, rfl, rfl, rfl⟩, hm.rcode_le, rfl, htype,
    fun r hr => (hm.records r hr).2.1, rfl, rfl, rfl, congrArg some hm.length_eq, hm.length_eq, rfl,
    hcur.symm ▸ hge, hcur.symm ▸ hfits, rfl, hname, fun r hr => (hm.records r hr).1,
    fun r hr => (hm.records r hr).2.2, by change rs.length ≤ 5955; omega⟩

/-- Settles O44: the message accepted lies below the final cursor. -/
theorem bytesBehindTheMessageDoNotMatter : Obligations.BytesBehindTheMessageDoNotMatter := by
  intro s t c n m hx herr hc hag hcn hn
  obtain ⟨h, q, rs, hm, rfl⟩ := acceptsMessage_of_decmsg hx herr
  obtain rfl : toCur (wireMessage h q rs).length = c := Option.some.inj hc
  rw [hm.toCur_length] at hag hcn
  exact (hm.of_agreeBelow hag hcn hn).exec_decmsg

/-! ### The errors in the order they are met (R152, R153, R158) -/

/-- An error of `decode_message` on readable operands is what DECMSG reports. -/
theorem decmsg_of_raised (hl : s.ilen.toNat ≤ 65527) (hx : s.txid = some x)
    (he : decodeMessage .counts x ⟨s.ibuf, s.ilen.toNat⟩ = .error (st, .raised e)) :
    exec .decmsg s = .next (undecodedState s st e) :=
  execDecmsg_of_raised ((decodeFrom_eq hl hx).trans he)

theorem decodeMessage_id_short (hlt : inp.len < 2) :
    decodeMessage p x inp = .error (.transactionIdCheck, .raised .unexpectedEndOfInput) := by
  simp only [decodeMessage, rd16_short (cur := 0) hlt, inStage, error_bind]

theorem decodeMessage_id_mismatch {id : Half} (hle : 2 ≤ inp.len) (hb : inp.buf.holds 0 (be16 id)) (hne : id ≠ x) :
    decodeMessage p x inp = .error (.transactionIdCheck, .raised (.transactionIdMismatch x id)) := by
  simp only [decodeMessage, rd16_of_holds (cur := 0) hle hb, checkId_error.mpr ⟨hne, rfl⟩, inStage, ok_bind, error_bind]

/-- Settles O40: both errors end `decode_message` in its first stage. -/
theorem decmsgChecksTheTransactionIdFirst : Obligations.DecmsgChecksTheTransactionIdFirst :=
  fun _ _ hl hx => ⟨fun hlt => decmsg_of_raised hl hx (decodeMessage_id_short hlt),
    fun _ hle hb hne => decmsg_of_raised hl hx (decodeMessage_id_mismatch hle hb hne)⟩

/-- A field of a stage ends too early, or it is read and the end of the input is met behind it. -/
theorem rd16_inStage_unexpectedEnd {α : Type} {cur : Nat} {f : Half × Nat → Except (Stage × Halt) α}
    (hfill : filledBelow inp.len inp.buf)
    (hrest : cur + 2 ≤ inp.len → ∀ v, f (v, cur + 2) = .error (st, .raised .unexpectedEndOfInput)) :
    (inStage st (rd16 inp cur) >>= f) = .error (st, .raised .unexpectedEndOfInput) := by
  by_cases hle : cur + 2 ≤ inp.len
  · obtain ⟨v, hv⟩ := rd16_of_filled hfill hle
    rw [hv]
    exact hrest hle v
  · rw [rd16_short (Nat.not_le.mp hle)]
    rfl

theorem checkId_self (x : Half) : checkId x x = .ok () := checkId_ok.mpr rfl

theorem inStage_of_ok {α : Type} (st : Stage) (v : α) : inStage st (.ok v) = .ok v := rfl

/-- R65: the response code of a flag word, checked as the 16-bit value of its four bits. -/
theorem rcode_setWidth_toNat (w : Half) : ((hdrDecode w).rcode.setWidth 16).toNat = (hdrDecode w).rcode.toNat := by
  rw [BitVec.toNat_setWidth, Nat.mod_eq_of_lt]
  omega

/-! A message that carries the expected id. -/

section header
variable (hle : 2 ≤ inp.len) (hid : inp.buf.holds 0 (be16 x))
include hle hid

theorem decodeMessage_flags_short (hlt : inp.len < 4) :
    decodeMessage p x inp = .error (.header, .raised .unexpectedEndOfInput) := by
  simp only [decodeMessage, rd16_of_holds (cur := 0) hle hid, Nat.zero_add, checkId_self,
    rd16_short (cur := 2) hlt, inStage, ok_bind, error_bind]

variable (hle4 : 4 ≤ inp.len) (hw : inp.buf.holds 2 (be16 w))
include hle4 hw

theorem decodeMessage_rcode_unknown (hrc : 6 ≤ (hdrDecode w).rcode.toNat) :
    decodeMessage p x inp = .error (.header, .raised (.unknownResponseCode ((hdrDecode w).rcode.setWidth 16))) := by
  have herr := rcodeDecode_error.mpr ⟨rfl, (rcode_setWidth_toNat w).symm ▸ hrc⟩
  simp only [decodeMessage, rd16_of_holds (cur := 0) hle hid, Nat.zero_add, checkId_self,
    rd16_of_holds (cur := 2) hle4 hw, herr, inStage, ok_bind, error_bind]

theorem decodeMessage_counts_short (hrc : (hdrDecode w).rcode.toNat ≤ 5) (hlt : inp.len < 12)
    (hfill : filledBelow inp.len inp.buf) :
    decodeMessage p x inp = .error (.header, .raised .unexpectedEndOfInput) := by
  have hok := rcodeDecode_ok.mpr ⟨rfl, (rcode_setWidth_toNat w).symm ▸ hrc⟩
  simp only [decodeMessage, rd16_of_holds (cur := 0) hle hid, Nat.zero_add, checkId_self,
    rd16_of_holds (cur := 2) hle4 hw, hok, inStage_of_ok, ok_bind]
  refine rd16_inStage_unexpectedEnd hfill fun _ qd => ?_
  refine rd16_inStage_unexpectedEnd hfill fun _ an => ?_
  refine rd16_inStage_unexpectedEnd hfill fun _ ns => ?_
  exact rd16_inStage_unexpectedEnd hfill fun h12 ar => absurd hlt (Nat.not_lt.mpr h12)

end header

/-- Settles O41: the three errors of the header, each where `decode_message` meets it. -/
theorem decmsgChecksTheResponseCodeBeforeTheCounts : Obligations.DecmsgChecksTheResponseCodeBeforeTheCounts := by
  refine fun s x hl hx hle hid => ⟨fun hlt => ?_, fun w hle4 hw => ⟨fun hrc => ?_, fun hrc hlt hfill => ?_⟩⟩
  · exact decmsg_of_raised hl hx (decodeMessage_flags_short hle hid hlt)
  · exact decmsg_of_raised hl hx (decodeMessage_rcode_unknown hle hid hle4 hw hrc)
  · exact decmsg_of_raised hl hx (decodeMessage_counts_short hle hid hle4 hw hrc hlt hfill)

/-! ### The stage left in `STAGE` (R16, R158) -/

theorem decodeMessage_question_raised (hrc : (hdrDecode h.flags).rcode.toNat ≤ 5)
    (hb : inp.buf.holds 0 (wireHeader h)) (hle : 12 ≤ inp.len) (he : questionParse inp 12 = .error (.raised e)) :
    decodeMessage p h.id inp = .error (.question, .raised e) := by
  rw [decodeMessage_behindHeader p hrc hb hle, he]
  rfl

/-- Behind a question and some of the records promised, the error of the next record is that of the whole message. -/
theorem decodeMessage_record_raised (hrc : (hdrDecode h.flags).rcode.toNat ≤ 5) (hq : legalQuestion q)
    (hrs : ∀ r ∈ rs, legalRecord r) (hb : inp.buf.holds 0 (wireMessage h q rs))
    (hle : (wireMessage h q rs).length ≤ inp.len) (hn : rs.length < promisedRecords h)
    (he : rrParse inp (wireMessage h q rs).length = .error (.raised e)) :
    decodeMessage .counts h.id inp = .error (.records, .raised e) := by
  simp only [wireMessage, Memory.holds_append, List.length_append, wireHeader_length, Nat.zero_add] at hb hle he
  obtain ⟨⟨hh, hqb⟩, hrb⟩ := hb
  have hquestion : questionParse inp 12 = .ok (q, 12 + (wireQuestion q).length) :=
    questionParse_ok.mpr ⟨hq, hqb, rfl, by omega⟩
  have hrecords : parseSections .counts h.ancount h.nscount h.arcount inp (12 + (wireQuestion q).length) =
      .error (.raised e) :=
    parseRecords_behind hrs hrb hle hn he
  rw [decodeMessage_behindHeader .counts hrc hh (by omega), hquestion]
  simp only [inStage, ok_bind, hrecords, error_bind]

/-- R158: the code in `ERR` beside each stage DECMSG can fail in. -/
theorem stageError_codes (he : stageError st e x) :
    (stageCode st = 1 ∧ (errorCode e = 1 ∨ errorCode e = 7)) ∨
      (stageCode st = 2 ∧ (errorCode e = 1 ∨ errorCode e = 6)) ∨
      ((stageCode st = 3 ∨ stageCode st = 4) ∧ (errorCode e = 1 ∨ errorCode e = 4 ∨ errorCode e = 5)) := by
  have hparse : parseError e → errorCode e = 1 ∨ errorCode e = 4 ∨ errorCode e = 5 := by
    rintro (rfl | rfl | ⟨t, rfl, -⟩) <;> simp [errorCode]
  cases st with
  | start | done => exact he.elim
  | transactionIdCheck =>
    refine .inl ⟨rfl, ?_⟩
    rcases he with rfl | ⟨id, -, rfl⟩ <;> simp [errorCode]
  | header =>
    refine .inr (.inl ⟨rfl, ?_⟩)
    rcases he with rfl | ⟨v, -, -, rfl⟩ <;> simp [errorCode]
  | question => exact .inr (.inr ⟨.inl rfl, hparse he⟩)
  | records => exact .inr (.inr ⟨.inr rfl, hparse he⟩)

theorem outputGroup_ne_message {i : Instr} (hi : i ≠ .decmsg) : outputGroup i ≠ .message := by
  cases i <;> simp_all [outputGroup]

/-- R30: `STAGE` is an output of DECMSG alone. -/
theorem exec_stage_of_ne_decmsg {i : Instr} (hi : i ≠ .decmsg) (hx : exec i s = .next t) : t.stage = s.stage := by
  have hframe := onlyDeclaredOutputsChange i s t hx
  unfold onlyOutputsChanged at hframe
  rw [hframe, takeReport_stage, takeOutputs_stage_of (by simpa using outputGroup_ne_message hi)]

/-- Settles O42: DECMSG ends in Done or in the stage `decode_message` failed in, and nothing else writes `STAGE`. -/
theorem stageNamesTheStageThatFailed : Obligations.StageNamesTheStageThatFailed := by
  refine ⟨⟨rfl, rfl, rfl, rfl, rfl, rfl⟩, fun s t hx => ?_, fun s h hl hid hrc hb hle => ⟨fun e he => ?_,
    fun q rs e hq hrs hm hlen hn he => ?_⟩, fun i s t hi hx => exec_stage_of_ne_decmsg hi hx⟩
  · rcases execDecmsg_next hx with ⟨m, -, rfl⟩ | ⟨st, e, hd, rfl⟩
    · exact .inl ⟨rfl, rfl⟩
    · obtain ⟨x, -, -, hd⟩ := decodeFrom_raised hd
      exact .inr (stageError_codes (decodeMessage_raised hd))
  · exact ⟨decmsg_of_raised hl hid (decodeMessage_question_raised hrc hb hle he), rfl⟩
  · exact ⟨decmsg_of_raised hl hid (decodeMessage_record_raised hrc hq hrs hm hlen hn he), rfl⟩

end Sys2Proof.Machine
end

section
/-! SUPPORT. How every row ends (R170, R180): in success, or in an error the table of R170 lets it raise, its declared outputs
then holding no value. -/

namespace Sys2Proof.Machine

variable {α β : Type}

/-! ### Which errors a run can raise -/

/-- A run that ends in an error ends in one the predicate allows; a refusal is no error (R29). -/
def raisesOnly (p : CodecError → Prop) (r : Run α) : Prop := ∀ e, r = .error (.raised e) → p e

section runs
variable {p : CodecError → Prop}

theorem raisesOnly_ok (v : α) : raisesOnly p (.ok v) := fun _ h => by cases h

/-- A sequence raises what its parts raise. -/
theorem raisesOnly_bind {x : Run α} {f : α → Run β} (hx : raisesOnly p x) (hf : ∀ a, raisesOnly p (f a)) :
    raisesOnly p (x >>= f) := by
  intro e he
  rcases bind_eq_error.mp he with he | ⟨a, -, he⟩
  · exact hx e he
  · exact hf a e he

/-! Reading an operand raises nothing: it is refused where the operand cannot be read (R29, R15). -/

theorem readHeld_raisesOnly (l : Loc) (r : Held α) : raisesOnly p (readHeld l r) := by
  simp [raisesOnly, readHeld_eq_error]

theorem headerWordOf_raisesOnly (s : State) : raisesOnly p (headerWordOf s) := by
  simp [raisesOnly, headerWordOf, bind_eq_error, readHeld_eq_error]

theorem hostnameOf_raisesOnly (s : State) : raisesOnly p (hostnameOf s) := by
  intro e he
  by_cases hl : s.hlen.toNat ≤ Config.hmax
  · rw [hostnameOf_eq hl] at he
    exact absurd he bytesAt_not_raised
  · rw [hostnameOf_long (by omega)] at he
    cases he

/-- A cursor command raises what its function raises. -/
theorem atCursor_raisesOnly {f : Input → Nat → Run α} (s : State) (hf : ∀ inp c, raisesOnly p (f inp c)) :
    raisesOnly p (atCursor f s) := by
  intro e he
  obtain ⟨-, c, -, he⟩ := atCursor_raised.mp he
  exact hf _ _ e he

theorem rtypeDecode_raisesOnly {v : Half} (hp : ¬ knownType v → p (.unknownRecordType v)) :
    raisesOnly p (rtypeDecode v) := by
  intro e he
  obtain ⟨⟨⟩, hv⟩ := rtypeDecode_error.mp he
  exact hp hv

theorem rcodeDecode_raisesOnly {v : Half} (hp : 5 < v.toNat → p (.unknownResponseCode v)) :
    raisesOnly p (rcodeDecode v) := by
  intro e he
  obtain ⟨⟨⟩, hv⟩ := rcodeDecode_error.mp he
  exact hp hv

theorem nameEncode_raisesOnly (h : List Byte) (hlabel : p .labelTooLong) (hname : p .nameTooLong) :
    raisesOnly p (nameEncode h) := by
  intro e he
  rcases nameEncode_error.mp he with ⟨⟨⟩, -⟩ | ⟨⟨⟩, -⟩
  · exact hlabel
  · exact hname

end runs

/-! ### The rows of the error table (R170) -/

theorem mayRaise_of_parseError {i : Instr} {e : CodecError} (hi : i ∈ ([.qparse, .rrparse, .decmsg] : List Instr))
    (he : parseError e) : mayRaise i e := by
  simp only [List.mem_cons, List.not_mem_nil, or_false] at hi
  rcases he with rfl | rfl | ⟨t, rfl, -⟩ <;> rcases hi with rfl | rfl | rfl <;> simp [mayRaise]

theorem mayRaise_of_stageError {st : Stage} {e : CodecError} {x : Half} (he : stageError st e x) :
    mayRaise .decmsg e := by
  cases st with
  | start | done => exact he.elim
  | transactionIdCheck => rcases he with rfl | ⟨id, -, rfl⟩ <;> simp [mayRaise]
  | header => rcases he with rfl | ⟨v, -, -, rfl⟩ <;> simp [mayRaise]
  | question | records => exact mayRaise_of_parseError (by simp) he

theorem decodeFrom_raisesOnly (s : State) : raisesOnly (mayRaise .decmsg) (dropStage (decodeFrom s)) := by
  intro e he
  obtain ⟨st, hd⟩ := dropStage_error.mp he
  obtain ⟨x, -, -, hd⟩ := decodeFrom_raised hd
  exact mayRaise_of_stageError (decodeMessage_raised hd)

/-! ### How a row ends -/

/-- R170, R180: the row has succeeded, or it has raised an error it may raise and none of its outputs holds a value. -/
def EndsByTheTable (i : Instr) (t : State) : Prop :=
  reports t none ∨ ∃ e, reports t (some e) ∧ mayRaise i e ∧ outputsHoldNoValue (outputGroup i) t

section ends
variable {i : Instr} {s t : State}

theorem outputsHoldNoValue_takeError {g : OutputGroup} {e : CodecError} (h : outputsHoldNoValue g s) :
    outputsHoldNoValue g (s.takeError e) := by
  cases g <;> exact h

/-- A run that raises what the row may raise, and an update that clears the row's outputs. -/
theorem finish_endsByTheTable {r : Run α} {put : Held α → State → State} (h : finish r put s = .next t)
    (hr : raisesOnly (mayRaise i) r) (hput : outputsHoldNoValue (outputGroup i) (put none s)) : EndsByTheTable i t := by
  rcases finish_next.mp h with ⟨v, -, rfl⟩ | ⟨e, he, rfl⟩
  · exact .inl ⟨rfl, rfl, rfl⟩
  · exact .inr ⟨e, ⟨rfl, rfl, rfl⟩, hr e he, outputsHoldNoValue_takeError hput⟩

/-- A length octet runs out of input as a label only, and is invalid from 64 on. -/
theorem lengthOctet_endsByTheTable {n : Byte} (hg : outputGroup i = .name)
    (hlabel : 1 ≤ n.toNat ∧ n.toNat ≤ 63 → mayRaise i .unexpectedEndOfInput)
    (hreserved : 64 ≤ n.toNat → mayRaise i .invalidLabelLength) (h : lengthOctet n s = .next t) : EndsByTheTable i t := by
  refine finish_endsByTheTable h (atCursor_raisesOnly s fun inp c e he => ?_) (hg ▸ ⟨rfl, rfl⟩)
  rcases lenTurn_raised.mp he with ⟨rfl, hn, -⟩ | ⟨rfl, hn⟩
  · exact hlabel hn
  · exact hreserved hn

/-- Every row ends as R170 and R180 say. -/
theorem exec_endsByTheTable (h : exec i s = .next t) : EndsByTheTable i t := by
  cases i with
  | pack16 =>
    rw [exec_pack16] at h
    exact finish_endsByTheTable h (raisesOnly_bind (readHeld_raisesOnly _ _) fun _ => raisesOnly_ok _)
      ⟨rfl, fun _ => rfl⟩
  | unpack16 =>
    rw [exec_unpack16] at h
    refine finish_endsByTheTable h (atCursor_raisesOnly s fun inp c e he => ?_) ⟨rfl, rfl⟩
    obtain ⟨rfl, -⟩ := rd16_raised.mp he
    simp [mayRaise]
  | unpack32 =>
    rw [exec_unpack32] at h
    refine finish_endsByTheTable h (atCursor_raisesOnly s fun inp c e he => ?_) ⟨rfl, rfl⟩
    obtain ⟨rfl, -⟩ := rd32_raised.mp he
    simp [mayRaise]
  | nameenc =>
    rw [exec_nameenc] at h
    exact finish_endsByTheTable h (raisesOnly_bind (hostnameOf_raisesOnly s) fun name =>
      nameEncode_raisesOnly name (by simp [mayRaise]) (by simp [mayRaise])) ⟨rfl, fun _ => rfl⟩
  | namedec =>
    rw [exec_namedec] at h
    refine finish_endsByTheTable h (atCursor_raisesOnly s fun inp c e he => ?_) ⟨rfl, rfl⟩
    rcases nameDecode_error_cases he with rfl | rfl <;> simp [mayRaise]
  | hdrenc =>
    rw [exec_hdrenc] at h
    exact finish_endsByTheTable h (headerWordOf_raisesOnly s) rfl
  | hdrdec =>
    rw [exec_hdrdec] at h
    exact finish_endsByTheTable h (raisesOnly_bind (readHeld_raisesOnly _ _) fun _ => raisesOnly_ok _) rfl
  | rcdec =>
    rw [exec_rcdec] at h
    exact finish_endsByTheTable h (raisesOnly_bind (readHeld_raisesOnly _ _) fun _ =>
      rcodeDecode_raisesOnly fun _ => by simp [mayRaise]) rfl
  | rtdec =>
    rw [exec_rtdec] at h
    exact finish_endsByTheTable h (raisesOnly_bind (readHeld_raisesOnly _ _) fun _ =>
      rtypeDecode_raisesOnly fun _ => by simp [mayRaise]) rfl
  | qparse =>
    rw [exec_qparse] at h
    exact finish_endsByTheTable h (atCursor_raisesOnly s fun inp c e he =>
      mayRaise_of_parseError (by simp) (questionParse_error_cases he)) ⟨rfl, rfl⟩
  | rrparse =>
    rw [exec_rrparse] at h
    exact finish_endsByTheTable h (atCursor_raisesOnly s fun inp c e he =>
      mayRaise_of_parseError (by simp) (rrParse_error_cases he)) ⟨rfl, rfl, rfl⟩
  | encq =>
    rw [exec_encq] at h
    refine finish_endsByTheTable h ?_ ⟨rfl, fun _ => rfl⟩
    refine raisesOnly_bind (hostnameOf_raisesOnly s) fun name => raisesOnly_bind (readHeld_raisesOnly _ _) fun type =>
      raisesOnly_bind (readHeld_raisesOnly _ _) fun id => raisesOnly_bind ?_ fun _ => raisesOnly_bind ?_ fun _ =>
        raisesOnly_ok _
    · exact nameEncode_raisesOnly name (by simp [mayRaise]) (by simp [mayRaise])
    · exact rtypeDecode_raisesOnly fun _ => by simp [mayRaise]
  | decmsg =>
    rw [exec_decmsg] at h
    exact finish_endsByTheTable h (decodeFrom_raisesOnly s) ⟨rfl, rfl, rfl, rfl, rfl, rfl⟩
  | cmdUnassigned0 | cmdUnassignedE | cmdUnassignedF => cases h
  | lenEnd => exact lengthOctet_endsByTheTable rfl (fun hn => absurd hn (by decide)) (fun hn => absurd hn (by decide)) h
  | lenLabel n =>
    refine lengthOctet_endsByTheTable rfl (fun _ => .inr ⟨n, rfl⟩) (fun hn => ?_) h
    rw [labelOctet_toNat] at hn
    omega
  | lenRsv01 x | lenRsv10 x | lenPtr x =>
    refine lengthOctet_endsByTheTable rfl (fun hn => ?_) (fun _ => .inr ⟨x, by simp⟩) h
    have := reservedOctet_range x
    omega
  -- a field taken raw, or one that holds a code or a type with a name of its own, always succeeds
  | flags | flagsQuery | opcodeStandardQuery | opcodeUnnamed | classIn | classOther
  | rcodeNoError | rcodeFormatError | rcodeServerFailure | rcodeNameError | rcodeNotImplemented | rcodeRefused
  | rtypeA | rtypeNs | rtypeCname | rtypeSoa | rtypeWks | rtypePtr | rtypeMx | rtypeTxt =>
    cases h
    exact .inl ⟨rfl, rfl, rfl⟩
  | rcodeUnknown c =>
    rw [exec_rcodeUnknown, rcodePattern_eq] at h
    exact finish_endsByTheTable h (rcodeDecode_raisesOnly fun _ => .inr ⟨c, rfl⟩) rfl
  | rtypeUnknown v =>
    rw [exec_rtypeUnknown, rtypePattern_eq] at h
    exact finish_endsByTheTable h (rtypeDecode_raisesOnly fun _ => .inr ⟨v, rfl⟩) rfl

end ends

/-! ### The statements -/

/-- Settles O14: the report is the one the row ends with, and the codes and carried values are those of the definitions. -/
theorem reportsFollowTheErrorTable : Obligations.ReportsFollowTheErrorTable := by
  refine ⟨fun i s t h => ?_, ⟨rfl, rfl, rfl, rfl⟩, fun v => ⟨rfl, rfl, rfl, rfl, rfl, rfl⟩,
    fun v w => ⟨rfl, rfl, rfl⟩, by decide⟩
  exact (exec_endsByTheTable h).imp_right fun ⟨e, hrep, hmay, _⟩ => ⟨e, hrep, hmay⟩

/-- Settles O15: a row that has not succeeded has raised an error and cleared its outputs; the rest is its frame, and the
stage is one DECMSG can fail in. -/
theorem aFailedCommandLeavesNoResult : Obligations.AFailedCommandLeavesNoResult := by
  intro i s t h herr
  have hframe := onlyDeclaredOutputsChange i s t h
  have hstage : i = .decmsg → t.stage ∈ ([1, 2, 3, 4] : List (BitVec 3)) := by
    rintro rfl
    obtain ⟨-, hends, -⟩ := stageNamesTheStageThatFailed
    rcases hends s t h with ⟨h0, -⟩ | ⟨hst, -⟩ | ⟨hst, -⟩ | ⟨hst | hst, -⟩
    · exact absurd h0 herr
    all_goals simp [hst]
  rcases exec_endsByTheTable h with ⟨h0, -⟩ | ⟨e, hrep, hmay, hnone⟩
  · exact absurd h0 herr
  · exact ⟨⟨e, hrep, hmay⟩, hnone, hframe, hstage⟩

end Sys2Proof.Machine
end

section
/-! SUPPORT. Where the block's runs begin: a row whose inputs the host has written is not refused, so it reaches an end
(R204, R207, R210), and what the commands do before anything has been written (R201). -/

namespace Sys2Proof.Machine

variable {α : Type} {s : State}

/-! ### Operands the host has written (R204)

Each group of declared inputs, once written, gives operands that are never refused. -/

theorem readHeld_neverRefuses {l : Loc} {r : Held α} (h : r ≠ none) : neverRefuses (readHeld l r) :=
  fun _ he => h (readHeld_eq_error.mp he).1

theorem argOf_neverRefuses (h : s.arg ≠ none) : neverRefuses (argOf s) := readHeld_neverRefuses h

theorem txidOf_neverRefuses (h : s.txid ≠ none) : neverRefuses (txidOf s) := readHeld_neverRefuses h

/-- HDRENC reads seven fields, each of which is written. -/
theorem headerWordOf_neverRefuses (h : inputsReady .header s) : neverRefuses (headerWordOf s) := by
  obtain ⟨hqr, hopcode, haa, htc, hrd, hra, hrcode⟩ := h
  refine neverRefuses_bind (readHeld_neverRefuses hqr) fun _ _ => ?_
  refine neverRefuses_bind (readHeld_neverRefuses hopcode) fun _ _ => ?_
  refine neverRefuses_bind (readHeld_neverRefuses haa) fun _ _ => ?_
  refine neverRefuses_bind (readHeld_neverRefuses htc) fun _ _ => ?_
  refine neverRefuses_bind (readHeld_neverRefuses hrd) fun _ _ => ?_
  refine neverRefuses_bind (readHeld_neverRefuses hra) fun _ _ => ?_
  exact neverRefuses_bind (readHeld_neverRefuses hrcode) fun _ _ => neverRefuses_ok _

/-- A buffer filled below a bound holds a byte string of that length. -/
theorem exists_holds_of_filledBelow {m : Memory} {n : Nat} (h : filledBelow n m) :
    ∃ bs, bs.length = n ∧ m.holds 0 bs := by
  have hnever : neverRefuses (bytesAt .ibuf m 0 n) := bytesAt_neverRefuses (inp := ⟨m, n⟩) h (by simp)
  obtain ⟨bs, hbs⟩ := ok_of_neverRefuses hnever fun _ => bytesAt_not_raised
  exact ⟨bs, bytesAt_ok.mp hbs⟩

theorem hostnameOf_neverRefuses (h : inputsReady .hostname s) : neverRefuses (hostnameOf s) := by
  obtain ⟨hle, hfill⟩ := h
  obtain ⟨name, hname⟩ := exists_holds_of_filledBelow hfill
  rw [hostnameOf_ok.mpr ⟨hle, hname⟩]
  exact neverRefuses_ok _

/-- A cursor command is refused only where its function is, on an input that is filled. -/
theorem atCursor_neverRefuses {f : Input → Nat → Run α} (h : inputsReady .field s)
    (hf : ∀ inp cur, filledBelow inp.len inp.buf → neverRefuses (f inp cur)) : neverRefuses (atCursor f s) := by
  obtain ⟨hle, hcur, hfill⟩ := h
  obtain ⟨c, hc⟩ := Option.ne_none_iff_exists'.mp hcur
  rw [atCursor_eq hle hc]
  exact hf _ _ hfill

/-- The only errors of the encoder are its two length checks (R100). -/
theorem nameEncode_neverRefuses (h : List Byte) : neverRefuses (nameEncode h) := by
  simp [neverRefuses, nameEncode_error]

theorem encodeQuery_neverRefuses (h : List Byte) (v id : Half) : neverRefuses (encodeQuery h v id) :=
  neverRefuses_bind (nameEncode_neverRefuses h) fun _ _ =>
    neverRefuses_bind (rtypeDecode_neverRefuses v) fun _ _ => neverRefuses_ok _

theorem decodeFrom_neverRefuses (h : inputsReady .message s) : neverRefuses (dropStage (decodeFrom s)) := by
  obtain ⟨hle, hfill, htxid⟩ := h
  obtain ⟨x, hx⟩ := Option.ne_none_iff_exists'.mp htxid
  intro why hwhy
  obtain ⟨st, hst⟩ := dropStage_error.mp hwhy
  rw [decodeFrom_eq hle hx] at hst
  exact decodeMessage_neverRefuses hfill st why hst

/-! ### Every row reaches a next state (R210) -/

/-- A length octet takes what it needs from a filled input, or raises. -/
theorem lengthOctet_reachesNext (h : inputsReady .field s) (n : Byte) : ∃ t, lengthOctet n s = .next t :=
  finish_of_neverRefuses (atCursor_neverRefuses h fun _ _ hfill => lenTurn_neverRefuses hfill) _ s

theorem rcodePattern_reachesNext (s : State) (c : BitVec 4) : ∃ t, rcodePattern c s = .next t :=
  finish_of_neverRefuses (rcodeDecode_neverRefuses _) _ s

theorem rtypePattern_reachesNext (s : State) (v : Half) : ∃ t, rtypePattern v s = .next t :=
  finish_of_neverRefuses (rtypeDecode_neverRefuses v) _ s

/-- With its inputs written, every row but an unassigned code reaches a next state. -/
theorem exec_reachesNext {i : Instr} (hi : i ∉ ([.cmdUnassigned0, .cmdUnassignedE, .cmdUnassignedF] : List Instr))
    (h : inputsReady (inputGroup i) s) : ∃ t, exec i s = .next t := by
  cases i with
  | pack16 =>
    rw [exec_pack16]
    exact finish_of_neverRefuses (neverRefuses_bind (argOf_neverRefuses h) fun _ _ => neverRefuses_ok _) _ s
  | unpack16 =>
    rw [exec_unpack16]
    exact finish_of_neverRefuses (atCursor_neverRefuses h fun _ _ hfill => rd16_neverRefuses hfill) _ s
  | unpack32 =>
    rw [exec_unpack32]
    exact finish_of_neverRefuses (atCursor_neverRefuses h fun _ _ hfill => rd32_neverRefuses hfill) _ s
  | nameenc =>
    rw [exec_nameenc]
    exact finish_of_neverRefuses
      (neverRefuses_bind (hostnameOf_neverRefuses h) fun name _ => nameEncode_neverRefuses name) _ s
  | namedec =>
    rw [exec_namedec]
    exact finish_of_neverRefuses (atCursor_neverRefuses h fun _ _ hfill => nameDecode_neverRefuses hfill) _ s
  | hdrenc =>
    rw [exec_hdrenc]
    exact finish_of_neverRefuses (headerWordOf_neverRefuses h) _ s
  | hdrdec =>
    rw [exec_hdrdec]
    exact finish_of_neverRefuses (neverRefuses_bind (argOf_neverRefuses h) fun _ _ => neverRefuses_ok _) _ s
  | rcdec =>
    rw [exec_rcdec]
    exact finish_of_neverRefuses (neverRefuses_bind (argOf_neverRefuses h) fun v _ => rcodeDecode_neverRefuses v) _ s
  | rtdec =>
    rw [exec_rtdec]
    exact finish_of_neverRefuses (neverRefuses_bind (argOf_neverRefuses h) fun v _ => rtypeDecode_neverRefuses v) _ s
  | qparse =>
    rw [exec_qparse]
    exact finish_of_neverRefuses (atCursor_neverRefuses h fun _ _ hfill => questionParse_neverRefuses hfill) _ s
  | rrparse =>
    rw [exec_rrparse]
    exact finish_of_neverRefuses (atCursor_neverRefuses h fun _ _ hfill => rrParse_neverRefuses hfill) _ s
  | encq =>
    obtain ⟨hle, hfill, harg, htxid⟩ := h
    rw [exec_encq]
    refine finish_of_neverRefuses (neverRefuses_bind (hostnameOf_neverRefuses ⟨hle, hfill⟩) fun name _ => ?_) _ s
    exact neverRefuses_bind (argOf_neverRefuses harg) fun v _ =>
      neverRefuses_bind (txidOf_neverRefuses htxid) fun id _ => encodeQuery_neverRefuses name v id
  | decmsg =>
    rw [exec_decmsg]
    exact finish_of_neverRefuses (decodeFrom_neverRefuses h) _ s
  | cmdUnassigned0 | cmdUnassignedE | cmdUnassignedF => simp at hi
  | lenEnd | lenLabel | lenRsv01 | lenRsv10 | lenPtr => exact lengthOctet_reachesNext h _
  | rcodeUnknown c => exact rcodePattern_reachesNext s c
  | rtypeUnknown v => exact rtypePattern_reachesNext s v
  -- a field taken raw, or one that holds a code or a type with a name of its own, needs no input and always succeeds
  | flags | flagsQuery | opcodeStandardQuery | opcodeUnnamed | classIn | classOther
  | rcodeNoError | rcodeFormatError | rcodeServerFailure | rcodeNameError | rcodeNotImplemented | rcodeRefused
  | rtypeA | rtypeNs | rtypeCname | rtypeSoa | rtypeWks | rtypePtr | rtypeMx | rtypeTxt => exact ⟨_, rfl⟩

/-- Settles O16: a row with its inputs written reaches a next state, and how it ends there is the error table's. -/
theorem readyInputsAlwaysReachAnEnd : Obligations.ReadyInputsAlwaysReachAnEnd := by
  intro i s hi hready
  obtain ⟨hends, -⟩ := reportsFollowTheErrorTable
  obtain ⟨t, ht⟩ := exec_reachesNext hi hready
  exact ⟨t, ht, hends i s t ht⟩

/-! ### The reset state (R201) -/

/-- At reset the hostname is the empty one, which encodes to the root name. -/
theorem nameenc_reset : exec .nameenc State.reset = .next { State.reset with obuf := [(0, 0x00)], olen := some 1 } :=
  nameenc_of_ok (h := []) (Nat.zero_le _) rfl trivial rfl

/-- No field fits into the empty input. -/
theorem reads_of_empty_raised (m : Memory) :
    rd16 ⟨m, 0⟩ 0 = .error (.raised .unexpectedEndOfInput) ∧ rd32 ⟨m, 0⟩ 0 = .error (.raised .unexpectedEndOfInput) ∧
      nameDecode ⟨m, 0⟩ 0 = .error (.raised .unexpectedEndOfInput) :=
  ⟨rfl, rfl, rfl⟩

/-- At reset a cursor command takes the error its function raises on the empty input. -/
theorem cursorCommand_reset {i : Instr} {f : Input → Nat → Run α} {put : Held α → State → State} {e : CodecError}
    (hi : exec i State.reset = finish (atCursor f State.reset) put State.reset) (hf : f ⟨[], 0⟩ 0 = .error (.raised e)) :
    ∃ t, exec i State.reset = .next t ∧ reports t (some e) :=
  ⟨_, hi.trans (finish_atCursor_raised (c := 0) (Nat.zero_le _) rfl hf), rfl, rfl, rfl⟩

/-- Settles O9: the lengths and `CUR` are 0, so the cursor commands find no byte and NAMEENC no label; of the registers
read first none holds a value. -/
theorem commandsOnTheResetState : Obligations.CommandsOnTheResetState := by
  obtain ⟨harg, -, htxid, -, hquery, -⟩ := inputsWithoutAValueAreRefused
  obtain ⟨h16, h32, hname⟩ := reads_of_empty_raised []
  have hquestion := questionParse_of_name_error hname
  refine ⟨nameenc_reset, fun i hi => ?_, fun i hi => ?_, ?_, htxid State.reset rfl (Nat.zero_le _)⟩
  · simp only [List.mem_cons, List.not_mem_nil, or_false] at hi
    rcases hi with rfl | rfl | rfl | rfl | rfl
    · exact cursorCommand_reset (exec_unpack16 _) h16
    · exact cursorCommand_reset (exec_unpack32 _) h32
    · exact cursorCommand_reset (exec_namedec _) hname
    · exact cursorCommand_reset (exec_qparse _) hquestion
    · exact cursorCommand_reset (exec_rrparse _) (rrParse_of_question_error hquestion)
  · rcases List.mem_append.mp (show i ∈ [.pack16, .hdrdec, .rcdec, .rtdec] ++ [.encq] from hi) with hi | hi
    · exact harg State.reset rfl i hi
    · obtain rfl := List.mem_singleton.mp hi
      obtain ⟨hnoArg, -⟩ := hquery State.reset [] (Nat.zero_le _) rfl trivial
      exact hnoArg rfl
  · exact (exec_hdrenc State.reset).trans (finish_bind_refused rfl)

end Sys2Proof.Machine
end

section
/-! SUPPORT. The decoder and the encoder of the opcode table (R64 to R69, R80) undo each other on the well-formed rows, a
step performs the row its word decodes to (R11), and the rows of a flag word, a response code and a record type act as the
commands that read the word from `ARG` (R113, R117, R119). -/

namespace Sys2Proof

/-! ### The parts of a word -/

/-- Log entry 11: a byte is read as four bits exactly when it lays them out under an upper half of 0. -/
theorem nibbleOf_eq_ok {b : Byte} {c : BitVec 4} : nibbleOf b = .ok c ↔ b = 0#4 ++ c := by
  constructor
  · intro h
    unfold nibbleOf at h
    split at h
    · rename_i hb
      obtain rfl : b.extractLsb' 0 4 = c := Except.ok.inj h
      rw [← show b.extractLsb' 4 4 = 0#4 from hb]
      exact (BitVec.extractLsb'_append_extractLsb' (w := 4) (len := 4)).symm
    · cases h
  · rintro rfl
    exact (if_pos BitVec.extractLsb'_append_eq_left).trans (congrArg Except.ok BitVec.extractLsb'_append_eq_right)

/-- R64: a length octet is one of four two-bit classes over six bits. -/
theorem lengthOctet_classes (n : Byte) :
    ∃ x : BitVec 6, n = 0b00#2 ++ x ∨ n = 0b01#2 ++ x ∨ n = 0b10#2 ++ x ∨ n = 0b11#2 ++ x := by
  have hn : n.extractLsb' 6 2 ++ n.extractLsb' 0 6 = n := BitVec.extractLsb'_append_extractLsb' (w := 2) (len := 6)
  have hp : ∀ p : BitVec 2, p = 0b00 ∨ p = 0b01 ∨ p = 0b10 ∨ p = 0b11 := by decide
  refine ⟨n.extractLsb' 0 6, ?_⟩
  rcases hp (n.extractLsb' 6 2) with h | h | h | h <;> rw [h] at hn
  · exact .inl hn.symm
  · exact .inr (.inl hn.symm)
  · exact .inr (.inr (.inl hn.symm))
  · exact .inr (.inr (.inr hn.symm))

/-- Two bytes are read as the 16 bits of one behind the other. -/
theorem unbe16_eq_append (x : BitVec (1 + 4 + 1 + 1 + 1)) (y : BitVec (1 + 3 + 4)) : unbe16 x y = (x ++ y).setWidth 16 :=
  BitVec.setWidth_append_eq_shiftLeft_setWidth_or.symm

/-- R65, R71: the two bytes of the FLAGS row are its flag word. -/
theorem encode_flags (q : BitVec 1) (o : BitVec 4) (a t d r : BitVec 1) (z : BitVec 3) (c : BitVec 4) :
    encode (.flags q o a t d r z c) = be16 (flagWord ⟨q, o, a, t, d, r, z, c⟩) := by
  refine ((be16_eq_iff _ _ _).mpr ?_).symm
  rw [unbe16_eq_append]
  simp only [flagWord, BitVec.setWidth_append_eq_shiftLeft_setWidth_or, BitVec.shiftLeft_or_distrib,
    ← BitVec.shiftLeft_add, BitVec.or_assoc]

/-! ### The rows that keep bits of their word: when they are well formed, and the words they are read from -/

section wellFormed
variable {q a t d r : BitVec 1} {o c : BitVec 4} {z : BitVec 3} {n : BitVec 6} {v : Half}

theorem wellFormed_lenLabel : WellFormed (.lenLabel n) = true ↔ n ≠ 0 := bne_iff_ne

theorem wellFormed_flags :
    WellFormed (.flags q o a t d r z c) = true ↔ flagWord ⟨q, o, a, t, d, r, z, c⟩ ≠ 0x0100 := bne_iff_ne

theorem wellFormed_opcodeUnnamed : WellFormed (.opcodeUnnamed o) = true ↔ o ≠ 0 := bne_iff_ne

theorem wellFormed_rcodeUnknown :
    WellFormed (.rcodeUnknown c) = true ↔ responseCodeOf (c.setWidth 16) = none := beq_iff_eq

theorem wellFormed_rtypeUnknown : WellFormed (.rtypeUnknown v) = true ↔ recordTypeOf v = none := beq_iff_eq

theorem wellFormed_classOther : WellFormed (.classOther v) = true ↔ v ≠ 1 := bne_iff_ne

end wellFormed

/-- R64: six bits under 00 are a label's length, unless all are 0. -/
theorem decodeLen_label : ∀ {n : BitVec 6}, n ≠ 0 → decodeLen (0b00#2 ++ n) = .lenLabel n := by decide

theorem decodeLen_rsv01 : ∀ x : BitVec 6, decodeLen (0b01#2 ++ x) = .lenRsv01 x := by decide

theorem decodeLen_rsv10 : ∀ x : BitVec 6, decodeLen (0b10#2 ++ x) = .lenRsv10 x := by decide

theorem decodeLen_ptr : ∀ x : BitVec 6, decodeLen (0b11#2 ++ x) = .lenPtr x := by decide

theorem decodeFlags_flagWord {f : FlagFields} (h : flagWord f ≠ 0x0100) :
    decodeFlags (flagWord f) = .flags f.qr f.opcode f.aa f.tc f.rd f.ra f.z f.rcode := by
  simp only [decodeFlags, if_neg h, hdrDecode_flagWord]

theorem decodeOpcode_unnamed {o : BitVec 4} (h : o ≠ 0) : decodeOpcode o = .opcodeUnnamed o := if_neg h

theorem decodeRcode_unknown {c : BitVec 4} (h : responseCodeOf (c.setWidth 16) = none) :
    decodeRcode c = .rcodeUnknown c := by
  simp only [decodeRcode, h]

theorem decodeRtype_unknown {t : Half} (h : recordTypeOf t = none) : decodeRtype t = .rtypeUnknown t := by
  simp only [decodeRtype, h]

theorem decodeClass_other {c : Half} (h : c ≠ 1) : decodeClass c = .classOther c := if_neg h

/-! ### Decoding an encoded row -/

section layout
variable {i : Instr} (rest : List Byte)

theorem decode_len8 {n : Byte} (h : decodeLen n = i) : decode .len8 (n :: rest) = .ok (i, rest) := by
  subst h
  rfl

theorem decode_flags16 {w : Half} (h : decodeFlags w = i) : decode .flags16 (be16 w ++ rest) = .ok (i, rest) := by
  subst h
  exact congrArg (fun w => Except.ok (decodeFlags w, rest)) (unbe16_be16 w)

theorem decode_opcode4 {o : BitVec 4} (h : decodeOpcode o = i) :
    decode .opcode4 ((0#4 ++ o) :: rest) = .ok (i, rest) := by
  subst h
  exact congrArg (Except.map fun o => (decodeOpcode o, rest)) (nibbleOf_eq_ok.mpr rfl)

theorem decode_rcode4 {c : BitVec 4} (h : decodeRcode c = i) :
    decode .rcode4 ((0#4 ++ c) :: rest) = .ok (i, rest) := by
  subst h
  exact congrArg (Except.map fun c => (decodeRcode c, rest)) (nibbleOf_eq_ok.mpr rfl)

theorem decode_rtype16 {t : Half} (h : decodeRtype t = i) : decode .rtype16 (be16 t ++ rest) = .ok (i, rest) := by
  subst h
  exact congrArg (fun t => Except.ok (decodeRtype t, rest)) (unbe16_be16 t)

theorem decode_class16 {c : Half} (h : decodeClass c = i) : decode .class16 (be16 c ++ rest) = .ok (i, rest) := by
  subst h
  exact congrArg (fun c => Except.ok (decodeClass c, rest)) (unbe16_be16 c)

end layout

/-- Settles O2: a row without operands has one word, which decodes by computation; any other row's word is its operands
laid out, and being well formed it takes the word no other row claims. -/
theorem decodingAnEncodedInstructionGivesItBack : Obligations.DecodingAnEncodedInstructionGivesItBack := by
  intro i rest hw
  cases i with
  | lenLabel n => exact decode_len8 rest (decodeLen_label (wellFormed_lenLabel.mp hw))
  | lenRsv01 x => exact decode_len8 rest (decodeLen_rsv01 x)
  | lenRsv10 x => exact decode_len8 rest (decodeLen_rsv10 x)
  | lenPtr x => exact decode_len8 rest (decodeLen_ptr x)
  | flags q o a t d r z c =>
    rw [encode_flags]
    exact decode_flags16 rest (decodeFlags_flagWord (wellFormed_flags.mp hw))
  | opcodeUnnamed o => exact decode_opcode4 rest (decodeOpcode_unnamed (wellFormed_opcodeUnnamed.mp hw))
  | rcodeUnknown c => exact decode_rcode4 rest (decodeRcode_unknown (wellFormed_rcodeUnknown.mp hw))
  | rtypeUnknown t => exact decode_rtype16 rest (decodeRtype_unknown (wellFormed_rtypeUnknown.mp hw))
  | classOther c => exact decode_class16 rest (decodeClass_other (wellFormed_classOther.mp hw))
  | _ => rfl

/-! ### Encoding a decoded word -/

/-- The row is well formed, of the format, and its word is the bytes given. -/
def IsRowOf (f : Format) (word : List Byte) (i : Instr) : Prop :=
  WellFormed i = true ∧ formatOf i = f ∧ encode i = word

theorem decodeCmd_isRowOf : ∀ c : BitVec 4, IsRowOf .cmd [0#4 ++ c] (decodeCmd c) := by
  unfold IsRowOf
  decide

theorem decodeLen_isRowOf (n : Byte) : IsRowOf .len8 [n] (decodeLen n) := by
  obtain ⟨x, rfl | rfl | rfl | rfl⟩ := lengthOctet_classes n
  · by_cases hx : x = 0
    · subst hx
      exact ⟨rfl, rfl, rfl⟩
    · rw [decodeLen_label hx]
      exact ⟨wellFormed_lenLabel.mpr hx, rfl, rfl⟩
  · rw [decodeLen_rsv01]
    exact ⟨rfl, rfl, rfl⟩
  · rw [decodeLen_rsv10]
    exact ⟨rfl, rfl, rfl⟩
  · rw [decodeLen_ptr]
    exact ⟨rfl, rfl, rfl⟩

theorem decodeFlags_isRowOf (w : Half) : IsRowOf .flags16 (be16 w) (decodeFlags w) := by
  by_cases hw : w = 0x0100
  · subst hw
    exact ⟨rfl, rfl, rfl⟩
  · rw [← flagWord_hdrDecode w] at hw ⊢
    rw [decodeFlags_flagWord hw]
    exact ⟨wellFormed_flags.mpr hw, rfl, encode_flags ..⟩

theorem decodeOpcode_isRowOf (o : BitVec 4) : IsRowOf .opcode4 [0#4 ++ o] (decodeOpcode o) := by
  by_cases ho : o = 0
  · subst ho
    exact ⟨rfl, rfl, rfl⟩
  · rw [decodeOpcode_unnamed ho]
    exact ⟨wellFormed_opcodeUnnamed.mpr ho, rfl, rfl⟩

theorem decodeRcode_isRowOf : ∀ c : BitVec 4, IsRowOf .rcode4 [0#4 ++ c] (decodeRcode c) := by
  unfold IsRowOf
  decide

theorem decodeRtype_isRowOf (t : Half) : IsRowOf .rtype16 (be16 t) (decodeRtype t) := by
  cases ht : recordTypeOf t with
  | none =>
    rw [decodeRtype_unknown ht]
    exact ⟨wellFormed_rtypeUnknown.mpr ht, rfl, rfl⟩
  | some k =>
    obtain rfl := recordTypeCode_of ht
    cases k <;> exact ⟨rfl, rfl, rfl⟩

theorem decodeClass_isRowOf (c : Half) : IsRowOf .class16 (be16 c) (decodeClass c) := by
  by_cases hc : c = 1
  · subst hc
    exact ⟨rfl, rfl, rfl⟩
  · rw [decodeClass_other hc]
    exact ⟨wellFormed_classOther.mpr hc, rfl, rfl⟩

section readers
variable {f : Format} {b b0 b1 : Byte} {bytes tail rest : List Byte} {i : Instr}

/-- A 4-bit format's decoder reads one byte, a code under an upper half of 0. -/
theorem isRowOf_of_nibble {row : BitVec 4 → Instr} (hrow : ∀ c, IsRowOf f [0#4 ++ c] (row c))
    (h : (nibbleOf b).map (fun c => (row c, tail)) = .ok (i, rest)) :
    ∃ word, IsRowOf f word i ∧ b :: tail = word ++ rest := by
  cases hb : nibbleOf b with
  | error e =>
    rw [hb] at h
    cases h
  | ok c =>
    rw [hb] at h
    cases h
    exact ⟨_, hrow c, congrArg (· :: tail) (nibbleOf_eq_ok.mp hb)⟩

/-- A 16-bit format's decoder reads two bytes, the most significant first. -/
theorem isRowOf_of_half {row : Half → Instr} (hrow : ∀ w, IsRowOf f (be16 w) (row w))
    (h : (.ok (row (unbe16 b0 b1), tail) : Except DecodeError (Instr × List Byte)) = .ok (i, rest)) :
    ∃ word, IsRowOf f word i ∧ b0 :: b1 :: tail = word ++ rest := by
  cases h
  exact ⟨_, be16_unbe16 b0 b1 ▸ hrow _, rfl⟩

/-- All `decode` can accept: the word of a well-formed row of the format, whatever stands behind it. -/
theorem isRowOf_of_decode (h : decode f bytes = .ok (i, rest)) : ∃ word, IsRowOf f word i ∧ bytes = word ++ rest := by
  unfold decode at h
  split at h
  · exact isRowOf_of_nibble decodeCmd_isRowOf h
  · cases h
    exact ⟨_, decodeLen_isRowOf _, rfl⟩
  · exact isRowOf_of_half decodeFlags_isRowOf h
  · exact isRowOf_of_nibble decodeOpcode_isRowOf h
  · exact isRowOf_of_nibble decodeRcode_isRowOf h
  · exact isRowOf_of_half decodeRtype_isRowOf h
  · exact isRowOf_of_half decodeClass_isRowOf h
  · cases h

end readers

/-- Settles O3: every row a format's decoder gives is the row of the word it read. -/
theorem everyDecodedWordIsTheEncodingOfItsInstruction : Obligations.EveryDecodedWordIsTheEncodingOfItsInstruction := by
  intro f bytes i rest h
  obtain ⟨word, ⟨hw, hf, rfl⟩, hbytes⟩ := isRowOf_of_decode h
  exact ⟨hw, hf, hbytes⟩

/-- Settles O1: each word computes to its row. -/
theorem specWordsDecodeToTheirRows : Obligations.SpecWordsDecodeToTheirRows :=
  ⟨rfl, rfl, rfl, rfl, rfl, rfl, rfl, rfl, rfl, rfl, rfl, rfl, rfl, rfl, rfl, rfl, rfl⟩

namespace Machine

/-! ### A step (R11) -/

section request
variable {s : State}

theorem step_idle (h : s.req = .idle) : step s = .next s := by
  simp [step, fetch, h]

/-- The word of a command request is the code in `CMD`, in a byte of its own. -/
theorem fetch_command (h : s.req = .command) : fetch s = some (.cmd, [s.cmd.setWidth 8]) := by
  have hcode : (s.cmd.setWidth 16).extractLsb' 0 8 = s.cmd.setWidth 8 := by
    rw [← BitVec.setWidth_eq_extractLsb' (by omega), BitVec.setWidth_setWidth (by omega)]
  simp [fetch, h, wordBytes, formatBytes, hcode]

theorem fetch_pattern {f : Format} {w : Half} (h : s.req = .pattern f w) : fetch s = some (f, wordBytes f w) := by
  simp only [fetch, h]

theorem step_of_decode {f : Format} {bytes rest : List Byte} {i : Instr} (hf : fetch s = some (f, bytes))
    (hi : decode f bytes = .ok (i, rest)) : step s = exec i s.consume := by
  simp only [step, hf, hi]

end request

/-- Settles O4: each kind of request in turn. -/
theorem stepRunsTheDecodedInstruction : Obligations.StepRunsTheDecodedInstruction :=
  fun _ => ⟨step_idle, step_broken, fetch_command, fun _ _ => fetch_pattern, fun _ _ _ _ => step_of_decode⟩

/-! ### The rows of a word in `ARG` (R112, R116, R118) -/

/-- A run that neither reads nor writes `ARG` ends alike whatever `ARG` holds, and leaves it. -/
theorem finish_restoreArg {α : Type} {r : Run α} {put : Held α → State → State} {s t : State} {a : Held Half}
    (hput : ∀ v, put v s = { put v { s with arg := a } with arg := s.arg })
    (h : finish r put { s with arg := a } = .next t) : finish r put s = .next { t with arg := s.arg } := by
  rcases finish_next.mp h with ⟨v, rfl, rfl⟩ | ⟨e, rfl, rfl⟩
  · rw [finish_ok, hput]
    rfl
  · rw [finish_raised, hput]
    rfl

/-- Settles O56: command and row end as the same function of the word does, which leaves `ARG` alone. -/
theorem patternRowsActAsTheirCommands : Obligations.PatternRowsActAsTheirCommands := by
  refine ⟨fun s t w h => ?_, fun s t c h => ?_, fun s t v h => ?_⟩
  · rw [exec_hdrdec_of_arg rfl] at h
    rw [exec_decodeFlags]
    exact finish_restoreArg (fun _ => rfl) h
  · rw [exec_rcdec_of_arg rfl] at h
    rw [exec_decodeRcode]
    exact finish_restoreArg (fun _ => rfl) h
  · rw [exec_rtdec_of_arg rfl] at h
    rw [exec_decodeRtype]
    exact finish_restoreArg (fun _ => rfl) h

end Machine

end Sys2Proof
end
